-- ==== Sys2Proof/Word.lean ====
section
/-! DEFINITION. The two word widths of the block: a byte (00_scope.md R8) and a host register (00_scope.md R7, `XLEN`). -/

namespace Sys2Proof

/-- A byte is 8 bits (00_scope.md R8). -/
abbrev Byte := BitVec 8

/-- A host register and a host access are 32 bits (00_scope.md R7 `XLEN`, 20_memory.md R65). -/
abbrev Word := BitVec 32

/-- An 8-byte block: BUF, CSH and a serial payload (00_scope.md R7 `BUF_BYTES`, R12 "Block"). -/
abbrev Block := Vector Byte 8

end Sys2Proof
end

