-- ==== Sys2Proof/Syntax.lean ====
section
/-! DEFINITION. The instructions: one constructor per row of spec/opcode_table.json (30_encoding.md R82).

Every constructor carries the three operand bytes A, B and C of its command word (R80), the ones its rule ignores too:
acceptance latches all three (10_state.md R42), so no bit of a word is lost (log 22). -/

namespace Sys2Proof

inductive Instr where
  /-- bcd.enc: A = binary value n (40_bcd.md R122). -/
  | bcdEnc (a b c : Byte)
  /-- bcd.dec: A = BCD byte (40_bcd.md R123). -/
  | bcdDec (a b c : Byte)
  /-- time.enc: TIME0/1 to BUF (40_bcd.md R127). -/
  | timeEnc (a b c : Byte)
  /-- time.dec: BUF to TIME0/1 (40_bcd.md R128). -/
  | timeDec (a b c : Byte)
  /-- tw.start (41_twowire.md R150). -/
  | twStart (a b c : Byte)
  /-- tw.stop (41_twowire.md R151). -/
  | twStop (a b c : Byte)
  /-- tw.wrbit: A[0] = bit (41_twowire.md R152). -/
  | twWrbit (a b c : Byte)
  /-- tw.rdbit (41_twowire.md R153). -/
  | twRdbit (a b c : Byte)
  /-- tw.wrbyte: A = byte (41_twowire.md R154). -/
  | twWrbyte (a b c : Byte)
  /-- tw.rdbyte: A[0] = 1 for NACK, 0 for ACK (41_twowire.md R155). -/
  | twRdbyte (a b c : Byte)
  /-- tw.rdblk: A = register, B = length, C[6:0] = slave address (41_twowire.md R156). -/
  | twRdblk (a b c : Byte)
  /-- tw.wrblk: A = register, B = length, C[6:0] = slave address (41_twowire.md R157). -/
  | twWrblk (a b c : Byte)
  /-- sf.detect (42_serial.md R190). -/
  | sfDetect (a b c : Byte)
  /-- sf.ident (42_serial.md R191). -/
  | sfIdent (a b c : Byte)
  /-- sf.rdblk: A = block (42_serial.md R192). -/
  | sfRdblk (a b c : Byte)
  /-- sf.wrblk: A = block (42_serial.md R193). -/
  | sfWrblk (a b c : Byte)
  /-- sf.setstop: A[0] = stop (42_serial.md R194). -/
  | sfSetstop (a b c : Byte)
  /-- sf.rdtime (42_serial.md R195). -/
  | sfRdtime (a b c : Byte)
  /-- sf.settime: TIME0/1 (42_serial.md R196). -/
  | sfSettime (a b c : Byte)
  deriving DecidableEq, Repr

end Sys2Proof
end

