-- ==== Sys2Proof/WellFormed.lean ====
section
/-! DEFINITION. Well-formed instructions: the operand checks of 30_encoding.md R86. An instruction that fails its check is
still accepted by the block and completes with ERR 2; the machine makes the check again, from the latched operands. -/

namespace Sys2Proof

/-- "1 <= B <= 8 (the length fits BUF)" for the two-wire block ops, "A <= 2 (the block is Control, Unused or Time)" for
the raw serial block ops, no check for the others (30_encoding.md R86). -/
def Instr.wellFormed : Instr → Bool
  | .twRdblk _ b _ => decide (1 ≤ b.toNat ∧ b.toNat ≤ 8)
  | .twWrblk _ b _ => decide (1 ≤ b.toNat ∧ b.toNat ≤ 8)
  | .sfRdblk a _ _ => decide (a.toNat ≤ 2)
  | .sfWrblk a _ _ => decide (a.toNat ≤ 2)
  | .bcdEnc _ _ _ => true
  | .bcdDec _ _ _ => true
  | .timeEnc _ _ _ => true
  | .timeDec _ _ _ => true
  | .twStart _ _ _ => true
  | .twStop _ _ _ => true
  | .twWrbit _ _ _ => true
  | .twRdbit _ _ _ => true
  | .twWrbyte _ _ _ => true
  | .twRdbyte _ _ _ => true
  | .sfDetect _ _ _ => true
  | .sfIdent _ _ _ => true
  | .sfSetstop _ _ _ => true
  | .sfRdtime _ _ _ => true
  | .sfSettime _ _ _ => true

end Sys2Proof
end

