-- ==== Sys2Proof/Decode.lean ====
section
/-! DEFINITION. The decoder of command words, total on every 32-bit word and rejecting by name, the encoder, and the
assembler's mnemonics (30_encoding.md R80 to R88). -/

namespace Sys2Proof

/-- The fields of a command word `w = {C, B, A, OP}` (30_encoding.md R80). -/
def opField (w : Word) : Byte := w.extractLsb' 0 8
def aField (w : Word) : Byte := w.extractLsb' 8 8
def bField (w : Word) : Byte := w.extractLsb' 16 8
def cField (w : Word) : Byte := w.extractLsb' 24 8

/-- The command word with the given fields (30_encoding.md R80). -/
def commandWord (op a b c : Byte) : Word := c ++ b ++ a ++ op

/-- Why a command word is no instruction: its opcode is reserved (30_encoding.md R85). -/
inductive DecodeError where
  | reservedOp (op : Byte)
  deriving DecidableEq, Repr

/-- The opcode map of 30_encoding.md R82; every other value of OP is reserved (R85). -/
def decodeFields (op a b c : Byte) : Except DecodeError Instr :=
  match op with
  | 0x01#8 => .ok (.bcdEnc a b c)
  | 0x02#8 => .ok (.bcdDec a b c)
  | 0x03#8 => .ok (.timeEnc a b c)
  | 0x04#8 => .ok (.timeDec a b c)
  | 0x10#8 => .ok (.twStart a b c)
  | 0x11#8 => .ok (.twStop a b c)
  | 0x12#8 => .ok (.twWrbit a b c)
  | 0x13#8 => .ok (.twRdbit a b c)
  | 0x14#8 => .ok (.twWrbyte a b c)
  | 0x15#8 => .ok (.twRdbyte a b c)
  | 0x16#8 => .ok (.twRdblk a b c)
  | 0x17#8 => .ok (.twWrblk a b c)
  | 0x20#8 => .ok (.sfDetect a b c)
  | 0x21#8 => .ok (.sfIdent a b c)
  | 0x22#8 => .ok (.sfRdblk a b c)
  | 0x23#8 => .ok (.sfWrblk a b c)
  | 0x24#8 => .ok (.sfSetstop a b c)
  | 0x25#8 => .ok (.sfRdtime a b c)
  | 0x26#8 => .ok (.sfSettime a b c)
  | _ => .error (.reservedOp op)

/-- The instruction a command word stands for. "No mode bit changes decoding" (30_encoding.md R80). -/
def decode (w : Word) : Except DecodeError Instr := decodeFields (opField w) (aField w) (bField w) (cField w)

/-- The instruction of a table row's bits: bit 0 is bit 0 of the command word, and the bits above `nbits` are 0. -/
def decodeTableWord (nbits w : Nat) : Option Instr :=
  match decode (BitVec.ofNat 32 (w % 2 ^ nbits)) with
  | .ok i => some i
  | .error _ => none

/-- The opcode of an instruction (30_encoding.md R82). -/
def Instr.opcode : Instr → Byte
  | .bcdEnc _ _ _ => 0x01
  | .bcdDec _ _ _ => 0x02
  | .timeEnc _ _ _ => 0x03
  | .timeDec _ _ _ => 0x04
  | .twStart _ _ _ => 0x10
  | .twStop _ _ _ => 0x11
  | .twWrbit _ _ _ => 0x12
  | .twRdbit _ _ _ => 0x13
  | .twWrbyte _ _ _ => 0x14
  | .twRdbyte _ _ _ => 0x15
  | .twRdblk _ _ _ => 0x16
  | .twWrblk _ _ _ => 0x17
  | .sfDetect _ _ _ => 0x20
  | .sfIdent _ _ _ => 0x21
  | .sfRdblk _ _ _ => 0x22
  | .sfWrblk _ _ _ => 0x23
  | .sfSetstop _ _ _ => 0x24
  | .sfRdtime _ _ _ => 0x25
  | .sfSettime _ _ _ => 0x26

/-- The operand bytes A, B and C of an instruction. -/
def Instr.operands : Instr → Byte × Byte × Byte
  | .bcdEnc a b c => (a, b, c)
  | .bcdDec a b c => (a, b, c)
  | .timeEnc a b c => (a, b, c)
  | .timeDec a b c => (a, b, c)
  | .twStart a b c => (a, b, c)
  | .twStop a b c => (a, b, c)
  | .twWrbit a b c => (a, b, c)
  | .twRdbit a b c => (a, b, c)
  | .twWrbyte a b c => (a, b, c)
  | .twRdbyte a b c => (a, b, c)
  | .twRdblk a b c => (a, b, c)
  | .twWrblk a b c => (a, b, c)
  | .sfDetect a b c => (a, b, c)
  | .sfIdent a b c => (a, b, c)
  | .sfRdblk a b c => (a, b, c)
  | .sfWrblk a b c => (a, b, c)
  | .sfSetstop a b c => (a, b, c)
  | .sfRdtime a b c => (a, b, c)
  | .sfSettime a b c => (a, b, c)

/-- The command word of an instruction: `w = OP + (A << 8) + (B << 16) + (C << 24)` (30_encoding.md R80, R87). -/
def encode (i : Instr) : Word := commandWord i.opcode i.operands.1 i.operands.2.1 i.operands.2.2

/-! The assembler (30_encoding.md R87, R88): a mnemonic and up to three operands, an omitted operand being 0. -/

/-- The opcode of each mnemonic of 30_encoding.md R82. -/
def mnemonics : List (String × Byte) :=
  [("bcd.enc", 0x01), ("bcd.dec", 0x02), ("time.enc", 0x03), ("time.dec", 0x04),
   ("tw.start", 0x10), ("tw.stop", 0x11), ("tw.wrbit", 0x12), ("tw.rdbit", 0x13),
   ("tw.wrbyte", 0x14), ("tw.rdbyte", 0x15), ("tw.rdblk", 0x16), ("tw.wrblk", 0x17),
   ("sf.detect", 0x20), ("sf.ident", 0x21), ("sf.rdblk", 0x22), ("sf.wrblk", 0x23),
   ("sf.setstop", 0x24), ("sf.rdtime", 0x25), ("sf.settime", 0x26)]

/-- The pseudo-instructions of 30_encoding.md R88 that stand for one command word, with their expansions.
(`wait` is the host's polling loop and no command.) -/
def pseudoInstructions : List (String × String × List Nat) :=
  [("tw.ack", "tw.wrbit", [0]), ("tw.nack", "tw.wrbit", [1]), ("tw.getack", "tw.rdbit", []),
   ("sf.stop", "sf.setstop", [1]), ("sf.start", "sf.setstop", [0]),
   ("sf.rdctrl", "sf.rdblk", [0]), ("sf.wrctrl", "sf.wrblk", [0])]

/-- The word of a core mnemonic: operands are 0 to 255, at most three, and an omitted one is 0 (30_encoding.md R87). -/
def assembleCore (mnemonic : String) (operands : List Nat) : Option Word :=
  match mnemonics.lookup mnemonic with
  | none => none
  | some op =>
    if operands.length ≤ 3 ∧ operands.all (· ≤ 255) then
      some (commandWord op (BitVec.ofNat 8 (operands.getD 0 0)) (BitVec.ofNat 8 (operands.getD 1 0))
        (BitVec.ofNat 8 (operands.getD 2 0)))
    else none

/-- The word of a line of assembly, a pseudo-instruction standing for its expansion (30_encoding.md R87, R88). -/
def assemble (mnemonic : String) (operands : List Nat) : Option Word :=
  match pseudoInstructions.lookup mnemonic with
  | some (core, fixed) => if operands.isEmpty then assembleCore core fixed else none
  | none => assembleCore mnemonic operands

end Sys2Proof
end

