-- ==== Sys2Proof/Config.lean ====
section
/-! DEFINITION. What an implementation fixes: the parameters of 00_scope.md R7 (the OPEN ones have no value here) and the
free levels of the two-wire bus environment. -/

namespace Sys2Proof

/-- Where the stop bit and the two lock bits stand in the 64 bits of a control block (30_encoding.md R92).
A position is `8 * byte + bit`. "The three positions are distinct", so the locks are numbered among the positions that
are left: `lock1Rest` among the 63 other than the stop bit, `lock2Rest` among the 62 other than both
(DEDUCED, log 8: every choice of three distinct positions is one such record, and no record has two equal positions). -/
structure CtrlBits where
  stop : Fin 64
  lock1Rest : Fin 63
  lock2Rest : Fin 62
  deriving DecidableEq, Repr, Inhabited

/-- The lock bit of block 1: `CB_LOCK1_BYTE`, `CB_LOCK1_BIT`. -/
def CtrlBits.lock1 (c : CtrlBits) : Fin 64 := c.stop.succAbove c.lock1Rest

/-- The lock bit of block 2: `CB_LOCK2_BYTE`, `CB_LOCK2_BIT`. -/
def CtrlBits.lock2 (c : CtrlBits) : Fin 64 := c.stop.succAbove (c.lock1Rest.succAbove c.lock2Rest)

/-- The OPEN parameters of 00_scope.md R7 and 92_eei_decisions.md, and the platform's constant input `WR_EXCL`
(93_implementation_defined.md I22, "parameter"). -/
structure Params where
  /-- `BASE`, aligned to 64 bytes (20_memory.md R60): its upper 26 bits. That a host address has 32 bits is the model's choice
  (DESIGN CHOICE, log 7: the spec gives no address width). -/
  base : BitVec 26
  /-- `CMD_IDENTIFY`, `CMD_READ_BLOCK`, `CMD_WRITE_BLOCK` (30_encoding.md R95). -/
  cmdIdentify : Byte
  cmdReadBlock : Byte
  cmdWriteBlock : Byte
  /-- `RTC_PORT` (42_serial.md R180). -/
  rtcPort : Byte
  /-- `ID_RTC` (42_serial.md R190). -/
  idRtc : BitVec 16
  /-- `CB_STOP_*`, `CB_LOCK1_*`, `CB_LOCK2_*` (30_encoding.md R92). -/
  ctrl : CtrlBits
  /-- `TW_DELAY_RST` and `SETTLE_RST` (10_state.md R49). -/
  twDelayRst : BitVec 16
  settleRst : Word
  /-- `GPIO_SCL_BIT` and `GPIO_SDA_BIT` (41_twowire.md R161). That the platform's GPIO register has 32 bits, so that a position
  is 0 to 31, is the model's choice (DESIGN CHOICE, log 21: the spec gives no width). -/
  gpioSclBit : Fin 32
  gpioSdaBit : Fin 32
  /-- The level the platform holds `WR_EXCL` at (10_state.md R38). -/
  wrExcl : Bool
  /-- `STAT_STOP_MASK` (30_encoding.md R94, 90_conflicts.md C13). -/
  statStopMask : Byte
  deriving DecidableEq, Repr, Inhabited

/-- The OPEN parameters. No value is given: every statement about them holds of every choice (log 6). -/
opaque Config.openParams : Params

/-- "The mask is a parameter, and 0x01 is this spec's value for it" (90_conflicts.md C13; 00_scope.md R7, 30_encoding.md R94). -/
def Config.statStopMask : Byte := 0x01

/-- The parameters of the machine at hand: the OPEN ones, and this spec's value of `STAT_STOP_MASK` (log 6). -/
def Config.params : Params := { Config.openParams with statStopMask := Config.statStopMask }

/-- `HOUR_MARK` (00_scope.md R7). -/
def Config.hourMark : Byte := 0x80

/-- `YEAR_MIN` and `YEAR_MAX` (00_scope.md R7). -/
def Config.yearMin : Nat := 1996
def Config.yearMax : Nat := 2095

/-- FREE VALUE (log 4). Whether the other agents leave the data line high, when the state does not say what they do:
"a value the model takes as a draw (any of 0, 1) from the environment agent" (41_twowire.md R143). -/
opaque Config.freeSda : Nat → Bool

/-- FREE VALUE (log 4). The same for the clock line, seen only in LINES.SCL_I (10_state.md R36). -/
opaque Config.freeScl : Nat → Bool

end Sys2Proof
end

