-- ==== Sys2Proof/Machine/State.lean ====
section
/-! DEFINITION. The state of the block (10_state.md), as plain data, with the types of its fields, its reset value (R49),
and the reasons a step can stop. -/

namespace Sys2Proof.Machine

/-- STAT.DET: "{Init, Pending, Detected, NotDetected}" (10_state.md R27). -/
inductive Det where
  | init
  | pending
  | detected
  | notDetected
  deriving DecidableEq, Repr

/-- STAT.ERR: the codes of 60_exceptions.md R221; 6 and 7 are "never produced". -/
inductive ErrCode where
  /-- 0, no error. -/
  | none
  /-- 1, ERR_RESERVED_OP. -/
  | reservedOp
  /-- 2, ERR_BAD_OPERAND. -/
  | badOperand
  /-- 3, ERR_RANGE. -/
  | range
  /-- 4, ERR_WRITE_EXCLUDED. -/
  | writeExcluded
  /-- 5, ERR_NOT_STOPPED. -/
  | notStopped
  deriving DecidableEq, Repr

/-- The fields of STAT (10_state.md R22). -/
@[ext]
structure Stat where
  busy : Bool
  done : Bool
  ok : Bool
  overrun : Bool
  det : Det
  unknown : Bool
  devstop : Bool
  err : ErrCode
  devstat : Byte
  deriving DecidableEq, Repr

/-- The fields of TIME0 and TIME1 (10_state.md R31). -/
@[ext]
structure TimeFields where
  sec : Byte
  min : Byte
  hour : Byte
  day : Byte
  mon : Byte
  wday : Byte
  year : BitVec 16
  deriving DecidableEq, Repr

/-- The two lines of the two-wire bus (41_twowire.md R140). -/
inductive Line where
  | scl
  | sda
  deriving DecidableEq, Repr

/-- A bit that a statement of an op's rule names: a constant, AL[0], or SR[BI]. -/
inductive BitSource where
  | lit (b : Bool)
  | al0
  | srAtBi
  deriving DecidableEq, Repr

/-- A byte that WRBYTE sends: AL, the address byte `(CL[6:0] << 1) | rw`, or BUF[XI] (41_twowire.md R154, R156, R157). -/
inductive ByteSource where
  | al
  | address (rw : Bool)
  | bufAtXi
  deriving DecidableEq, Repr

/-- BI: "the bit index BI (7 down to 0, then the ACK bit)" (10_state.md R46). -/
inductive BitIndex where
  | bit (n : Fin 8)
  | ack
  deriving DecidableEq, Repr

/-- The payload of a WRITE_BLOCK frame: BUF itself (sf.wrblk), `time_encode(TIME)`, or
`with_ctrl(CSH, stop, not stop)` (42_serial.md R193, R194, R196). -/
inductive Payload where
  | buf
  | time
  | ctrl (stop : BitSource)
  deriving DecidableEq, Repr

/-- The three frames (30_encoding.md R95). -/
inductive Frame where
  | identify
  | readBlock (blk : Byte)
  | writeBlock (blk : Byte) (p : Payload)
  deriving DecidableEq, Repr

/-- What an op's rule tests before it goes on (42_serial.md R194, R196). -/
inductive Cond where
  /-- `not time_valid(TIME)`. -/
  | timeInvalid
  /-- `WR_EXCL == 1`. -/
  | writeExcluded
  /-- `STAT.DEVSTOP == 0`. -/
  | notStopped
  /-- `get_stop(CSH) == AL[0]`. -/
  | stopAlready
  deriving DecidableEq, Repr

/-- The statements of an op's rule that take no cycle of their own: they are performed in the step in which the
statement before them ends (log 2). -/
inductive Act where
  /-- `SR <- v`. -/
  | loadSr (v : ByteSource)
  /-- Set BI, and XI, at a turn of a loop. -/
  | setBi (i : BitIndex)
  | setXi (i : Fin 8)
  /-- `SR[BI] <- sample()`. -/
  | sampleSr
  /-- `RES <- zext_32(sample())`. -/
  | sampleRes
  /-- `sample()` whose value is discarded: the acknowledge bit of a block op (41_twowire.md R147, R156). -/
  | sampleDiscard
  /-- `RES <- zext_32(SR)`. -/
  | resFromSr
  /-- `BUF[XI] <- SR`. -/
  | bufFromSr
  /-- `RES <- zext_32({rx[0], rx[1]})`. -/
  | resFromId
  /-- `CSH <- BUF[0..7]`. -/
  | saveCsh
  /-- `SC <- SLAT`, the beginning of `settle()`. -/
  | loadSc
  /-- `STAT.DET <- Pending`. -/
  | setPending
  /-- `STAT.DET <- (id == ID_RTC) ? Detected : NotDetected`. -/
  | compareId
  /-- `if c: complete(ok, err)`. -/
  | exitIf (c : Cond) (ok : Bool) (err : ErrCode)
  /-- `complete(ok, err)`. -/
  | complete (ok : Bool) (err : ErrCode)
  /-- `complete(STAT.DET == Detected, 0)`. -/
  | completeDet
  /-- `TIME0, TIME1, STAT.UNKNOWN <- time_decode(BUF)`, then `if v: complete(1, 0) else: complete(0, 3)`. -/
  | completeTimeDecode
  deriving DecidableEq, Repr

/-- One statement of a sequenced op's rule. -/
inductive Stmt where
  /-- `phase(line <- v)` (41_twowire.md R142). -/
  | phase (line : Line) (v : BitSource)
  /-- `xfer` of a frame (42_serial.md R181). -/
  | xfer (f : Frame)
  /-- The wait of `settle()`, while SC counts down (42_serial.md R185). -/
  | settle
  /-- A statement that takes no cycle of its own. -/
  | act (a : Act)
  deriving DecidableEq, Repr

/-- SEQ: "Idle, or a position inside the sequence of a sequenced op" (10_state.md R40). The position is the list of the
statements still to be performed, the current one first. -/
inductive Seq where
  | idle
  | run (rest : List Stmt)
  deriving DecidableEq, Repr

/-- The transport request pins (10_state.md R39, 42_serial.md R180). -/
@[ext]
structure Request where
  valid : Bool
  port : Byte
  txlen : Fin 11
  rxlen : Fin 10
  tx : Vector Byte 10
  deriving DecidableEq, Repr

/-- One step of an agent other than the sequencer's own clock, or that clock itself (00_scope.md R6; log 1). -/
inductive Input where
  /-- The host writes `v` at BASE + off, in an access of `width` bytes (20_memory.md R60). -/
  | hostWrite (off : BitVec 6) (width : Nat) (v : Word)
  /-- The host reads at BASE + off (20_memory.md R60). -/
  | hostRead (off : BitVec 6) (width : Nat)
  /-- One block-clock cycle: the sequencer's step. -/
  | clock
  /-- `req_ready`: the transport takes the request (42_serial.md R181). -/
  | transportTakes
  /-- `rsp_valid` with `rsp_rx[0..8]`: the transport answers (42_serial.md R181). -/
  | transportReplies (rx : Vector Byte 9)
  /-- The bus environment: `some true`, no other agent drives the data line low; `some false`, one does; `none`, not said:
  the level is a free value (41_twowire.md R141, R143; log 4). -/
  | busSda (others : Option Bool)
  /-- The same for the clock line. -/
  | busScl (others : Option Bool)
  /-- The platform GPIO register that carries the lines holds `g` (41_twowire.md R161). Its width of 32 bits is the model's
  choice (DESIGN CHOICE, log 21). -/
  | gpio (g : Word)
  /-- The platform drives `rst` (70_reset_and_hazards.md R250). -/
  | rst (level : Bool)
  deriving DecidableEq, Repr

/-- The state of the block, and the model's own `draws`, `rdata` and `inputs`. -/
@[ext]
structure State where
  /-- STAT (10_state.md R22). -/
  stat : Stat
  /-- RES (R32). -/
  res : Word
  /-- BUF[0..7] (R33). -/
  buf : Block
  /-- TIME0 and TIME1 (R31). -/
  time : TimeFields
  /-- CFG.TW_DELAY and CFG.IE (R34). -/
  twDelay : BitVec 16
  ie : Bool
  /-- SETTLE (R35). -/
  settle : Word
  /-- SEQ (R40). -/
  seq : Seq
  /-- PEND (R45). -/
  pend : Bool
  /-- OPL, AL, BL, CL (R42). -/
  opl : Byte
  al : Byte
  bl : Byte
  cl : Byte
  /-- DLAT and SLAT (R42). -/
  dlat : BitVec 16
  slat : Word
  /-- CSH[0..7] (R44). -/
  csh : Block
  /-- SCL_O and SDA_O (R39, R46). -/
  sclO : Bool
  sdaO : Bool
  /-- HC, SR, BI, XI (R46). -/
  hc : BitVec 16
  sr : Byte
  bi : BitIndex
  xi : Fin 8
  /-- SC (R47). -/
  sc : Word
  /-- The request pins (R39). -/
  req : Request
  /-- The input `rst` (R38). -/
  rst : Bool
  /-- The input `WR_EXCL` (R38); no step changes it. -/
  wrExcl : Bool
  /-- The input `rsp_rx[0..8]` as at the last reply taken (R38; log 17). -/
  rspRx : Vector Byte 9
  /-- Whether the other agents leave SDA, and SCL, high; none where the state does not say (log 4). -/
  sdaEnv : Option Bool
  sclEnv : Option Bool
  /-- The model's own: the counter that free levels are drawn by (log 4). -/
  draws : Nat
  /-- The model's own: what the last host read returned (log 18). -/
  rdata : Word
  /-- The model's own: what the agents do next, oldest first (log 1). -/
  inputs : List Input
  deriving DecidableEq, Repr

/-- Why the machine stops with a fault. -/
inductive Fault where
  /-- Raised by sf.detect when it is accepted with STAT.DET = Pending, which "cannot occur" (42_serial.md R190).
  Safe: the spec gives no effect there, and no run reaches it (log 10). -/
  | detPendingAtAcceptance
  deriving DecidableEq, Repr

/-- Why a step has no meaning. -/
inductive Refusal where
  /-- Raised by exec for an instruction without a meaning; no instruction of this model is one. Safe. -/
  | notModelled (mnemonic : String)
  /-- Raised by a host access that is not 32 bits wide or not aligned: "a model must refuse it" (20_memory.md R65).
  Safe (log 9). -/
  | hostAccess
  deriving DecidableEq, Repr

/-- `max(d, 1)`: a phase length of 0 "is treated as 1" (10_state.md R34, R42). -/
def atLeastOne (d : BitVec 16) : BitVec 16 := if d = 0 then 1 else d

/-- Every piece of state at the value 10_state.md R49 gives it, for the given parameters. The rows R49 does not name are the
request pins (log 16), the inputs (log 4, 5, 12, 17) and the model's own fields (log 1, 4, 18). -/
def State.resetWith (p : Params) : State where
  stat :=
    { busy := false, done := false, ok := false, overrun := false, det := .init, unknown := false, devstop := false,
      err := .none, devstat := 0x00 }
  res := 0
  buf := Vector.replicate 8 0x00
  time := { sec := 0, min := 0, hour := 0, day := 0, mon := 0, wday := 0, year := 0 }
  twDelay := p.twDelayRst
  ie := false
  settle := p.settleRst
  seq := .idle
  pend := false
  opl := 0
  al := 0
  bl := 0
  cl := 0
  dlat := atLeastOne p.twDelayRst
  slat := p.settleRst
  csh := Vector.replicate 8 0x00
  sclO := true
  sdaO := true
  hc := 0
  sr := 0
  bi := .bit 0
  xi := 0
  sc := 0
  req := { valid := false, port := p.rtcPort, txlen := 0, rxlen := 0, tx := Vector.replicate 10 0x00 }
  rst := false
  wrExcl := p.wrExcl
  rspRx := Vector.replicate 9 0x00
  sdaEnv := none
  sclEnv := none
  draws := 0
  rdata := 0
  inputs := []

/-- The block right after reset. -/
def State.reset : State := State.resetWith Config.params

end Sys2Proof.Machine
end

