-- ==== Sys2Proof/Machine/Flags.lean ====
section
/-! DEFINITION. The flags: the STAT word, its write-1-to-clear, the stopped flag, and the interrupt output. The block has no
condition codes; "its only flags are the STAT fields" (10_state.md R48). -/

namespace Sys2Proof.Machine

/-- The encoding of STAT.DET (10_state.md R27). -/
def detCode : Det → BitVec 2
  | .init => 0
  | .pending => 1
  | .detected => 2
  | .notDetected => 3

/-- The encoding of STAT.ERR (60_exceptions.md R221). -/
def errCode : ErrCode → BitVec 3
  | .none => 0
  | .reservedOp => 1
  | .badOperand => 2
  | .range => 3
  | .writeExcluded => 4
  | .notStopped => 5

/-- STAT as the host reads it; every bit not named reads 0 (10_state.md R22). -/
def statWord (t : Stat) : Word :=
  (0#8 ++ t.devstat ++ 0#5 ++ errCode t.err ++ BitVec.ofBool t.devstop ++ BitVec.ofBool t.unknown ++ detCode t.det
    ++ BitVec.ofBool t.overrun ++ BitVec.ofBool t.ok ++ BitVec.ofBool t.done ++ BitVec.ofBool t.busy : BitVec 32)

/-- A host write of `v` to STAT "clears DONE if v[1] = 1 and clears OVERRUN if v[3] = 1" (10_state.md R22). -/
def clearStat (v : Word) (t : Stat) : Stat :=
  { t with done := t.done && !v.getLsbD 1, overrun := t.overrun && !v.getLsbD 3 }

/-- The stopped bit of a device status byte: `status & STAT_STOP_MASK != 0` (10_state.md R29, 30_encoding.md R94). -/
def stoppedBit (p : Params) (status : Byte) : Bool := status &&& p.statStopMask != 0

/-- `IRQ = STAT.DONE and CFG.IE` (60_exceptions.md R226). -/
def irq (s : State) : Bool := s.stat.done && s.ie

end Sys2Proof.Machine
end

