-- ==== Sys2Proof/Machine/Operands.lean ====
section
/-! DEFINITION. The operands of an op: its acceptance checks, and what its statements read from the latches, the engine's
registers and BUF. -/

namespace Sys2Proof.Machine

/-- "1 <= B <= 8", the operand check of tw.rdblk and tw.wrblk (30_encoding.md R86). -/
def lengthOk (b : Byte) : Bool := decide (1 ≤ b.toNat ∧ b.toNat ≤ 8)

/-- "A <= 2", the operand check of sf.rdblk and sf.wrblk (30_encoding.md R86). -/
def blockOk (a : Byte) : Bool := decide (a.toNat ≤ 2)

/-- SR[BI]; in the ninth bit no shift-register bit is selected, and no op asks for one. -/
def srBit (s : State) : Bool :=
  match s.bi with
  | .bit n => s.sr.getLsbD n
  | .ack => false

/-- The value of a bit operand (30_encoding.md R81, 10_state.md R42: "a running op reads only the latched values"). -/
def bitValue (v : BitSource) (s : State) : Bool :=
  match v with
  | .lit b => b
  | .al0 => s.al.getLsbD 0
  | .srAtBi => srBit s

/-- The two-wire address byte `{addr[6:0], rw}`, addr = C[6:0] (30_encoding.md R96, 41_twowire.md R156). -/
def addressByte (c : Byte) (rw : Bool) : Byte := c.extractLsb' 0 7 ++ BitVec.ofBool rw

/-- The value of a byte that WRBYTE sends. -/
def byteValue (v : ByteSource) (s : State) : Byte :=
  match v with
  | .al => s.al
  | .address rw => addressByte s.cl rw
  | .bufAtXi => s.buf[s.xi]

end Sys2Proof.Machine
end

