-- ==== Sys2Proof/Machine/Ops.lean ====
section
/-! DEFINITION. The shared operations: acceptance and rejection of a command word, completion and the raising of an error
(the block's only exception mechanism), the levels of the lines, and reset. -/

namespace Sys2Proof.Machine

open Host (Outcome)

/-- The outcome of one step of this machine. -/
abbrev Result := Outcome State Fault Refusal

/-- SEQ, HC, SC set to a value, and `n` steps of the free levels' counter. -/
def setSeq (q : Seq) (s : State) : State := { s with seq := q }
def setHc (n : BitVec 16) (s : State) : State := { s with hc := n }
def setSc (n : Word) (s : State) : State := { s with sc := n }
def addDraws (n : Nat) (s : State) : State := { s with draws := s.draws + n }

/-- A CMD write while BUSY: "it sets STAT.OVERRUN <- 1 and has no other effect" (60_exceptions.md R224). -/
def reject (s : State) : State := { s with stat := { s.stat with overrun := true } }

/-- The first statements of acceptance: DONE, OK, ERR and UNKNOWN are cleared, the word and CFG.TW_DELAY and SETTLE are
latched (30_encoding.md R83, 10_state.md R42). -/
def accept (op a b c : Byte) (s : State) : State :=
  { s with
    stat := { s.stat with done := false, ok := false, err := .none, unknown := false }
    opl := op
    al := a
    bl := b
    cl := c
    dlat := atLeastOne s.twDelay
    slat := s.settle }

/-- A write of a command word to CMD: rejected while BUSY, else accepted, after which `body` performs what the word asks for
in the same step (30_encoding.md R83; the order is that of 60_exceptions.md R223). -/
def issue (op a b c : Byte) (s : State) (body : State → Result) : Result :=
  if s.stat.busy then .next (reject s) else body (accept op a b c s)

/-- `complete(ok, err)`: "the single step that ends an op" (10_state.md R41). -/
def complete (ok : Bool) (err : ErrCode) (s : State) : State :=
  { s with stat := { s.stat with ok := ok, err := err, busy := false, done := true }, seq := .idle }

/-- `raise Err(code)`, taking an error: `complete(0, code)`. "No state is saved, no mode changes, control goes nowhere"
(60_exceptions.md R220), and there is no return from it (R225). -/
def raiseErr (err : ErrCode) (s : State) : State := complete false err s

/-- The start of a sequenced op: "STAT.BUSY <- 1; SEQ <- first step of the op's rule" (30_encoding.md R83). -/
def startSeq (rule : List Stmt) (s : State) : State :=
  { s with stat := { s.stat with busy := true }, seq := .run rule }

/-- The accepted command word has a reserved OP: it "completes with OK = 0, ERR = 1" (30_encoding.md R85). -/
def reservedCommand (op a b c : Byte) (s : State) : Result :=
  issue op a b c s fun s => .next (raiseErr .reservedOp s)

/-- The level of the data line: 0 if the block or another agent drives it low, else 1 (41_twowire.md R141). Where the state
does not say what the other agents do, it is a free value (log 4). -/
def sdaLevel (s : State) : Bool := s.sdaO && s.sdaEnv.getD (Config.freeSda s.draws)

/-- The level of the clock line (41_twowire.md R141). -/
def sclLevel (s : State) : Bool := s.sclO && s.sclEnv.getD (Config.freeScl s.draws)

/-- `sample()` (41_twowire.md R143). -/
def sample (s : State) : Bool := sdaLevel s

/-- `zext_32` of one bit. -/
def bitWord (b : Bool) : Word := (BitVec.ofBool b).setWidth 32

/-- Set an output register (41_twowire.md R142). -/
def setLine (l : Line) (v : Bool) (s : State) : State :=
  match l with
  | .scl => { s with sclO := v }
  | .sda => { s with sdaO := v }

/-- `x` with bit `n` set to `v`. -/
def setBitAt {w : Nat} (x : BitVec w) (n : Nat) (v : Bool) : BitVec w :=
  if v then x ||| (1#w <<< n) else x &&& ~~~(1#w <<< n)

/-- `SR[BI] <- v` (41_twowire.md R149); in the ninth bit no bit of SR is selected, and no op asks for one. -/
def setSrBit (v : Bool) (s : State) : State :=
  match s.bi with
  | .bit n => { s with sr := setBitAt s.sr n v }
  | .ack => s

/-- Reset: every piece of the block's state takes its reset value (70_reset_and_hazards.md R250). The inputs, which other
agents drive, and the model's own fields stay. An op in progress is abandoned with no `complete` (R251). -/
def resetBlock (p : Params) (s : State) : State :=
  { State.resetWith p with
    rst := s.rst
    wrExcl := s.wrExcl
    rspRx := s.rspRx
    sdaEnv := s.sdaEnv
    sclEnv := s.sclEnv
    draws := s.draws
    rdata := s.rdata
    inputs := s.inputs }

/-- The address of a register of the window: BASE + off, BASE a multiple of 64 (20_memory.md R60). An address of 32 bits is the
model's choice (DESIGN CHOICE, log 7). -/
def windowAddress (p : Params) (off : BitVec 6) : Word := p.base ++ off

/-- The offset an address selects, if it lies in the window (20_memory.md R60, R61). An address of 32 bits is the model's
choice (DESIGN CHOICE, log 7). -/
def windowOffset (p : Params) (address : Word) : Option (BitVec 6) :=
  if address.extractLsb' 6 26 = p.base then some (address.extractLsb' 0 6) else none

/-- What the block drives into the platform GPIO register where it is connected through one: SCL_O on bit GPIO_SCL_BIT and
SDA_O on bit GPIO_SDA_BIT of `g`, the other bits as they are (41_twowire.md R161). A register of 32 bits is the model's choice
(DESIGN CHOICE, log 21). -/
def gpioDriven (p : Params) (s : State) (g : Word) : Word :=
  setBitAt (setBitAt g p.gpioSclBit s.sclO) p.gpioSdaBit s.sdaO

end Sys2Proof.Machine
end

