-- ==== Sys2Proof/Machine/Bcd.lean ====
section
/-! DEFINITION. The BCD codec family (40_bcd.md): the byte codec, the time-block codec, and the four combinational ops. -/

namespace Sys2Proof.Machine

/-! ## The byte codec -/

/-- `bcd_enc(n)`: `trunc8(((n div 10) << 4) + (n mod 10))` (40_bcd.md R121). -/
def bcdEnc (n : Byte) : Byte := BitVec.ofNat 8 (n.toNat / 10 * 16 + n.toNat % 10)

/-- The digits of a BCD byte: tens in the high nibble, units in the low one (30_encoding.md R90). -/
def lowNibble (b : Byte) : Nat := (b.extractLsb' 0 4).toNat
def highNibble (b : Byte) : Nat := (b.extractLsb' 4 4).toNat

/-- `bcd_dec(b)`: `b[3:0] + 10 * b[7:4]`, for every byte; "its value is 0..165 and fits in 8 bits" (40_bcd.md R120). -/
def bcdDec (b : Byte) : Byte := BitVec.ofNat 8 (lowNibble b + 10 * highNibble b)

/-- `valid_bcd(b)` (40_bcd.md R120). -/
def validBcd (b : Byte) : Bool := decide (lowNibble b ≤ 9) && decide (highNibble b ≤ 9)

/-! ## The time-block codec -/

/-- The bounds of the fields that both `time_valid` (40_bcd.md R124) and the decode's validity flag (R126) check. -/
def fieldsInRange (t : TimeFields) : Bool :=
  decide (t.sec.toNat ≤ 59) && decide (t.min.toNat ≤ 59) && decide (t.hour.toNat ≤ 23)
    && decide (1 ≤ t.day.toNat) && decide (t.day.toNat ≤ 31) && decide (t.mon.toNat ≤ 11) && decide (t.wday.toNat ≤ 6)

/-- `time_valid(T)` (40_bcd.md R124). -/
def timeValid (t : TimeFields) : Bool :=
  fieldsInRange t && decide (Config.yearMin ≤ t.year.toNat) && decide (t.year.toNat ≤ Config.yearMax)

/-- `time_encode(T)`, "applied only when time_valid(T) holds" (40_bcd.md R125, 30_encoding.md R91). -/
def timeEncode (t : TimeFields) : Block :=
  #v[bcdEnc t.sec,
     bcdEnc t.min,
     bcdEnc t.hour ||| Config.hourMark,
     bcdEnc t.day,
     bcdEnc t.wday,
     bcdEnc (t.mon + 1),
     bcdEnc (BitVec.ofNat 8 (t.year.toNat % 100)),
     bcdEnc (BitVec.ofNat 8 ((t.year.toNat - 1900) / 100))]

/-- The hour byte without its marker bit (40_bcd.md R126). -/
def hourDigits (b : Byte) : Byte := b &&& 0x7F

/-- "A value of all zero bytes denotes 'unknown/never set'" (40_bcd.md R126). -/
def allZero (tb : Block) : Bool := tb.toList.all (· == 0)

/-- The fields that `time_decode(tb)` returns (40_bcd.md R126). -/
def decodeFieldsOf (tb : Block) : TimeFields :=
  if allZero tb then { sec := 0, min := 0, hour := 0, day := 0, mon := 0, wday := 0, year := 0 }
  else
    { sec := bcdDec tb[0]
      min := bcdDec tb[1]
      hour := bcdDec (hourDigits tb[2])
      day := bcdDec tb[3]
      wday := bcdDec tb[4]
      mon := bcdDec tb[5] - 1
      year := BitVec.ofNat 16 (1900 + 100 * (bcdDec tb[7]).toNat + (bcdDec tb[6]).toNat) }

/-- The unknown flag u of `time_decode(tb)` (40_bcd.md R126). -/
def decodeUnknown (tb : Block) : Bool := allZero tb

/-- The validity flag v of `time_decode(tb)` (40_bcd.md R126); the year is not checked. -/
def decodeValid (tb : Block) : Bool :=
  allZero tb
    || validBcd tb[0] && validBcd tb[1] && validBcd (hourDigits tb[2]) && validBcd tb[3] && validBcd tb[4]
      && validBcd tb[5] && validBcd tb[6] && validBcd tb[7] && fieldsInRange (decodeFieldsOf tb)

/-- The statements that time.dec and sf.rdtime share: TIME0, TIME1 and UNKNOWN from BUF, then complete with OK, or with
ERR_RANGE (40_bcd.md R128, 42_serial.md R195). -/
def timeDecodeAndComplete (s : State) : State :=
  let t := { s with time := decodeFieldsOf s.buf, stat := { s.stat with unknown := decodeUnknown s.buf } }
  if decodeValid s.buf then complete true .none t else raiseErr .range t

/-! ## The ops -/

/-- bcd.enc (40_bcd.md R122). -/
def execBcdEnc (a b c : Byte) (s : State) : Result :=
  issue 0x01 a b c s fun s =>
    let t := { s with res := (bcdEnc s.al).setWidth 32 }
    .next (if s.al.toNat ≤ 99 then complete true .none t else raiseErr .range t)

/-- bcd.dec (40_bcd.md R123). -/
def execBcdDec (a b c : Byte) (s : State) : Result :=
  issue 0x02 a b c s fun s =>
    let t := { s with res := (bcdDec s.al).setWidth 32 }
    .next (if validBcd s.al then complete true .none t else raiseErr .range t)

/-- time.enc (40_bcd.md R127). -/
def execTimeEnc (a b c : Byte) (s : State) : Result :=
  issue 0x03 a b c s fun s =>
    .next (if timeValid s.time then complete true .none { s with buf := timeEncode s.time } else raiseErr .range s)

/-- time.dec (40_bcd.md R128). -/
def execTimeDec (a b c : Byte) (s : State) : Result :=
  issue 0x04 a b c s fun s => .next (timeDecodeAndComplete s)

end Sys2Proof.Machine
end

