-- ==== Sys2Proof/Machine/TwoWire.lean ====
section
/-! DEFINITION. The two-wire engine family (41_twowire.md): the phase lists, and the eight ops that run them. -/

namespace Sys2Proof.Machine

/-! ## Phase lists -/

/-- `phase(line <- v)` with a constant v. -/
def phaseLit (l : Line) (v : Bool) : Stmt := .phase l (.lit v)

/-- START (41_twowire.md R144). -/
def startList : List Stmt :=
  [phaseLit .scl false, phaseLit .sda true, phaseLit .scl true, phaseLit .sda false]

/-- STOP (41_twowire.md R145). -/
def stopList : List Stmt :=
  [phaseLit .scl false, phaseLit .sda false, phaseLit .scl true, phaseLit .sda true]

/-- WRBIT(v) (41_twowire.md R146). -/
def wrbitList (v : BitSource) : List Stmt :=
  [phaseLit .scl false, .phase .sda v, phaseLit .scl true]

/-- RDBIT(), whose `sample()` is the statement `use` (41_twowire.md R146). -/
def rdbitList (use : Act) : List Stmt :=
  [phaseLit .scl false, phaseLit .sda true, phaseLit .scl true, .act use]

/-- `BI = 7 down to 0`. -/
def bitsDown : List (Fin 8) := [7, 6, 5, 4, 3, 2, 1, 0]

/-- One turn of WRBYTE's loop: `WRBIT(SR[BI])`. -/
def sendBitList (i : Fin 8) : List Stmt := .act (.setBi (.bit i)) :: wrbitList .srAtBi

/-- WRBYTE(v), most significant bit first; the acknowledge it reads goes to `ack` (41_twowire.md R148). -/
def wrbyteList (v : ByteSource) (ack : Act) : List Stmt :=
  .act (.loadSr v) :: bitsDown.flatMap sendBitList ++ .act (.setBi .ack) :: rdbitList ack

/-- One turn of RDBYTE's loop: `SR[BI] <- RDBIT()`. -/
def receiveBitList (i : Fin 8) : List Stmt := .act (.setBi (.bit i)) :: rdbitList .sampleSr

/-- RDBYTE(n), most significant bit first; n is the ninth bit the block sends (41_twowire.md R149). -/
def rdbyteList (n : BitSource) : List Stmt :=
  bitsDown.flatMap receiveBitList ++ .act (.setBi .ack) :: wrbitList n

/-- `complete(1, 0)`: "there is no acknowledge checking, no timeout and no arbitration" (41_twowire.md R147). -/
def completeOk : Stmt := .act (.complete true .none)

/-- `XI = 0 to BL - 1`. -/
def byteIndexes (len : Nat) : List (Fin 8) := (List.finRange 8).take len

/-- One turn of tw.rdblk's loop: `BUF[XI] <- RDBYTE(XI == BL - 1)` (41_twowire.md R156). -/
def receiveByteList (len : Nat) (i : Fin 8) : List Stmt :=
  .act (.setXi i) :: rdbyteList (.lit (decide (i.val + 1 = len))) ++ [.act .bufFromSr]

/-- One turn of tw.wrblk's loop: `WRBYTE(BUF[XI])` (41_twowire.md R157). -/
def sendByteList (i : Fin 8) : List Stmt := .act (.setXi i) :: wrbyteList .bufAtXi .sampleDiscard

/-! ## The rules of the ops -/

def twStartRule : List Stmt := startList ++ [completeOk]

def twStopRule : List Stmt := stopList ++ [completeOk]

def twWrbitRule : List Stmt := wrbitList .al0 ++ [completeOk]

def twRdbitRule : List Stmt := rdbitList .sampleRes ++ [completeOk]

def twWrbyteRule : List Stmt := wrbyteList .al .sampleRes ++ [completeOk]

def twRdbyteRule : List Stmt := rdbyteList .al0 ++ [.act .resFromSr, completeOk]

/-- tw.rdblk for BL = len (41_twowire.md R156). -/
def twRdblkRule (len : Nat) : List Stmt :=
  startList ++ wrbyteList (.address false) .sampleDiscard ++ wrbyteList .al .sampleDiscard
    ++ startList ++ wrbyteList (.address true) .sampleDiscard
    ++ (byteIndexes len).flatMap (receiveByteList len) ++ stopList ++ [completeOk]

/-- tw.wrblk for BL = len (41_twowire.md R157). -/
def twWrblkRule (len : Nat) : List Stmt :=
  startList ++ wrbyteList (.address false) .sampleDiscard ++ wrbyteList .al .sampleDiscard
    ++ (byteIndexes len).flatMap sendByteList ++ stopList ++ [completeOk]

/-! ## The ops -/

/-- tw.start (41_twowire.md R150). -/
def execTwStart (a b c : Byte) (s : State) : Result :=
  issue 0x10 a b c s fun s => .next (startSeq twStartRule s)

/-- tw.stop (41_twowire.md R151). -/
def execTwStop (a b c : Byte) (s : State) : Result :=
  issue 0x11 a b c s fun s => .next (startSeq twStopRule s)

/-- tw.wrbit (41_twowire.md R152). -/
def execTwWrbit (a b c : Byte) (s : State) : Result :=
  issue 0x12 a b c s fun s => .next (startSeq twWrbitRule s)

/-- tw.rdbit (41_twowire.md R153). -/
def execTwRdbit (a b c : Byte) (s : State) : Result :=
  issue 0x13 a b c s fun s => .next (startSeq twRdbitRule s)

/-- tw.wrbyte (41_twowire.md R154). -/
def execTwWrbyte (a b c : Byte) (s : State) : Result :=
  issue 0x14 a b c s fun s => .next (startSeq twWrbyteRule s)

/-- tw.rdbyte (41_twowire.md R155). -/
def execTwRdbyte (a b c : Byte) (s : State) : Result :=
  issue 0x15 a b c s fun s => .next (startSeq twRdbyteRule s)

/-- tw.rdblk (41_twowire.md R156). -/
def execTwRdblk (a b c : Byte) (s : State) : Result :=
  issue 0x16 a b c s fun s =>
    .next (if lengthOk s.bl then startSeq (twRdblkRule s.bl.toNat) s else raiseErr .badOperand s)

/-- tw.wrblk (41_twowire.md R157). -/
def execTwWrblk (a b c : Byte) (s : State) : Result :=
  issue 0x17 a b c s fun s =>
    .next (if lengthOk s.bl then startSeq (twWrblkRule s.bl.toNat) s else raiseErr .badOperand s)

end Sys2Proof.Machine
end

