-- ==== Sys2Proof/Machine/Serial.lean ====
section
/-! DEFINITION. The serial framer family (42_serial.md): the control-block helpers, the frames, and the seven ops. -/

namespace Sys2Proof.Machine

/-! ## The control block -/

/-- The bit of a block at position `8 * byte + bit`. -/
def blockBit (cb : Block) (pos : Fin 64) : Bool := cb[pos.val / 8].getLsbD (pos.val % 8)

/-- A block with the bit at position `8 * byte + bit` set to `v`. -/
def setBlockBit (cb : Block) (pos : Fin 64) (v : Bool) : Block :=
  cb.set (pos.val / 8) (setBitAt cb[pos.val / 8] (pos.val % 8) v)

/-- `get_stop(cb)` (42_serial.md R184). -/
def getStop (p : Params) (cb : Block) : Bool := blockBit cb p.ctrl.stop

/-- `with_ctrl(cb, s, l)`: "every other bit unchanged" (42_serial.md R184). -/
def withCtrl (p : Params) (cb : Block) (stop lock : Bool) : Block :=
  setBlockBit (setBlockBit (setBlockBit cb p.ctrl.stop stop) p.ctrl.lock1 lock) p.ctrl.lock2 lock

/-! ## Statements -/

/-- `RDB(blk)` (42_serial.md R187). -/
def rdbList (blk : Byte) : List Stmt := [.xfer (.readBlock blk)]

/-- `settle()` (42_serial.md R185). -/
def settleList : List Stmt := [.act .loadSc, .settle]

/-- `WRB(blk, p)`: the frame, then `if blk == 0: settle()` (42_serial.md R188). -/
def wrbList (blk : Byte) (p : Payload) : List Stmt :=
  .xfer (.writeBlock blk p) :: if blk = 0 then settleList else []

/-- `if c: complete(ok, err)`. -/
def exitIf (c : Cond) (ok : Bool) (err : ErrCode) : Stmt := .act (.exitIf c ok err)

/-! ## The rules of the ops -/

/-- sf.detect with DET = Detected or NotDetected at acceptance: "memoized, no frame" (42_serial.md R190). -/
def detectMemoRule (ok : Bool) : List Stmt := [.act (.complete ok .none)]

/-- sf.detect with DET = Init (42_serial.md R190). -/
def detectRule : List Stmt :=
  [.act .setPending, .xfer .identify, .act .resFromId, .act .compareId, .act .completeDet]

/-- sf.ident (42_serial.md R191). -/
def identRule : List Stmt := [.xfer .identify, .act .resFromId, completeOk]

/-- sf.rdblk (42_serial.md R192). -/
def sfRdblkRule (blk : Byte) : List Stmt := rdbList blk ++ [completeOk]

/-- sf.wrblk (42_serial.md R193). -/
def sfWrblkRule (blk : Byte) : List Stmt := wrbList blk .buf ++ [completeOk]

/-- sf.setstop (42_serial.md R194). -/
def setstopRule : List Stmt :=
  rdbList 0 ++ [.act .saveCsh, exitIf .stopAlready true .none] ++ wrbList 0 (.ctrl .al0) ++ [completeOk]

/-- sf.rdtime (42_serial.md R195). -/
def rdtimeRule : List Stmt := rdbList 2 ++ [.act .completeTimeDecode]

/-- sf.settime (42_serial.md R196). -/
def settimeRule : List Stmt :=
  [exitIf .timeInvalid false .range, exitIf .writeExcluded false .writeExcluded]
    ++ rdbList 0 ++ [.act .saveCsh]
    ++ wrbList 0 (.ctrl (.lit true))
    ++ [.xfer .identify, exitIf .notStopped false .notStopped]
    ++ wrbList 2 .time ++ settleList
    ++ wrbList 0 (.ctrl (.lit false))
    ++ [completeOk]

/-! ## The ops -/

/-- sf.detect (42_serial.md R190). Nothing but this op and reset changes DET, so its case is taken at acceptance (log 14).
With DET = Pending it "cannot occur", and the machine stops (log 10). -/
def execSfDetect (a b c : Byte) (s : State) : Result :=
  issue 0x20 a b c s fun s =>
    match s.stat.det with
    | .detected => .next (startSeq (detectMemoRule true) s)
    | .notDetected => .next (startSeq (detectMemoRule false) s)
    | .init => .next (startSeq detectRule s)
    | .pending => .fault .detPendingAtAcceptance

/-- sf.ident (42_serial.md R191). -/
def execSfIdent (a b c : Byte) (s : State) : Result :=
  issue 0x21 a b c s fun s => .next (startSeq identRule s)

/-- sf.rdblk (42_serial.md R192). -/
def execSfRdblk (a b c : Byte) (s : State) : Result :=
  issue 0x22 a b c s fun s =>
    .next (if blockOk s.al then startSeq (sfRdblkRule s.al) s else raiseErr .badOperand s)

/-- sf.wrblk (42_serial.md R193). -/
def execSfWrblk (a b c : Byte) (s : State) : Result :=
  issue 0x23 a b c s fun s =>
    .next (if blockOk s.al then startSeq (sfWrblkRule s.al) s else raiseErr .badOperand s)

/-- sf.setstop (42_serial.md R194). -/
def execSfSetstop (a b c : Byte) (s : State) : Result :=
  issue 0x24 a b c s fun s => .next (startSeq setstopRule s)

/-- sf.rdtime (42_serial.md R195). -/
def execSfRdtime (a b c : Byte) (s : State) : Result :=
  issue 0x25 a b c s fun s => .next (startSeq rdtimeRule s)

/-- sf.settime (42_serial.md R196). -/
def execSfSettime (a b c : Byte) (s : State) : Result :=
  issue 0x26 a b c s fun s => .next (startSeq settimeRule s)

end Sys2Proof.Machine
end

