-- ==== Sys2Proof/Machine/Dispatch.lean ====
section
/-! DEFINITION. One arm per instruction: the host writes the instruction's command word to CMD. -/

namespace Sys2Proof.Machine

open Host (Outcome)

def exec (i : Instr) (s : State) : Host.Outcome State Fault Refusal :=
  match i with
  | .bcdEnc a b c => Sys2Proof.Machine.execBcdEnc a b c s
  | .bcdDec a b c => Sys2Proof.Machine.execBcdDec a b c s
  | .timeEnc a b c => Sys2Proof.Machine.execTimeEnc a b c s
  | .timeDec a b c => Sys2Proof.Machine.execTimeDec a b c s
  | .twStart a b c => Sys2Proof.Machine.execTwStart a b c s
  | .twStop a b c => Sys2Proof.Machine.execTwStop a b c s
  | .twWrbit a b c => Sys2Proof.Machine.execTwWrbit a b c s
  | .twRdbit a b c => Sys2Proof.Machine.execTwRdbit a b c s
  | .twWrbyte a b c => Sys2Proof.Machine.execTwWrbyte a b c s
  | .twRdbyte a b c => Sys2Proof.Machine.execTwRdbyte a b c s
  | .twRdblk a b c => Sys2Proof.Machine.execTwRdblk a b c s
  | .twWrblk a b c => Sys2Proof.Machine.execTwWrblk a b c s
  | .sfDetect a b c => Sys2Proof.Machine.execSfDetect a b c s
  | .sfIdent a b c => Sys2Proof.Machine.execSfIdent a b c s
  | .sfRdblk a b c => Sys2Proof.Machine.execSfRdblk a b c s
  | .sfWrblk a b c => Sys2Proof.Machine.execSfWrblk a b c s
  | .sfSetstop a b c => Sys2Proof.Machine.execSfSetstop a b c s
  | .sfRdtime a b c => Sys2Proof.Machine.execSfRdtime a b c s
  | .sfSettime a b c => Sys2Proof.Machine.execSfSettime a b c s

end Sys2Proof.Machine
end

