-- ==== Sys2Proof/Machine/Sequencer.lean ====
section
/-! DEFINITION. The sequencer: what one block-clock cycle and one reply of the transport do to a running op
(41_twowire.md R142, 42_serial.md R181, R185). -/

namespace Sys2Proof.Machine

/-- Whether a condition of an op's rule holds. -/
def condHolds (p : Params) (c : Cond) (s : State) : Bool :=
  match c with
  | .timeInvalid => !timeValid s.time
  | .writeExcluded => s.wrExcl
  | .notStopped => !s.stat.devstop
  | .stopAlready => getStop p s.csh == s.al.getLsbD 0

/-- `id = {rx[0], rx[1]}` (42_serial.md R186). -/
def replyId (s : State) : BitVec 16 := s.rspRx[0] ++ s.rspRx[1]

/-- What a statement that takes no cycle of its own does. -/
def runAct (p : Params) (a : Act) (s : State) : State :=
  match a with
  | .loadSr v => { s with sr := byteValue v s }
  | .setBi i => { s with bi := i }
  | .setXi i => { s with xi := i }
  | .sampleSr => setSrBit (sample s) s
  | .sampleRes => { s with res := bitWord (sample s) }
  | .sampleDiscard => s
  | .resFromSr => { s with res := s.sr.setWidth 32 }
  | .bufFromSr => { s with buf := s.buf.set s.xi s.sr }
  | .resFromId => { s with res := (replyId s).setWidth 32 }
  | .saveCsh => { s with csh := s.buf }
  | .loadSc => { s with sc := s.slat }
  | .setPending => { s with stat := { s.stat with det := .pending } }
  | .compareId =>
    { s with stat := { s.stat with det := if replyId s = p.idRtc then .detected else .notDetected } }
  | .exitIf c ok err => if condHolds p c s then complete ok err s else s
  | .complete ok err => complete ok err s
  | .completeDet => complete (s.stat.det == .detected) .none s
  | .completeTimeDecode => timeDecodeAndComplete s

/-- Perform the statements that take no cycle, up to the first one that does, or to the op's `complete`, after which "no
statement is performed" (00_scope.md R10). A settle whose counter is 0 is over. -/
def drain (p : Params) : List Stmt → State → State
  | [], s => setSeq (.run []) s
  | .act a :: rest, s =>
    let t := runAct p a (setSeq (.run rest) s)
    match t.seq with
    | .idle => t
    | .run _ => drain p rest t
  | .settle :: rest, s => if s.sc = 0 then drain p rest s else setSeq (.run (.settle :: rest)) s
  | .phase l v :: rest, s => setSeq (.run (.phase l v :: rest)) s
  | .xfer f :: rest, s => setSeq (.run (.xfer f :: rest)) s

/-- One cycle of a phase. Its first cycle sets the output register and loads HC from DLAT (41_twowire.md R142, 60_exceptions.md
R228). Each cycle counts HC down by one, from D in the first to 1 in the last, after which the next statement may begin
(log 3). -/
def phaseCycle (p : Params) (l : Line) (v : BitSource) (rest : List Stmt) (s : State) : State :=
  let t := if s.hc = 0 then setHc s.dlat (setLine l (bitValue v s) s) else s
  if 1 < t.hc.toNat then setHc (t.hc - 1) t else drain p rest (setHc 0 t)

/-- The bytes of a payload (42_serial.md R193, R194, R196). -/
def payloadBytes (p : Params) (pl : Payload) (s : State) : Block :=
  match pl with
  | .buf => s.buf
  | .time => timeEncode s.time
  | .ctrl stop => withCtrl p s.csh (bitValue stop s) (!bitValue stop s)

/-- The tx bytes of a frame (30_encoding.md R95). -/
def frameTx (p : Params) (f : Frame) (s : State) : List Byte :=
  match f with
  | .identify => [p.cmdIdentify]
  | .readBlock blk => [p.cmdReadBlock, blk]
  | .writeBlock blk pl => p.cmdWriteBlock :: blk :: (payloadBytes p pl s).toList

/-- The lengths of a frame (30_encoding.md R95). -/
def frameTxlen : Frame → Fin 11
  | .identify => 1
  | .readBlock _ => 2
  | .writeBlock _ _ => 10

def frameRxlen : Frame → Fin 10
  | .identify => 3
  | .readBlock _ => 9
  | .writeBlock _ _ => 1

/-- `req_tx[0..len(tx)-1] <- tx`: the other bytes keep their values (42_serial.md R181). -/
def putTx (tx : List Byte) (old : Vector Byte 10) : Vector Byte 10 :=
  Vector.ofFn fun i : Fin 10 => tx.getD i old[i]

/-- The step that raises `req_valid` (42_serial.md R181); a WRITE_BLOCK puts its payload into BUF in that step (R183). -/
def raiseRequest (p : Params) (f : Frame) (s : State) : State :=
  { s with
    req :=
      { valid := true, port := p.rtcPort, txlen := frameTxlen f, rxlen := frameRxlen f,
        tx := putTx (frameTx p f s) s.req.tx }
    pend := true
    buf := match f with
      | .identify => s.buf
      | .readBlock _ => s.buf
      | .writeBlock _ pl => payloadBytes p pl s }

/-- `rx[rxlen-1]`, the device status byte of a reply (42_serial.md R181, 30_encoding.md R94). -/
def replyStatus (f : Frame) (rx : Vector Byte 9) : Byte :=
  match f with
  | .identify => rx[2]
  | .readBlock _ => rx[8]
  | .writeBlock _ _ => rx[0]

/-- What taking a reply writes: PEND, DEVSTAT, DEVSTOP, and BUF for a READ_BLOCK (42_serial.md R181, R183). -/
def storeReply (p : Params) (f : Frame) (rx : Vector Byte 9) (s : State) : State :=
  { s with
    rspRx := rx
    pend := false
    stat := { s.stat with devstat := replyStatus f rx, devstop := stoppedBit p (replyStatus f rx) }
    buf := match f with
      | .identify => s.buf
      | .readBlock _ => Vector.ofFn fun i : Fin 8 => rx[i.val]
      | .writeBlock _ _ => s.buf }

/-- The transport's reply: taken if the sequencer waits for one and the request was taken, else ignored
(42_serial.md R181, 70_reset_and_hazards.md R251; log 11). The op goes on in the same step to its next wait. -/
def takeReply (p : Params) (rx : Vector Byte 9) (s : State) : State :=
  if s.rst || !s.pend || s.req.valid then s
  else
    match s.seq with
    | .run (.xfer f :: rest) => drain p rest (storeReply p f rx s)
    | _ => s

/-- `req_ready`: the transport takes the request, `req_valid <- 0` (42_serial.md R181). -/
def takeRequest (s : State) : State :=
  if s.rst then s else { s with req := { s.req with valid := false } }

/-- One cycle of a running op: the statements before its first waiting one (there are some in its first cycle only), then
one cycle of a phase, the raising of a request, or one cycle of a settle. -/
def seqCycle (p : Params) (rule : List Stmt) (s : State) : State :=
  let t := drain p rule s
  match t.seq with
  | .run (.phase l v :: rest) => phaseCycle p l v rest t
  | .run (.xfer f :: _) => raiseRequest p f t
  | .run (.settle :: rest) => drain p (.settle :: rest) (setSc (t.sc - 1) t)
  | _ => t

/-- One block-clock cycle. "While PEND = 1 the sequencer holds" (10_state.md R45), and nothing moves while `rst` is
asserted (70_reset_and_hazards.md R250) or the block is idle. The free levels are drawn anew (log 4). -/
def clock (p : Params) (s : State) : State :=
  addDraws 1 <|
    if s.rst || s.pend then s
    else
      match s.seq with
      | .idle => s
      | .run rule => seqCycle p rule s

end Sys2Proof.Machine
end

