-- ==== Sys2Proof/Machine/Window.lean ====
section
/-! DEFINITION. The register window: what a host read returns and what a host write to a register other than CMD does
(10_state.md R20 to R37, 20_memory.md R60 to R69). -/

namespace Sys2Proof.Machine

/-- An access the spec gives a behaviour: 32 bits wide, at an offset with off mod 4 = 0 (20_memory.md R60, R65). -/
def accessOk (off : BitVec 6) (width : Nat) : Bool := width == 4 && off.extractLsb' 0 2 == 0

/-- BUF0 and BUF1: the lowest-numbered byte in bits 31:24 (10_state.md R33). -/
def buf0Word (b : Block) : Word := b[0] ++ b[1] ++ b[2] ++ b[3]
def buf1Word (b : Block) : Word := b[4] ++ b[5] ++ b[6] ++ b[7]

/-- BUF after a host write to BUF0, and to BUF1 (10_state.md R33). -/
def setBuf0 (v : Word) (b : Block) : Block :=
  #v[v.extractLsb' 24 8, v.extractLsb' 16 8, v.extractLsb' 8 8, v.extractLsb' 0 8, b[4], b[5], b[6], b[7]]
def setBuf1 (v : Word) (b : Block) : Block :=
  #v[b[0], b[1], b[2], b[3], v.extractLsb' 24 8, v.extractLsb' 16 8, v.extractLsb' 8 8, v.extractLsb' 0 8]

/-- TIME0 = {DAY, HOUR, MIN, SEC} and TIME1 = {YEAR, WDAY, MON} (10_state.md R31). -/
def time0Word (t : TimeFields) : Word := t.day ++ t.hour ++ t.min ++ t.sec
def time1Word (t : TimeFields) : Word := t.year ++ t.wday ++ t.mon

/-- The TIME fields after a host write to TIME0, and to TIME1 (10_state.md R31). -/
def setTime0 (v : Word) (t : TimeFields) : TimeFields :=
  { t with sec := v.extractLsb' 0 8, min := v.extractLsb' 8 8, hour := v.extractLsb' 16 8, day := v.extractLsb' 24 8 }
def setTime1 (v : Word) (t : TimeFields) : TimeFields :=
  { t with mon := v.extractLsb' 0 8, wday := v.extractLsb' 8 8, year := v.extractLsb' 16 16 }

/-- CFG (10_state.md R34). -/
def cfgWord (s : State) : Word := (0#15 ++ BitVec.ofBool s.ie ++ s.twDelay : BitVec 32)

/-- LINES (10_state.md R36). -/
def linesWord (s : State) : Word :=
  (0#27 ++ BitVec.ofBool s.wrExcl ++ BitVec.ofBool (sclLevel s) ++ BitVec.ofBool (sdaLevel s) ++ BitVec.ofBool s.sdaO
    ++ BitVec.ofBool s.sclO : BitVec 32)

/-- What a read returns; CMD and the reserved offsets read 0 (10_state.md R20, R21, 20_memory.md R61). -/
def readReg (off : BitVec 6) (s : State) : Word :=
  match off with
  | 0x04#6 => statWord s.stat
  | 0x08#6 => s.res
  | 0x10#6 => buf0Word s.buf
  | 0x14#6 => buf1Word s.buf
  | 0x18#6 => time0Word s.time
  | 0x1C#6 => time1Word s.time
  | 0x20#6 => cfgWord s
  | 0x24#6 => s.settle
  | 0x28#6 => linesWord s
  | _ => 0

/-- What a write to a register other than CMD does; the offsets not named ignore it (10_state.md R37, 20_memory.md R61). -/
def writeReg (off : BitVec 6) (v : Word) (s : State) : State :=
  match off with
  | 0x04#6 => { s with stat := clearStat v s.stat }
  | 0x10#6 => if s.stat.busy then s else { s with buf := setBuf0 v s.buf }
  | 0x14#6 => if s.stat.busy then s else { s with buf := setBuf1 v s.buf }
  | 0x18#6 => if s.stat.busy then s else { s with time := setTime0 v s.time }
  | 0x1C#6 => if s.stat.busy then s else { s with time := setTime1 v s.time }
  | 0x20#6 => { s with twDelay := v.extractLsb' 0 16, ie := v.getLsbD 16 }
  | 0x24#6 => { s with settle := v }
  | _ => s

/-- A host read: the value goes to the host, "reads of every register have no side effect" (20_memory.md R68). -/
def hostRead (off : BitVec 6) (s : State) : State := { s with rdata := readReg off s }

end Sys2Proof.Machine
end

