-- ==== Sys2Proof/Machine/Agents.lean ====
section
/-! DEFINITION. What one step of each agent does to the block (00_scope.md R6): the host's accesses, the transport, the bus
environment, the platform, and the block's clock. -/

namespace Sys2Proof.Machine

/-- A command word written to CMD (30_encoding.md R83): an instruction runs, a reserved OP completes with ERR 1. -/
def command (w : Word) (s : State) : Result :=
  match decode w with
  | .ok i => exec i s
  | .error _ => reservedCommand (opField w) (aField w) (bField w) (cField w) s

/-- A host write of 32 bits at an aligned offset. While `rst` is asserted no write has an effect
(70_reset_and_hazards.md R250). -/
def hostWrite (off : BitVec 6) (v : Word) (s : State) : Result :=
  if s.rst then .next s else if off = 0x00#6 then command v s else .next (writeReg off v s)

/-- The platform drives `rst`: "while the input rst is asserted, and in the step it is released, every piece of state takes
the value of R49" (70_reset_and_hazards.md R250). -/
def driveRst (p : Params) (level : Bool) (s : State) : State :=
  if level || s.rst then resetBlock p { s with rst := level } else s

/-- What one queued step of an agent does. -/
def perform (p : Params) (e : Input) (s : State) : Result :=
  match e with
  | .hostWrite off width v => if accessOk off width then hostWrite off v s else .refused .hostAccess
  | .hostRead off width => if accessOk off width then .next (hostRead off s) else .refused .hostAccess
  | .clock => .next (clock p s)
  | .transportTakes => .next (takeRequest s)
  | .transportReplies rx => .next (takeReply p rx s)
  | .busSda others => .next (addDraws 1 { s with sdaEnv := others })
  | .busScl others => .next (addDraws 1 { s with sclEnv := others })
  | .gpio g =>
    .next (addDraws 1 { s with sdaEnv := some (g.getLsbD p.gpioSdaBit), sclEnv := some (g.getLsbD p.gpioSclBit) })
  | .rst level => .next (driveRst p level s)

end Sys2Proof.Machine
end

