-- ==== Sys2Proof/Machine/Step.lean ====
section
/-! DEFINITION. One step: the oldest of the agents' queued steps, or, with none queued, one block-clock cycle
(00_scope.md R6, 20_memory.md R70; log 1). -/

namespace Sys2Proof.Machine

/-- One step, for given parameters. -/
def stepWith (p : Params) (s : State) : Result :=
  match s.inputs with
  | [] => .next (clock p s)
  | e :: later => perform p e { s with inputs := later }

/-- One step of the machine at hand. -/
def step (s : State) : Host.Outcome State Fault Refusal := stepWith Config.params s

/-- The state in which the very next step is the host's write of the given command word to CMD, accepted: the write is put
first among the inputs, and what would turn it away is taken out of the way, an op still running and an asserted `rst`
(log 20). After reset nothing but the inputs differs. -/
def State.withFetchWord (s : State) (nbits w : Nat) : State :=
  { s with
    rst := false
    stat := { s.stat with busy := false }
    seq := .idle
    pend := false
    hc := 0
    sc := 0
    req := { s.req with valid := false }
    inputs := .hostWrite 0x00 4 (BitVec.ofNat 32 (w % 2 ^ nbits)) :: s.inputs }

end Sys2Proof.Machine
end

