-- ==== Sys2Proof/Safety.lean ====
section
/-! DEFINITION. The terms claims are stated in: the machine's invariant, a block ready for a command, runs, and what a run
shows at the block's pins. -/

namespace Sys2Proof.Machine

/-! ## The sequencer's position -/

/-- BUSY as SEQ gives it: "STAT.BUSY = 1 exactly when SEQ != Idle" (10_state.md R40). -/
def Seq.running : Seq → Bool
  | .idle => false
  | .run _ => true

/-- The statements still to be performed. -/
def Seq.todo : Seq → List Stmt
  | .idle => []
  | .run rest => rest

/-- The sequencer stands at a frame, at a phase, at a settle. -/
def Seq.atXfer : Seq → Bool
  | .run (.xfer _ :: _) => true
  | _ => false

def Seq.atPhase : Seq → Bool
  | .run (.phase _ _ :: _) => true
  | _ => false

def Seq.atSettle : Seq → Bool
  | .run (.settle :: _) => true
  | _ => false

/-- The rules that an accepted word with these fields can have started (30_encoding.md R82, R86). -/
def rulesOf (op a b : Byte) : List (List Stmt) :=
  match op with
  | 0x10#8 => [twStartRule]
  | 0x11#8 => [twStopRule]
  | 0x12#8 => [twWrbitRule]
  | 0x13#8 => [twRdbitRule]
  | 0x14#8 => [twWrbyteRule]
  | 0x15#8 => [twRdbyteRule]
  | 0x16#8 => if lengthOk b then [twRdblkRule b.toNat] else []
  | 0x17#8 => if lengthOk b then [twWrblkRule b.toNat] else []
  | 0x20#8 => [detectMemoRule true, detectMemoRule false, detectRule]
  | 0x21#8 => [identRule]
  | 0x22#8 => if blockOk a then [sfRdblkRule a] else []
  | 0x23#8 => if blockOk a then [sfWrblkRule a] else []
  | 0x24#8 => [setstopRule]
  | 0x25#8 => [rdtimeRule]
  | 0x26#8 => [settimeRule]
  | _ => []

/-! ## The invariant -/

/-- What every reachable state of the block satisfies. -/
structure State.Inv (p : Params) (s : State) : Prop where
  /-- "STAT.BUSY = 1 exactly when SEQ != Idle" (10_state.md R40). -/
  busy_running : s.stat.busy = s.seq.running
  /-- SEQ is "a position inside the sequence" of the op that OPL, AL and BL name (10_state.md R40, R42). -/
  position : s.seq.running = true → s.seq.todo ≠ [] ∧ ∃ rule ∈ rulesOf s.opl s.al s.bl, s.seq.todo <:+ rule
  /-- PEND is held only at a frame, and `req_valid` only while PEND (10_state.md R45, 42_serial.md R181). -/
  pend_xfer : s.pend = true → s.seq.atXfer = true
  valid_pend : s.req.valid = true → s.pend = true
  /-- DLAT is at least 1, and HC, the cycles left of a phase that has begun, is below it and is 0 outside one (10_state.md R42,
  41_twowire.md R142, 60_exceptions.md R228). -/
  dlat_pos : 1 ≤ s.dlat.toNat
  hc_lt : s.hc.toNat < s.dlat.toNat
  hc_phase : s.hc ≠ 0 → s.seq.atPhase = true
  /-- SC counts exactly while the sequencer stands at a settle (10_state.md R47). -/
  sc_settle : s.sc ≠ 0 ↔ s.seq.atSettle = true
  /-- "Pending is held only while this op is BUSY" (42_serial.md R190): from the statement that sets it, which finds Init, to
  the comparison that ends it. -/
  det_pending : s.stat.det = .pending ↔ Stmt.act .compareId ∈ s.seq.todo ∧ Stmt.act .setPending ∉ s.seq.todo
  det_init : Stmt.act .setPending ∈ s.seq.todo → s.stat.det = .init
  /-- DEVSTOP is the stopped bit of DEVSTAT (10_state.md R29). -/
  devstop_bit : s.stat.devstop = stoppedBit p s.stat.devstat
  /-- `req_port` is "always RTC_PORT" (42_serial.md R180). -/
  port_fixed : s.req.port = p.rtcPort
  /-- While `rst` is asserted every piece of state has its reset value (70_reset_and_hazards.md R250). -/
  rst_reset : s.rst = true → s = resetBlock p s

/-- A block that accepts the next command word: it meets the invariant, no op runs, and `rst` is released. -/
structure State.Ready (s : State) : Prop where
  inv : s.Inv Config.params
  notBusy : s.stat.busy = false
  notReset : s.rst = false

/-! ## Runs -/

/-- `n` steps of the machine lead from `s` to `t`. -/
def runsTo (n : Nat) (s t : State) : Prop := Host.Core.run Sys2Proof.core n s = .next t

/-- The frames the block sends in the first `n` steps from `s`: the first `req_txlen` bytes of `req_tx` at every step that
raises `req_valid` (42_serial.md R180, R181). -/
def framesSent : Nat → State → List (List Byte)
  | 0, _ => []
  | n + 1, s =>
    match step s with
    | .next t =>
      (if t.req.valid && !s.req.valid then [t.req.tx.toList.take t.req.txlen] else []) ++ framesSent n t
    | .fault _ => []
    | .refused _ => []

/-- One frame answered at once: the sequencer's step that raises the request, and the transport's two steps. -/
def answered (rx : Vector Byte 9) : List Input := [.clock, .transportTakes, .transportReplies rx]

/-- `n` cycles of the block clock. -/
def cycles (n : Nat) : List Input := List.replicate n .clock

/-- D, the length in cycles of every phase of an op accepted in `s`: `max(CFG.TW_DELAY, 1)` (10_state.md R42). -/
def phaseLength (s : State) : Nat := max s.twDelay.toNat 1

/-- The level the bus environment gives the released data line in the `k`-th clock cycle from `s` on, where nothing but the
block's clock steps: as the state says, or free (41_twowire.md R143; log 4). -/
def drawnLevel (s : State) (k : Nat) : Bool := s.sdaEnv.getD (Config.freeSda (s.draws + (k - 1)))

/-- `s` with the fields of an accepted word and the delays latched: OPL, AL, BL, CL, DLAT = max(CFG.TW_DELAY, 1) and
SLAT = SETTLE (10_state.md R42). -/
def latched (op a b c : Byte) (s : State) : State :=
  { s with opl := op, al := a, bl := b, cl := c, dlat := if s.twDelay = 0 then 1 else s.twDelay, slat := s.settle }

/-- STAT after an op accepted in `s` has completed with the given results (30_encoding.md R83, 10_state.md R41). -/
def completedStat (s : State) (ok : Bool) (err : ErrCode) : Stat :=
  { s.stat with busy := false, done := true, ok := ok, err := err, unknown := false }

/-- The same for an op that took a reply with the status byte `status`: DEVSTAT is the byte and DEVSTOP its bit 0
(10_state.md R29, 30_encoding.md R94). -/
def repliedStat (s : State) (ok : Bool) (err : ErrCode) (status : Byte) : Stat :=
  { completedStat s ok err with devstat := status, devstop := status.getLsbD 0 }

/-! ## What the two-wire lines show -/

/-- What is sent on the two-wire bus: a start condition, a stop condition, or one bit (41_twowire.md R144 to R146). -/
inductive WireItem where
  | start
  | stop
  | bit (b : Bool)
  deriving DecidableEq, Repr

/-- The outputs (SCL_O, SDA_O) in each phase of an item, SDA_O being `sda` before it (41_twowire.md R144 to R146). -/
def WireItem.levels (sda : Bool) : WireItem → List (Bool × Bool)
  | .start => [(false, sda), (false, true), (true, true), (true, false)]
  | .stop => [(false, sda), (false, false), (true, false), (true, true)]
  | .bit b => [(false, sda), (false, b), (true, b)]

/-- SDA_O after an item. -/
def WireItem.leaves : WireItem → Bool
  | .start => false
  | .stop => true
  | .bit b => b

/-- The outputs in each phase of a transfer. -/
def waveform : Bool → List WireItem → List (Bool × Bool)
  | _, [] => []
  | sda, x :: rest => x.levels sda ++ waveform x.leaves rest

/-- The eight bits of a byte, most significant first (20_memory.md R67). -/
def byteItems (v : Byte) : List WireItem :=
  [.bit (v.getLsbD 7), .bit (v.getLsbD 6), .bit (v.getLsbD 5), .bit (v.getLsbD 4),
   .bit (v.getLsbD 3), .bit (v.getLsbD 2), .bit (v.getLsbD 1), .bit (v.getLsbD 0)]

/-- A byte sent by the block, with the data line released in the ninth bit for the acknowledge (41_twowire.md R148). -/
def sentByte (v : Byte) : List WireItem := byteItems v ++ [.bit true]

/-- A byte received by the block, the data line released for its eight bits and `nack` sent in the ninth
(41_twowire.md R149). -/
def receivedByte (nack : Bool) : List WireItem := byteItems 0xFF ++ [.bit nack]

/-- From `t` on, for each entry k of the list, the outputs (SCL_O, SDA_O) have that entry's values in each of the cycles
`k * d + 1` to `(k + 1) * d` (41_twowire.md R142). -/
def showsPhases (t : State) (d : Nat) (levels : List (Bool × Bool)) : Prop :=
  ∀ (k : Nat) (h : k < levels.length) (n : Nat), k * d < n → n ≤ (k + 1) * d →
    ∃ u, runsTo n t u ∧ (u.sclO, u.sdaO) = levels[k]

/-! ## Calendar and BCD values, on numbers -/

/-- The two BCD digits of a number from 0 to 99 (30_encoding.md R90). -/
def digits (n : Nat) : Byte := BitVec.ofNat 8 (16 * (n / 10) + n % 10)

/-- The value the decode formula gives a byte: `(byte & 0x0F) + (byte >> 4) * 10` (40_bcd.md R120). -/
def digitsValue (b : Byte) : Nat := b.toNat % 16 + b.toNat / 16 * 10

/-- Both digits of a byte are 0 to 9 (40_bcd.md R120). -/
def areDigits (b : Byte) : Bool := decide (b.toNat % 16 ≤ 9 ∧ b.toNat / 16 ≤ 9)

/-- The ranges of 40_bcd.md R124 without the year. -/
def TimeFields.inRange (t : TimeFields) : Bool :=
  decide (t.sec.toNat ≤ 59 ∧ t.min.toNat ≤ 59 ∧ t.hour.toNat ≤ 23 ∧ 1 ≤ t.day.toNat ∧ t.day.toNat ≤ 31 ∧ t.mon.toNat ≤ 11
    ∧ t.wday.toNat ≤ 6)

/-- The ranges of 40_bcd.md R124. -/
def TimeFields.legal (t : TimeFields) : Bool := t.inRange && decide (1996 ≤ t.year.toNat ∧ t.year.toNat ≤ 2095)

end Sys2Proof.Machine
end

