-- ==== Sys2Proof/Certificates/Slice0/Obligations.lean ====
section
/-! DEFINITION. The statements for the provers. Each is listed in OBLIGATIONS.json. In the equations of next states the fields
`inputs`, `draws` and `rdata` are the model's own (logs 1, 4 and 18), and every other field is the spec's. -/

open Sys2Proof Sys2Proof.Machine

/-! ## Encoding -/

/-- The decoder and the encoder agree in both directions on every instruction and every word, and exactly the words whose OP
is reserved are rejected (30_encoding.md R80, R82, R85). -/
def Obligations.DecodeEncodeAgree : Prop :=
  (∀ i : Instr, decode (encode i) = .ok i) ∧
  (∀ (w : Word) (i : Instr), decode w = .ok i → encode i = w) ∧
  (∀ w : Word, (∃ e, decode w = .error e) ↔
    (w.toNat % 256 = 0 ∨ (0x05 ≤ w.toNat % 256 ∧ w.toNat % 256 ≤ 0x0F) ∨
      (0x18 ≤ w.toNat % 256 ∧ w.toNat % 256 ≤ 0x1F) ∨ 0x27 ≤ w.toNat % 256))

/-- The opcode map: a word {C, B, A, OP} with each listed OP is that instruction with the operands A, B, C, and a word with any
other OP is no instruction (30_encoding.md R82). -/
def Obligations.OpcodeMap : Prop :=
  (∀ a b c : Byte, decode (c ++ b ++ a ++ 0x01#8) = .ok (.bcdEnc a b c)) ∧
  (∀ a b c : Byte, decode (c ++ b ++ a ++ 0x02#8) = .ok (.bcdDec a b c)) ∧
  (∀ a b c : Byte, decode (c ++ b ++ a ++ 0x03#8) = .ok (.timeEnc a b c)) ∧
  (∀ a b c : Byte, decode (c ++ b ++ a ++ 0x04#8) = .ok (.timeDec a b c)) ∧
  (∀ a b c : Byte, decode (c ++ b ++ a ++ 0x10#8) = .ok (.twStart a b c)) ∧
  (∀ a b c : Byte, decode (c ++ b ++ a ++ 0x11#8) = .ok (.twStop a b c)) ∧
  (∀ a b c : Byte, decode (c ++ b ++ a ++ 0x12#8) = .ok (.twWrbit a b c)) ∧
  (∀ a b c : Byte, decode (c ++ b ++ a ++ 0x13#8) = .ok (.twRdbit a b c)) ∧
  (∀ a b c : Byte, decode (c ++ b ++ a ++ 0x14#8) = .ok (.twWrbyte a b c)) ∧
  (∀ a b c : Byte, decode (c ++ b ++ a ++ 0x15#8) = .ok (.twRdbyte a b c)) ∧
  (∀ a b c : Byte, decode (c ++ b ++ a ++ 0x16#8) = .ok (.twRdblk a b c)) ∧
  (∀ a b c : Byte, decode (c ++ b ++ a ++ 0x17#8) = .ok (.twWrblk a b c)) ∧
  (∀ a b c : Byte, decode (c ++ b ++ a ++ 0x20#8) = .ok (.sfDetect a b c)) ∧
  (∀ a b c : Byte, decode (c ++ b ++ a ++ 0x21#8) = .ok (.sfIdent a b c)) ∧
  (∀ a b c : Byte, decode (c ++ b ++ a ++ 0x22#8) = .ok (.sfRdblk a b c)) ∧
  (∀ a b c : Byte, decode (c ++ b ++ a ++ 0x23#8) = .ok (.sfWrblk a b c)) ∧
  (∀ a b c : Byte, decode (c ++ b ++ a ++ 0x24#8) = .ok (.sfSetstop a b c)) ∧
  (∀ a b c : Byte, decode (c ++ b ++ a ++ 0x25#8) = .ok (.sfRdtime a b c)) ∧
  (∀ a b c : Byte, decode (c ++ b ++ a ++ 0x26#8) = .ok (.sfSettime a b c)) ∧
  (∀ op a b c : Byte, op ∉ ([0x01, 0x02, 0x03, 0x04, 0x10, 0x11, 0x12, 0x13, 0x14, 0x15, 0x16, 0x17, 0x20, 0x21, 0x22, 0x23, 0x24, 0x25, 0x26] : List Byte) →
    decode (c ++ b ++ a ++ op) = .error (.reservedOp op))

/-- The assembler: each mnemonic with three operands 0 to 255 is the word {C, B, A, OP} of its opcode, an omitted operand is 0,
an operand above 255 or a fourth operand has no word, and each pseudo-instruction is the word of its expansion
(30_encoding.md R82, R87, R88; `wait` is the host's polling loop). -/
def Obligations.AssemblerWords : Prop :=
  (∀ a b c : Byte, assemble "bcd.enc" [a.toNat, b.toNat, c.toNat] = some (c ++ b ++ a ++ 0x01#8)) ∧
  (∀ a b c : Byte, assemble "bcd.dec" [a.toNat, b.toNat, c.toNat] = some (c ++ b ++ a ++ 0x02#8)) ∧
  (∀ a b c : Byte, assemble "time.enc" [a.toNat, b.toNat, c.toNat] = some (c ++ b ++ a ++ 0x03#8)) ∧
  (∀ a b c : Byte, assemble "time.dec" [a.toNat, b.toNat, c.toNat] = some (c ++ b ++ a ++ 0x04#8)) ∧
  (∀ a b c : Byte, assemble "tw.start" [a.toNat, b.toNat, c.toNat] = some (c ++ b ++ a ++ 0x10#8)) ∧
  (∀ a b c : Byte, assemble "tw.stop" [a.toNat, b.toNat, c.toNat] = some (c ++ b ++ a ++ 0x11#8)) ∧
  (∀ a b c : Byte, assemble "tw.wrbit" [a.toNat, b.toNat, c.toNat] = some (c ++ b ++ a ++ 0x12#8)) ∧
  (∀ a b c : Byte, assemble "tw.rdbit" [a.toNat, b.toNat, c.toNat] = some (c ++ b ++ a ++ 0x13#8)) ∧
  (∀ a b c : Byte, assemble "tw.wrbyte" [a.toNat, b.toNat, c.toNat] = some (c ++ b ++ a ++ 0x14#8)) ∧
  (∀ a b c : Byte, assemble "tw.rdbyte" [a.toNat, b.toNat, c.toNat] = some (c ++ b ++ a ++ 0x15#8)) ∧
  (∀ a b c : Byte, assemble "tw.rdblk" [a.toNat, b.toNat, c.toNat] = some (c ++ b ++ a ++ 0x16#8)) ∧
  (∀ a b c : Byte, assemble "tw.wrblk" [a.toNat, b.toNat, c.toNat] = some (c ++ b ++ a ++ 0x17#8)) ∧
  (∀ a b c : Byte, assemble "sf.detect" [a.toNat, b.toNat, c.toNat] = some (c ++ b ++ a ++ 0x20#8)) ∧
  (∀ a b c : Byte, assemble "sf.ident" [a.toNat, b.toNat, c.toNat] = some (c ++ b ++ a ++ 0x21#8)) ∧
  (∀ a b c : Byte, assemble "sf.rdblk" [a.toNat, b.toNat, c.toNat] = some (c ++ b ++ a ++ 0x22#8)) ∧
  (∀ a b c : Byte, assemble "sf.wrblk" [a.toNat, b.toNat, c.toNat] = some (c ++ b ++ a ++ 0x23#8)) ∧
  (∀ a b c : Byte, assemble "sf.setstop" [a.toNat, b.toNat, c.toNat] = some (c ++ b ++ a ++ 0x24#8)) ∧
  (∀ a b c : Byte, assemble "sf.rdtime" [a.toNat, b.toNat, c.toNat] = some (c ++ b ++ a ++ 0x25#8)) ∧
  (∀ a b c : Byte, assemble "sf.settime" [a.toNat, b.toNat, c.toNat] = some (c ++ b ++ a ++ 0x26#8)) ∧
  (∀ m ∈ ["bcd.enc", "bcd.dec", "time.enc", "time.dec", "tw.start", "tw.stop", "tw.wrbit",
      "tw.rdbit", "tw.wrbyte", "tw.rdbyte", "tw.rdblk", "tw.wrblk", "sf.detect", "sf.ident",
      "sf.rdblk", "sf.wrblk", "sf.setstop", "sf.rdtime", "sf.settime"],
    (∀ a b : Byte, assemble m [] = assemble m [0, 0, 0] ∧ assemble m [a.toNat] = assemble m [a.toNat, 0, 0] ∧
      assemble m [a.toNat, b.toNat] = assemble m [a.toNat, b.toNat, 0]) ∧
    (∀ operands : List Nat, 3 < operands.length ∨ (∃ n ∈ operands, 255 < n) → assemble m operands = none)) ∧
  assemble "tw.ack" [] = some 0x00000012 ∧ assemble "tw.nack" [] = some 0x00000112 ∧
  assemble "tw.getack" [] = some 0x00000013 ∧ assemble "sf.stop" [] = some 0x00000124 ∧
  assemble "sf.start" [] = some 0x00000024 ∧ assemble "sf.rdctrl" [] = some 0x00000022 ∧
  assemble "sf.wrctrl" [] = some 0x00000023

/-- Words written out in the spec decode to the instructions they stand for (30_encoding.md R87; 40_bcd.md R122, R123, R127,
R128; 41_twowire.md R150 to R157; 42_serial.md R190 to R196). -/
def Obligations.SpecWordsDecode : Prop :=
  decode 0x00002A01 = .ok (.bcdEnc 42 0 0) ∧
  decode 0x00005902 = .ok (.bcdDec 0x59 0 0) ∧
  decode 0x00000003 = .ok (.timeEnc 0 0 0) ∧
  decode 0x00000010 = .ok (.twStart 0 0 0) ∧
  decode 0x50080016 = .ok (.twRdblk 0 8 0x50) ∧
  decode 0x68081017 = .ok (.twWrblk 0x10 8 0x68) ∧
  decode 0x00000020 = .ok (.sfDetect 0 0 0) ∧
  decode 0x00000223 = .ok (.sfWrblk 2 0 0) ∧
  decode 0x00000124 = .ok (.sfSetstop 1 0 0)

/-- A step whose oldest input is a write of a decodable word to CMD is `exec` of the decoded instruction (the model's own
step: log 1). -/
def Obligations.StepRunsDecoded : Prop :=
  ∀ (s : State) (w : Word) (i : Instr) (later : List Input),
    s.inputs = .hostWrite 0x00 4 w :: later → s.rst = false → decode w = .ok i →
    step s = exec i { s with inputs := later }

/-! ## Acceptance -/

/-- An accepted word of a sequenced op clears DONE, OK, ERR and UNKNOWN, latches its fields and the delays, sets BUSY, and
puts SEQ at the beginning of the op's rule; DEVSTAT, DEVSTOP, DET and OVERRUN, and everything else, stay
(30_encoding.md R83, 10_state.md R42). The operand checks of R86 are hypotheses here; what a failed one does is
`BadOperandCompletesWithError`. Two readings are the model's own: that sf.detect's case on DET is taken at acceptance, so that
SEQ starts at the statements of that case (log 14), and that sf.settime is started, with BUSY = 1, before its range and
exclusion checks (log 13). -/
def Obligations.SequencedOpsStart : Prop :=
  ∀ (a b c : Byte) (s : State), s.stat.busy = false →
    let started (op : Byte) (rule : List Stmt) : State :=
      { latched op a b c s with
        stat := { s.stat with busy := true, done := false, ok := false, err := .none, unknown := false }
        seq := .run rule }
    exec (.twStart a b c) s = .next (started 0x10 twStartRule) ∧
    exec (.twStop a b c) s = .next (started 0x11 twStopRule) ∧
    exec (.twWrbit a b c) s = .next (started 0x12 twWrbitRule) ∧
    exec (.twRdbit a b c) s = .next (started 0x13 twRdbitRule) ∧
    exec (.twWrbyte a b c) s = .next (started 0x14 twWrbyteRule) ∧
    exec (.twRdbyte a b c) s = .next (started 0x15 twRdbyteRule) ∧
    (1 ≤ b.toNat → b.toNat ≤ 8 → exec (.twRdblk a b c) s = .next (started 0x16 (twRdblkRule b.toNat))) ∧
    (1 ≤ b.toNat → b.toNat ≤ 8 → exec (.twWrblk a b c) s = .next (started 0x17 (twWrblkRule b.toNat))) ∧
    (s.stat.det = .init → exec (.sfDetect a b c) s = .next (started 0x20 detectRule)) ∧
    (s.stat.det = .detected → exec (.sfDetect a b c) s = .next (started 0x20 (detectMemoRule true))) ∧
    (s.stat.det = .notDetected → exec (.sfDetect a b c) s = .next (started 0x20 (detectMemoRule false))) ∧
    exec (.sfIdent a b c) s = .next (started 0x21 identRule) ∧
    (a.toNat ≤ 2 → exec (.sfRdblk a b c) s = .next (started 0x22 (sfRdblkRule a))) ∧
    (a.toNat ≤ 2 → exec (.sfWrblk a b c) s = .next (started 0x23 (sfWrblkRule a))) ∧
    exec (.sfSetstop a b c) s = .next (started 0x24 setstopRule) ∧
    exec (.sfRdtime a b c) s = .next (started 0x25 rdtimeRule) ∧
    exec (.sfSettime a b c) s = .next (started 0x26 settimeRule)

/-- A command word written while BUSY sets OVERRUN and has no other effect, whatever the word: an instruction or a reserved
opcode (60_exceptions.md R224, 10_state.md R21). -/
def Obligations.BusyRejectsCommand : Prop :=
  ∀ s : State, s.stat.busy = true →
    (∀ i : Instr, exec i s = .next { s with stat := { s.stat with overrun := true } }) ∧
    (∀ (w : Word) (later : List Input), s.inputs = .hostWrite 0x00 4 w :: later → s.rst = false →
      step s = .next { s with stat := { s.stat with overrun := true }, inputs := later })

/-- An accepted word with a reserved OP completes with OK = 0 and ERR = 1; but for STAT and the latches nothing changes
(30_encoding.md R85, R83). That the latches are written first is the model's reading (log 22). -/
def Obligations.ReservedOpCompletesWithError : Prop :=
  ∀ (op a b c : Byte) (s : State) (later : List Input),
    s.inputs = .hostWrite 0x00 4 (c ++ b ++ a ++ op) :: later → s.rst = false → s.stat.busy = false →
    (op.toNat = 0 ∨ (0x05 ≤ op.toNat ∧ op.toNat ≤ 0x0F) ∨ (0x18 ≤ op.toNat ∧ op.toNat ≤ 0x1F) ∨ 0x27 ≤ op.toNat) →
    step s = .next
      { latched op a b c s with stat := completedStat s false .reservedOp, seq := .idle, inputs := later }

/-- An operand check that fails completes the op with OK = 0 and ERR = 2, "and no other effect" (30_encoding.md R86, R83).
That the latches are written first is the model's reading (log 22). -/
def Obligations.BadOperandCompletesWithError : Prop :=
  ∀ (a b c : Byte) (s : State), s.stat.busy = false →
    let failed (op : Byte) : State := { latched op a b c s with stat := completedStat s false .badOperand, seq := .idle }
    (b.toNat = 0 ∨ 8 < b.toNat → exec (.twRdblk a b c) s = .next (failed 0x16)) ∧
    (b.toNat = 0 ∨ 8 < b.toNat → exec (.twWrblk a b c) s = .next (failed 0x17)) ∧
    (2 < a.toNat → exec (.sfRdblk a b c) s = .next (failed 0x22)) ∧
    (2 < a.toNat → exec (.sfWrblk a b c) s = .next (failed 0x23))

/-! ## The BCD family -/

/-- bcd.enc, OP 0x01 (B and C ignored): RES is `trunc8(((n div 10) << 4) + (n mod 10))`, OK = 1 for n <= 99, else ERR_RANGE; nothing else changes
(40_bcd.md R121, R122, 30_encoding.md R84). -/
def Obligations.BcdEncResult : Prop :=
  (∀ a b c : Byte, encode (.bcdEnc a b c) = c ++ b ++ a ++ 0x01#8) ∧
  ∀ (a b c : Byte) (s : State), s.stat.busy = false →
    exec (.bcdEnc a b c) s = .next
      { latched 0x01 a b c s with
        seq := .idle
        res := BitVec.ofNat 32 ((a.toNat / 10 * 16 + a.toNat % 10) % 256)
        stat := if a.toNat ≤ 99 then completedStat s true .none else completedStat s false .range }

/-- bcd.dec, OP 0x02 (B and C ignored): RES is the formula's value for every byte, OK = 1 if both digits are 0 to 9, else ERR_RANGE; nothing else changes
(40_bcd.md R120, R123). -/
def Obligations.BcdDecResult : Prop :=
  (∀ a b c : Byte, encode (.bcdDec a b c) = c ++ b ++ a ++ 0x02#8) ∧
  ∀ (a b c : Byte) (s : State), s.stat.busy = false →
    exec (.bcdDec a b c) s = .next
      { latched 0x02 a b c s with
        seq := .idle
        res := BitVec.ofNat 32 (digitsValue a)
        stat := if areDigits a = true then completedStat s true .none else completedStat s false .range }

/-- time.enc, OP 0x03 (A, B and C ignored): with every field in range BUF takes the time block byte by byte and OK = 1; otherwise ERR_RANGE and BUF stays;
nothing else changes (40_bcd.md R124, R125, R127, 30_encoding.md R91). -/
def Obligations.TimeEncResult : Prop :=
  (∀ a b c : Byte, encode (.timeEnc a b c) = c ++ b ++ a ++ 0x03#8) ∧
  ∀ (a b c : Byte) (s : State), s.stat.busy = false →
    (s.time.legal = true → exec (.timeEnc a b c) s = .next
      { latched 0x03 a b c s with
        seq := .idle
        buf := #v[digits s.time.sec.toNat, digits s.time.min.toNat, digits s.time.hour.toNat ||| 0x80,
          digits s.time.day.toNat, digits s.time.wday.toNat, digits (s.time.mon.toNat + 1),
          digits (s.time.year.toNat % 100), digits ((s.time.year.toNat - 1900) / 100)]
        stat := completedStat s true .none }) ∧
    (s.time.legal = false → exec (.timeEnc a b c) s = .next
      { latched 0x03 a b c s with seq := .idle, stat := completedStat s false .range })

/-- time.dec, OP 0x04 (A, B and C ignored): an all-zero BUF gives fields 0, UNKNOWN = 1 and OK = 1; any other BUF gives the fields by the formulas,
UNKNOWN = 0, and OK = 1 exactly if every byte is BCD (the hour byte without its marker bit) and every field but the year is in
range, else ERR_RANGE; nothing else changes (40_bcd.md R126, R128). -/
def Obligations.TimeDecResult : Prop :=
  (∀ a b c : Byte, encode (.timeDec a b c) = c ++ b ++ a ++ 0x04#8) ∧
  ∀ (a b c : Byte) (s : State), s.stat.busy = false →
    (s.buf = Vector.replicate 8 0x00 → exec (.timeDec a b c) s = .next
      { latched 0x04 a b c s with
        seq := .idle
        time := { sec := 0, min := 0, hour := 0, day := 0, mon := 0, wday := 0, year := 0 }
        stat := { completedStat s true .none with unknown := true } }) ∧
    (s.buf ≠ Vector.replicate 8 0x00 →
      let t : TimeFields :=
        { sec := BitVec.ofNat 8 (digitsValue s.buf[0])
          min := BitVec.ofNat 8 (digitsValue s.buf[1])
          hour := BitVec.ofNat 8 (digitsValue (s.buf[2] &&& 0x7F))
          day := BitVec.ofNat 8 (digitsValue s.buf[3])
          wday := BitVec.ofNat 8 (digitsValue s.buf[4])
          mon := BitVec.ofNat 8 (digitsValue s.buf[5] + 255)
          year := BitVec.ofNat 16 (1900 + 100 * digitsValue s.buf[7] + digitsValue s.buf[6]) }
      let valid : Bool :=
        areDigits s.buf[0] && areDigits s.buf[1] && areDigits (s.buf[2] &&& 0x7F) && areDigits s.buf[3] &&
          areDigits s.buf[4] && areDigits s.buf[5] && areDigits s.buf[6] && areDigits s.buf[7] && t.inRange
      (valid = true → exec (.timeDec a b c) s = .next
        { latched 0x04 a b c s with seq := .idle, time := t, stat := completedStat s true .none }) ∧
      (valid = false → exec (.timeDec a b c) s = .next
        { latched 0x04 a b c s with seq := .idle, time := t, stat := completedStat s false .range }))

/-- The laws of the codec: decoding an encoded 0 to 99 gives it back, encoding a decoded BCD byte gives it back, and decoding
an encoded legal time gives the same fields, known and valid (40_bcd.md R129). -/
def Obligations.CodecRoundTrips : Prop :=
  (∀ n : Byte, n.toNat ≤ 99 → bcdDec (bcdEnc n) = n) ∧
  (∀ b : Byte, validBcd b = true → bcdEnc (bcdDec b) = b) ∧
  (∀ t : TimeFields, timeValid t = true →
    decodeFieldsOf (timeEncode t) = t ∧ decodeUnknown (timeEncode t) = false ∧ decodeValid (timeEncode t) = true)

/-! ## The two-wire family -/

/-- tw.start, OP 0x10 (A, B and C ignored): from a ready block the outputs show the START phases, and after 4 * D cycles the op has completed with OK = 1,
SCL_O = 1, SDA_O = 0; nothing else changes (41_twowire.md R144, R150). -/
def Obligations.TwStartRuns : Prop :=
  (∀ a b c : Byte, encode (.twStart a b c) = c ++ b ++ a ++ 0x10#8) ∧
  ∀ (a b c : Byte) (s : State), s.Ready → s.inputs = [] →
    ∃ t u, exec (.twStart a b c) s = .next t ∧ t.stat.busy = true ∧
      showsPhases t (phaseLength s) (waveform s.sdaO [.start]) ∧
      runsTo (4 * phaseLength s) t u ∧
      u = { latched 0x10 a b c s with
          stat := completedStat s true .none
          sclO := true
          sdaO := false
          draws := u.draws }

/-- tw.stop, OP 0x11 (A, B and C ignored): from a ready block the outputs show the STOP phases, and after 4 * D cycles the op has completed with OK = 1 and
both lines released; nothing else changes (41_twowire.md R145, R151). -/
def Obligations.TwStopRuns : Prop :=
  (∀ a b c : Byte, encode (.twStop a b c) = c ++ b ++ a ++ 0x11#8) ∧
  ∀ (a b c : Byte) (s : State), s.Ready → s.inputs = [] →
    ∃ t u, exec (.twStop a b c) s = .next t ∧ t.stat.busy = true ∧
      showsPhases t (phaseLength s) (waveform s.sdaO [.stop]) ∧
      runsTo (4 * phaseLength s) t u ∧
      u = { latched 0x11 a b c s with
          stat := completedStat s true .none
          sclO := true
          sdaO := true
          draws := u.draws }

/-- tw.wrbit, OP 0x12 (A[7:1], B and C ignored): from a ready block the outputs show WRBIT(A[0]), and after 3 * D cycles the op has completed with OK = 1,
SCL_O = 1, SDA_O = A[0]; nothing else changes (41_twowire.md R146, R152). -/
def Obligations.TwWrbitRuns : Prop :=
  (∀ a b c : Byte, encode (.twWrbit a b c) = c ++ b ++ a ++ 0x12#8) ∧
  ∀ (a b c : Byte) (s : State), s.Ready → s.inputs = [] →
    ∃ t u, exec (.twWrbit a b c) s = .next t ∧ t.stat.busy = true ∧
      showsPhases t (phaseLength s) (waveform s.sdaO [.bit (a.getLsbD 0)]) ∧
      runsTo (3 * phaseLength s) t u ∧
      u = { latched 0x12 a b c s with
          stat := completedStat s true .none
          sclO := true
          sdaO := a.getLsbD 0
          draws := u.draws }

/-- tw.rdbit: from a ready block the outputs show RDBIT, and after 3 * D cycles the op has completed with OK = 1, both lines
released, and RES the level the environment gives the data line in the last cycle; nothing else changes
(41_twowire.md R143, R146, R153). It holds of every free level (log 4). -/
def Obligations.TwRdbitRuns : Prop :=
  ∀ (a b c : Byte) (s : State), s.Ready → s.inputs = [] →
    ∃ t, exec (.twRdbit a b c) s = .next t ∧ t.stat.busy = true ∧
      showsPhases t (phaseLength s) (waveform s.sdaO [.bit true]) ∧
      runsTo (3 * phaseLength s) t
        { latched 0x13 a b c s with
          stat := completedStat s true .none
          res := if drawnLevel s (3 * phaseLength s) then 1 else 0
          sclO := true
          sdaO := true
          draws := s.draws + 3 * phaseLength s }

/-- tw.wrbyte: from a ready block the outputs show the eight bits of A, most significant first, then a released ninth bit,
and after 27 * D cycles the op has completed with OK = 1 and RES the acknowledge read in the ninth bit; but for the engine's
SR and BI nothing else changes (41_twowire.md R148, R154). It holds of every free level (log 4). -/
def Obligations.TwWrbyteRuns : Prop :=
  ∀ (a b c : Byte) (s : State), s.Ready → s.inputs = [] →
    ∃ t u, exec (.twWrbyte a b c) s = .next t ∧ t.stat.busy = true ∧
      showsPhases t (phaseLength s) (waveform s.sdaO (sentByte a)) ∧
      runsTo (27 * phaseLength s) t u ∧
      u = { latched 0x14 a b c s with
          stat := completedStat s true .none
          res := if drawnLevel s (27 * phaseLength s) then 1 else 0
          sclO := true
          sdaO := true
          sr := u.sr
          bi := u.bi
          draws := s.draws + 27 * phaseLength s }

/-- tw.rdbyte: from a ready block the outputs release the data line for eight bits and then send A[0], and after 27 * D
cycles the op has completed with OK = 1 and RES the eight levels read, most significant first; but for the engine's SR and BI
nothing else changes (41_twowire.md R149, R155). It holds of every free level (log 4). -/
def Obligations.TwRdbyteRuns : Prop :=
  ∀ (a b c : Byte) (s : State), s.Ready → s.inputs = [] →
    ∃ t u, exec (.twRdbyte a b c) s = .next t ∧ t.stat.busy = true ∧
      showsPhases t (phaseLength s) (waveform s.sdaO (receivedByte (a.getLsbD 0))) ∧
      runsTo (27 * phaseLength s) t u ∧
      (∀ n < 8, u.res.getLsbD n = drawnLevel s (3 * (8 - n) * phaseLength s)) ∧
      (∀ n, 8 ≤ n → u.res.getLsbD n = false) ∧
      u = { latched 0x15 a b c s with
          stat := completedStat s true .none
          res := u.res
          sclO := true
          sdaO := a.getLsbD 0
          sr := u.sr
          bi := u.bi
          draws := s.draws + 27 * phaseLength s }

/-- tw.rdblk with 1 <= L <= 8: the outputs show START, the address byte for a write, the register, START, the address byte
for a read, L bytes received with ACK but NACK after the last, and STOP; after (93 + 27 * L) * D cycles the op has completed
with OK = 1, BUF[0..L-1] hold the levels read and BUF[L..7] are unchanged; but for the engine's SR, BI and XI nothing else
changes (41_twowire.md R156, 30_encoding.md R96). It holds of every free level (log 4). -/
def Obligations.TwRdblkRuns : Prop :=
  ∀ (a b c : Byte) (s : State), s.Ready → s.inputs = [] → 1 ≤ b.toNat → b.toNat ≤ 8 →
    let address : Nat := c.toNat % 128 * 2
    ∃ t u, exec (.twRdblk a b c) s = .next t ∧ t.stat.busy = true ∧
      showsPhases t (phaseLength s) (waveform s.sdaO
        ([.start] ++ sentByte (BitVec.ofNat 8 address) ++ sentByte a ++ [.start] ++ sentByte (BitVec.ofNat 8 (address + 1))
          ++ (List.range b.toNat).flatMap (fun i => receivedByte (decide (i + 1 = b.toNat))) ++ [.stop])) ∧
      runsTo ((93 + 27 * b.toNat) * phaseLength s) t u ∧
      (∀ i : Fin 8, i.val < b.toNat → ∀ n < 8,
        u.buf[i].getLsbD n = drawnLevel s ((89 + 27 * i.val + 3 * (8 - n)) * phaseLength s)) ∧
      (∀ i : Fin 8, b.toNat ≤ i.val → u.buf[i] = s.buf[i]) ∧
      u = { latched 0x16 a b c s with
          stat := completedStat s true .none
          buf := u.buf
          sclO := true
          sdaO := true
          sr := u.sr
          bi := u.bi
          xi := u.xi
          draws := s.draws + (93 + 27 * b.toNat) * phaseLength s }

/-- tw.wrblk with 1 <= L <= 8: the outputs show START, the address byte for a write, the register, BUF[0..L-1] in order, and
STOP; after (62 + 27 * L) * D cycles the op has completed with OK = 1 and BUF is not changed; but for the engine's SR, BI and
XI nothing else changes (41_twowire.md R157, 30_encoding.md R96). `draws` is left open. -/
def Obligations.TwWrblkRuns : Prop :=
  (∀ a b c : Byte, encode (.twWrblk a b c) = c ++ b ++ a ++ 0x17#8) ∧
  ∀ (a b c : Byte) (s : State), s.Ready → s.inputs = [] → 1 ≤ b.toNat → b.toNat ≤ 8 →
    ∃ t u, exec (.twWrblk a b c) s = .next t ∧ t.stat.busy = true ∧
      showsPhases t (phaseLength s) (waveform s.sdaO
        ([.start] ++ sentByte (BitVec.ofNat 8 (c.toNat % 128 * 2)) ++ sentByte a
          ++ (s.buf.toList.take b.toNat).flatMap sentByte ++ [.stop])) ∧
      runsTo ((62 + 27 * b.toNat) * phaseLength s) t u ∧
      u = { latched 0x17 a b c s with
          stat := completedStat s true .none
          sclO := true
          sdaO := true
          sr := u.sr
          bi := u.bi
          xi := u.xi
          draws := u.draws }

/-- A two-wire op never hangs: wherever it stands, with only the block's clock running it completes with OK = 1 and ERR = 0
within the longest op's 309 phases of 65535 cycles (41_twowire.md R147, R160). -/
def Obligations.TwoWireOpCompletes : Prop :=
  ∀ s : State, s.Inv Config.params → s.stat.busy = true → 0x10 ≤ s.opl.toNat → s.opl.toNat ≤ 0x17 → s.inputs = [] →
    ∃ n t, n ≤ 309 * 65535 ∧ runsTo n s t ∧ t.stat.busy = false ∧ t.stat.done = true ∧ t.stat.ok = true ∧
      t.stat.err = .none

/-- Inside a hold both outputs stay: a clock cycle that finds HC other than 0 changes neither SCL_O nor SDA_O, in any state
(41_twowire.md R142). -/
def Obligations.HoldKeepsOutputs : Prop :=
  ∀ s t : State, s.hc ≠ 0 → (s.inputs = [] ∨ ∃ later, s.inputs = .clock :: later) → step s = .next t →
    t.sclO = s.sclO ∧ t.sdaO = s.sdaO

/-! ## The serial family -/

/-- One clock cycle at a frame that has not been requested raises the request: the pins carry the frame's bytes and lengths
to RTC_PORT, PEND is set, and a WRITE_BLOCK puts its payload into BUF; nothing else changes (30_encoding.md R95, 42_serial.md
R180, R181, R183). That the bytes of the pins beyond the frame keep their values is the model's choice (log 16). -/
def Obligations.FrameRequestPins : Prop :=
  ∀ (s : State) (f : Frame) (rest : List Stmt), s.seq = .run (.xfer f :: rest) → s.pend = false → s.rst = false →
    s.inputs = [] →
    ∃ t, step s = .next t ∧ t.req.valid = true ∧ t.req.port = Config.params.rtcPort ∧
      (match f with
        | .identify =>
          t.req.txlen = 1 ∧ t.req.rxlen = 3 ∧ t.buf = s.buf ∧ t.req.tx.toList.take 1 = [Config.params.cmdIdentify]
        | .readBlock blk =>
          t.req.txlen = 2 ∧ t.req.rxlen = 9 ∧ t.buf = s.buf ∧
            t.req.tx.toList.take 2 = [Config.params.cmdReadBlock, blk]
        | .writeBlock blk pl =>
          t.req.txlen = 10 ∧ t.req.rxlen = 1 ∧ t.buf = payloadBytes Config.params pl s ∧
            t.req.tx.toList = Config.params.cmdWriteBlock :: blk :: t.buf.toList) ∧
      (∀ i : Fin 10, t.req.txlen.val ≤ i.val → t.req.tx[i] = s.req.tx[i]) ∧
      t = { s with req := t.req, buf := t.buf, pend := true, draws := s.draws + 1 }

/-- sf.detect with DET = Init and a transport that answers `rx`: one IDENTIFY frame; RES is the identifier, DET is Detected
or NotDetected by its comparison with ID_RTC, OK says which, DEVSTAT is the status byte; nothing else changes (42_serial.md
R186, R190). The queued inputs, the steps they take and `rspRx` are the model's choice (logs 1, 2, 17). -/
def Obligations.SfDetectIdentifies : Prop :=
  ∀ (a b c : Byte) (s : State) (rx : Vector Byte 9) (later : List Input),
    s.Ready → s.inputs = answered rx ++ later → s.stat.det = .init →
    ∃ t u, exec (.sfDetect a b c) s = .next t ∧ t.stat.busy = true ∧
      framesSent 3 t = [[Config.params.cmdIdentify]] ∧ runsTo 3 t u ∧ u.req.valid = false ∧
      u = { latched 0x20 a b c s with
          stat :=
            { repliedStat s (decide (rx[0] ++ rx[1] = Config.params.idRtc)) .none rx[2] with
              det := if rx[0] ++ rx[1] = Config.params.idRtc then .detected else .notDetected }
          res := (rx[0] ++ rx[1]).setWidth 32
          req := u.req
          rspRx := rx
          draws := s.draws + 1
          inputs := later }

/-- sf.detect with the answer memoized: it completes in its first cycle with OK = 1 if DET = Detected and OK = 0, no error,
if DET = NotDetected; no frame is sent, and nothing else changes (42_serial.md R190). That this takes one cycle is the
model's reading (log 2). -/
def Obligations.SfDetectRemembers : Prop :=
  ∀ (a b c : Byte) (s : State), s.Ready → s.inputs = [] → (s.stat.det = .detected ∨ s.stat.det = .notDetected) →
    ∃ t, exec (.sfDetect a b c) s = .next t ∧ t.stat.busy = true ∧
      runsTo 1 t
        { latched 0x20 a b c s with
          stat := completedStat s (decide (s.stat.det = .detected)) .none
          draws := s.draws + 1 }

/-- The one stop of an instruction: sf.detect accepted with DET = Pending, which the spec says cannot occur, is a fault, and
no state that meets the invariant is such a state (the model's choice: log 10). -/
def Obligations.SfDetectPendingStops : Prop :=
  (∀ (a b c : Byte) (s : State), s.stat.busy = false → s.stat.det = .pending →
    exec (.sfDetect a b c) s = .fault .detPendingAtAcceptance) ∧
  (∀ s : State, s.Inv Config.params → s.stat.busy = false → s.stat.det ≠ .pending)

/-- sf.ident: one IDENTIFY frame; RES is the identifier, OK = 1, DEVSTAT the status byte; DET and everything else stay
(42_serial.md R186, R191). The queued inputs, the steps they take and `rspRx` are the model's choice (logs 1, 2, 17). -/
def Obligations.SfIdentRuns : Prop :=
  ∀ (a b c : Byte) (s : State) (rx : Vector Byte 9) (later : List Input), s.Ready → s.inputs = answered rx ++ later →
    ∃ t u, exec (.sfIdent a b c) s = .next t ∧ t.stat.busy = true ∧
      framesSent 3 t = [[Config.params.cmdIdentify]] ∧ runsTo 3 t u ∧ u.req.valid = false ∧
      u = { latched 0x21 a b c s with
          stat := repliedStat s true .none rx[2]
          res := (rx[0] ++ rx[1]).setWidth 32
          req := u.req
          rspRx := rx
          draws := s.draws + 1
          inputs := later }

/-- sf.rdblk with A <= 2: one READ_BLOCK frame; BUF is the payload, OK = 1, DEVSTAT the status byte; nothing else changes
(42_serial.md R187, R192). The queued inputs, the steps they take and `rspRx` are the model's choice (logs 1, 2, 17). -/
def Obligations.SfRdblkRuns : Prop :=
  ∀ (a b c : Byte) (s : State) (rx : Vector Byte 9) (later : List Input), s.Ready → s.inputs = answered rx ++ later →
    a.toNat ≤ 2 →
    ∃ t u, exec (.sfRdblk a b c) s = .next t ∧ t.stat.busy = true ∧
      framesSent 3 t = [[Config.params.cmdReadBlock, a]] ∧ runsTo 3 t u ∧ u.req.valid = false ∧
      u = { latched 0x22 a b c s with
          stat := repliedStat s true .none rx[8]
          buf := #v[rx[0], rx[1], rx[2], rx[3], rx[4], rx[5], rx[6], rx[7]]
          req := u.req
          rspRx := rx
          draws := s.draws + 1
          inputs := later }

/-- sf.wrblk with A <= 2: one WRITE_BLOCK frame with the bytes of BUF; for block 0 the op ends SETTLE cycles after the reply,
for the others in the reply's step; OK = 1, DEVSTAT the status byte; BUF and everything else stay (42_serial.md R185, R188,
R193). The queued inputs, the steps they take and `rspRx` are the model's choice (logs 1, 2, 17). -/
def Obligations.SfWrblkRuns : Prop :=
  ∀ (a b c : Byte) (s : State) (rx : Vector Byte 9) (later : List Input), s.Ready → a.toNat ≤ 2 →
    let wait : Nat := if a = 0 then s.settle.toNat else 0
    s.inputs = answered rx ++ cycles wait ++ later →
    ∃ t u, exec (.sfWrblk a b c) s = .next t ∧ t.stat.busy = true ∧
      framesSent (3 + wait) t = [Config.params.cmdWriteBlock :: a :: s.buf.toList] ∧ runsTo (3 + wait) t u ∧
      u.req.valid = false ∧
      u = { latched 0x23 a b c s with
          stat := repliedStat s true .none rx[0]
          req := u.req
          rspRx := rx
          draws := s.draws + 1 + wait
          inputs := later }

/-- The control block is rebuilt with the stop bit, and both lock bits, as given, and every other bit unchanged; so with
lock = not stop it meets `lock_block1 == lock_block2 == !stop` (42_serial.md R184, R198, 30_encoding.md R92, R93). -/
def Obligations.ControlBlockRebuilt : Prop :=
  ∀ (p : Params) (cb : Block) (stop lock : Bool),
    getStop p (withCtrl p cb stop lock) = stop ∧
    blockBit (withCtrl p cb stop lock) p.ctrl.lock1 = lock ∧
    blockBit (withCtrl p cb stop lock) p.ctrl.lock2 = lock ∧
    (∀ pos : Fin 64, pos ≠ p.ctrl.stop → pos ≠ p.ctrl.lock1 → pos ≠ p.ctrl.lock2 →
      blockBit (withCtrl p cb stop lock) pos = blockBit cb pos) ∧
    p.ctrl.stop ≠ p.ctrl.lock1 ∧ p.ctrl.stop ≠ p.ctrl.lock2 ∧ p.ctrl.lock1 ≠ p.ctrl.lock2

/-- sf.setstop where the control block read already has the wanted stop bit: one READ_BLOCK frame, no write and no settle;
BUF and CSH are the block read, OK = 1; nothing else changes (42_serial.md R194, 90_conflicts.md C4). The queued inputs, the
steps they take and `rspRx` are the model's choice (logs 1, 2, 17). -/
def Obligations.SfSetstopNoOp : Prop :=
  ∀ (a b c : Byte) (s : State) (rx : Vector Byte 9) (later : List Input), s.Ready → s.inputs = answered rx ++ later →
    let cb : Block := #v[rx[0], rx[1], rx[2], rx[3], rx[4], rx[5], rx[6], rx[7]]
    blockBit cb Config.params.ctrl.stop = a.getLsbD 0 →
    ∃ t u, exec (.sfSetstop a b c) s = .next t ∧ t.stat.busy = true ∧
      framesSent 3 t = [[Config.params.cmdReadBlock, 0]] ∧ runsTo 3 t u ∧ u.req.valid = false ∧
      u = { latched 0x24 a b c s with
          stat := repliedStat s true .none rx[8]
          buf := cb
          csh := cb
          req := u.req
          rspRx := rx
          draws := s.draws + 1
          inputs := later }

/-- sf.setstop where the stop bit differs: the control block read is written back with stop = A[0] and both locks its
negation, then a settle of SETTLE cycles; BUF is the block written, CSH the block read, OK = 1; nothing else changes
(42_serial.md R194, R185). The queued inputs, the steps they take and `rspRx` are the model's choice (logs 1, 2, 17). -/
def Obligations.SfSetstopWrites : Prop :=
  ∀ (a b c : Byte) (s : State) (r1 r2 : Vector Byte 9) (later : List Input), s.Ready →
    s.inputs = answered r1 ++ answered r2 ++ cycles s.settle.toNat ++ later →
    let cb : Block := #v[r1[0], r1[1], r1[2], r1[3], r1[4], r1[5], r1[6], r1[7]]
    let written : Block := withCtrl Config.params cb (a.getLsbD 0) (!a.getLsbD 0)
    blockBit cb Config.params.ctrl.stop ≠ a.getLsbD 0 →
    ∃ t u, exec (.sfSetstop a b c) s = .next t ∧ t.stat.busy = true ∧
      framesSent (6 + s.settle.toNat) t =
        [[Config.params.cmdReadBlock, 0], Config.params.cmdWriteBlock :: 0 :: written.toList] ∧
      runsTo (6 + s.settle.toNat) t u ∧ u.req.valid = false ∧
      u = { latched 0x24 a b c s with
          stat := repliedStat s true .none r2[0]
          buf := written
          csh := cb
          req := u.req
          rspRx := r2
          draws := s.draws + 2 + s.settle.toNat
          inputs := later }

/-- sf.rdtime: one READ_BLOCK frame for block 2; BUF is the payload, TIME and UNKNOWN its decode, OK = 1 if it is valid and
ERR_RANGE if not, DEVSTAT the status byte; nothing else changes (42_serial.md R195). What the decode gives is stated by
`TimeDecResult`. The queued inputs, the steps they take and `rspRx` are the model's choice (logs 1, 2, 17). -/
def Obligations.SfRdtimeRuns : Prop :=
  ∀ (a b c : Byte) (s : State) (rx : Vector Byte 9) (later : List Input), s.Ready → s.inputs = answered rx ++ later →
    let tb : Block := #v[rx[0], rx[1], rx[2], rx[3], rx[4], rx[5], rx[6], rx[7]]
    ∃ t u, exec (.sfRdtime a b c) s = .next t ∧ t.stat.busy = true ∧
      framesSent 3 t = [[Config.params.cmdReadBlock, 2]] ∧ runsTo 3 t u ∧ u.req.valid = false ∧
      u = { latched 0x25 a b c s with
          stat :=
            { repliedStat s (decodeValid tb) (if decodeValid tb then .none else .range) rx[8] with
              unknown := decodeUnknown tb }
          buf := tb
          time := decodeFieldsOf tb
          req := u.req
          rspRx := rx
          draws := s.draws + 1
          inputs := later }

/-- sf.settime turned away before any frame: a field out of range gives ERR_RANGE, and a time in range with WR_EXCL = 1 gives
ERR_WRITE_EXCLUDED, in the first cycle; but for STAT, SEQ and the latches nothing changes (42_serial.md R196,
60_exceptions.md R223). That acceptance shows BUSY = 1 before the two checks, which are made in the first cycle after it, is
the model's choice (log 13), and that this takes one cycle is the model's reading (log 2). -/
def Obligations.SfSettimeTurnedAway : Prop :=
  ∀ (a b c : Byte) (s : State), s.Ready → s.inputs = [] →
    (s.time.legal = false → ∃ t, exec (.sfSettime a b c) s = .next t ∧ t.stat.busy = true ∧
      runsTo 1 t
        { latched 0x26 a b c s with stat := completedStat s false .range, draws := s.draws + 1 }) ∧
    (s.time.legal = true → s.wrExcl = true → ∃ t, exec (.sfSettime a b c) s = .next t ∧ t.stat.busy = true ∧
      runsTo 1 t
        { latched 0x26 a b c s with stat := completedStat s false .writeExcluded, draws := s.draws + 1 })

/-- sf.settime on a device that stops: five frames in order, three settles, OK = 1; BUF is the restored control block, CSH
the control block read, DEVSTAT the last status byte; RES, TIME and everything else stay (42_serial.md R196, R197). The
queued inputs, the steps they take and `rspRx` are the model's choice (logs 1, 2, 17). -/
def Obligations.SfSettimeSucceeds : Prop :=
  ∀ (a b c : Byte) (s : State) (r1 r2 r3 r4 r5 : Vector Byte 9) (later : List Input), s.Ready → s.time.legal = true →
    s.wrExcl = false →
    s.inputs = answered r1 ++ answered r2 ++ cycles s.settle.toNat ++ answered r3 ++ answered r4
      ++ cycles s.settle.toNat ++ answered r5 ++ cycles s.settle.toNat ++ later →
    r3[2].getLsbD 0 = true →
    let cb : Block := #v[r1[0], r1[1], r1[2], r1[3], r1[4], r1[5], r1[6], r1[7]]
    let n : Nat := 15 + 3 * s.settle.toNat
    ∃ t u, exec (.sfSettime a b c) s = .next t ∧ t.stat.busy = true ∧
      framesSent n t =
        [[Config.params.cmdReadBlock, 0],
         Config.params.cmdWriteBlock :: 0 :: (withCtrl Config.params cb true false).toList,
         [Config.params.cmdIdentify],
         Config.params.cmdWriteBlock :: 2 :: (timeEncode s.time).toList,
         Config.params.cmdWriteBlock :: 0 :: (withCtrl Config.params cb false true).toList] ∧
      runsTo n t u ∧ u.req.valid = false ∧
      u = { latched 0x26 a b c s with
          stat := repliedStat s true .none r5[0]
          buf := withCtrl Config.params cb false true
          csh := cb
          req := u.req
          rspRx := r5
          draws := s.draws + 5 + 3 * s.settle.toNat
          inputs := later }

/-- sf.settime on a device that does not stop: after the identify reply the op ends with ERR_NOT_STOPPED; three frames were
sent, one settle made, and the control block is not restored (42_serial.md R196). The queued inputs, the steps they take and
`rspRx` are the model's choice (logs 1, 2, 17). -/
def Obligations.SfSettimeNotStopped : Prop :=
  ∀ (a b c : Byte) (s : State) (r1 r2 r3 : Vector Byte 9) (later : List Input), s.Ready → s.time.legal = true →
    s.wrExcl = false →
    s.inputs = answered r1 ++ answered r2 ++ cycles s.settle.toNat ++ answered r3 ++ later →
    r3[2].getLsbD 0 = false →
    let cb : Block := #v[r1[0], r1[1], r1[2], r1[3], r1[4], r1[5], r1[6], r1[7]]
    let n : Nat := 9 + s.settle.toNat
    ∃ t u, exec (.sfSettime a b c) s = .next t ∧ t.stat.busy = true ∧
      framesSent n t =
        [[Config.params.cmdReadBlock, 0],
         Config.params.cmdWriteBlock :: 0 :: (withCtrl Config.params cb true false).toList,
         [Config.params.cmdIdentify]] ∧
      runsTo n t u ∧ u.req.valid = false ∧
      u = { latched 0x26 a b c s with
          stat := repliedStat s false .notStopped r3[2]
          buf := withCtrl Config.params cb true false
          csh := cb
          req := u.req
          rspRx := r3
          draws := s.draws + 3 + s.settle.toNat
          inputs := later }

/-- Every control block that sf.setstop or sf.settime sends meets `lock_block1 == lock_block2 == !stop`, whatever the device
answered before (42_serial.md R198). -/
def Obligations.ControlBlocksSentKeepInvariant : Prop :=
  ∀ s t : State, s.Inv Config.params → step s = .next t → s.req.valid = false → t.req.valid = true →
    (t.opl = 0x24 ∨ t.opl = 0x26) → t.req.txlen = 10 → t.req.tx[1] = 0 →
    let cb : Block := Vector.ofFn fun i : Fin 8 => t.req.tx[i.val + 2]
    blockBit cb Config.params.ctrl.lock1 = !blockBit cb Config.params.ctrl.stop ∧
    blockBit cb Config.params.ctrl.lock2 = !blockBit cb Config.params.ctrl.stop

/-- While a reply is awaited the sequencer holds: no step but the transport's reply and reset moves SEQ or PEND, BUSY stays 1,
and with nothing queued the block stays as it is for ever (42_serial.md R181, 10_state.md R45, 70_reset_and_hazards.md R257). -/
def Obligations.UnansweredFrameHolds : Prop :=
  (∀ s t : State, s.Inv Config.params → s.pend = true → step s = .next t →
    (∀ rx later, s.inputs ≠ .transportReplies rx :: later) → (∀ level later, s.inputs ≠ .rst level :: later) →
    t.pend = true ∧ t.seq = s.seq ∧ t.stat.busy = true) ∧
  (∀ (s : State) (n : Nat), s.pend = true → s.inputs = [] → runsTo n s { s with draws := s.draws + n })

/-! ## The register window -/

/-- STAT: a read returns its fields at their places and 0 in every reserved bit, and changes nothing but the value read; a
write clears DONE if bit 1 is set and OVERRUN if bit 3 is set, and nothing else, BUSY or not (10_state.md R22). -/
def Obligations.StatRegister : Prop :=
  (∀ (s : State) (later : List Input), s.inputs = .hostRead 0x04 4 :: later →
    ∃ v, step s = .next { s with rdata := v, inputs := later } ∧
      v.getLsbD 0 = s.stat.busy ∧ v.getLsbD 1 = s.stat.done ∧ v.getLsbD 2 = s.stat.ok ∧ v.getLsbD 3 = s.stat.overrun ∧
      v.extractLsb' 4 2 = (match s.stat.det with | .init => 0 | .pending => 1 | .detected => 2 | .notDetected => 3) ∧
      v.getLsbD 6 = s.stat.unknown ∧ v.getLsbD 7 = s.stat.devstop ∧
      v.extractLsb' 8 3 = (match s.stat.err with
        | .none => 0 | .reservedOp => 1 | .badOperand => 2 | .range => 3 | .writeExcluded => 4 | .notStopped => 5) ∧
      v.extractLsb' 11 5 = 0 ∧ v.extractLsb' 16 8 = s.stat.devstat ∧ v.extractLsb' 24 8 = 0) ∧
  (∀ (s : State) (v : Word) (later : List Input), s.inputs = .hostWrite 0x04 4 v :: later → s.rst = false →
    step s = .next
      { s with
        stat :=
          { s.stat with
            done := if v.getLsbD 1 then false else s.stat.done
            overrun := if v.getLsbD 3 then false else s.stat.overrun }
        inputs := later })

/-- A read of any other register returns what it holds, of LINES the pin levels, of CMD and the reserved offsets 0, and has no
side effect (10_state.md R21, R31 to R36, 20_memory.md R61, R66, R68). -/
def Obligations.RegisterReads : Prop :=
  ∀ (s : State) (off : BitVec 6) (later : List Input), s.inputs = .hostRead off 4 :: later → off.toNat % 4 = 0 →
    ∃ v, step s = .next { s with rdata := v, inputs := later } ∧
      (off = 0x08 → v = s.res) ∧
      (off = 0x10 → v = s.buf[0] ++ s.buf[1] ++ s.buf[2] ++ s.buf[3]) ∧
      (off = 0x14 → v = s.buf[4] ++ s.buf[5] ++ s.buf[6] ++ s.buf[7]) ∧
      (off = 0x18 → v = s.time.day ++ s.time.hour ++ s.time.min ++ s.time.sec) ∧
      (off = 0x1C → v = s.time.year ++ s.time.wday ++ s.time.mon) ∧
      (off = 0x20 → v.extractLsb' 0 16 = s.twDelay ∧ v.getLsbD 16 = s.ie ∧ v.extractLsb' 17 15 = 0) ∧
      (off = 0x24 → v = s.settle) ∧
      (off = 0x28 → v.getLsbD 0 = s.sclO ∧ v.getLsbD 1 = s.sdaO ∧ v.getLsbD 2 = sdaLevel s ∧ v.getLsbD 3 = sclLevel s ∧
        v.getLsbD 4 = s.wrExcl ∧ v.extractLsb' 5 27 = 0) ∧
      (off = 0x00 ∨ off = 0x0C ∨ 0x2C ≤ off.toNat → v = 0)

/-- The level of a line is 0 if the block or another agent drives it low, else 1 (41_twowire.md R141), and `sample()` is the
data line's level, so 0 whenever SDA_O = 0 (R143); where the state does not say what the others do it is a free value
(log 4). -/
def Obligations.LineLevels : Prop :=
  ∀ s : State,
    (s.sdaO = false → sample s = false) ∧ (s.sdaEnv = some false → sample s = false) ∧
    (s.sdaO = true → s.sdaEnv = some true → sample s = true) ∧
    (s.sclO = false → sclLevel s = false) ∧ (s.sclEnv = some false → sclLevel s = false) ∧
    (s.sclO = true → s.sclEnv = some true → sclLevel s = true)

/-- A write to BUF0, BUF1, TIME0 or TIME1 reads back while no op runs and is ignored while one does; a write to CFG or SETTLE
takes effect either way, CFG's reserved bits reading 0 (10_state.md R33 to R35, R37). -/
def Obligations.RegisterWritesReadBack : Prop :=
  ∀ (s : State) (off : BitVec 6) (v : Word) (later : List Input), s.inputs = .hostWrite off 4 v :: later → s.rst = false →
    (off = 0x10 ∨ off = 0x14 ∨ off = 0x18 ∨ off = 0x1C → s.stat.busy = true → step s = .next { s with inputs := later }) ∧
    (off = 0x10 ∨ off = 0x14 ∨ off = 0x18 ∨ off = 0x1C → s.stat.busy = false →
      ∃ t, step s = .next t ∧ readReg off t = v ∧ (∀ o, o ≠ off → readReg o t = readReg o s) ∧
        t = { s with buf := t.buf, time := t.time, inputs := later }) ∧
    (off = 0x20 → ∃ t, step s = .next t ∧ readReg 0x20 t = v &&& 0x0001FFFF ∧
      t = { s with twDelay := t.twDelay, ie := t.ie, inputs := later }) ∧
    (off = 0x24 → step s = .next { s with settle := v, inputs := later })

/-- A write to RES, LINES or a reserved offset is ignored (10_state.md R37, 20_memory.md R61). -/
def Obligations.IgnoredWrites : Prop :=
  ∀ (s : State) (off : BitVec 6) (v : Word) (later : List Input), s.inputs = .hostWrite off 4 v :: later →
    (off = 0x08 ∨ off = 0x28 ∨ off = 0x0C ∨ (0x2C ≤ off.toNat ∧ off.toNat % 4 = 0)) →
    step s = .next { s with inputs := later }

/-- An access of another width than 32 bits, or at an offset with off mod 4 != 0, is refused (20_memory.md R65). -/
def Obligations.BadAccessRefused : Prop :=
  ∀ (s : State) (off : BitVec 6) (width : Nat) (v : Word) (later : List Input), (width ≠ 4 ∨ off.toNat % 4 ≠ 0) →
    (s.inputs = .hostWrite off width v :: later → step s = .refused .hostAccess) ∧
    (s.inputs = .hostRead off width :: later → step s = .refused .hostAccess)

/-- The window: the register at offset `off` is at BASE + off, BASE a multiple of 64, and every address but those 64 is outside
it (20_memory.md R60, R61). An address of 32 bits is the model's choice (log 7). -/
def Obligations.WindowAddresses : Prop :=
  ∀ (p : Params) (address : Word) (off : BitVec 6),
    (windowOffset p address = some off ↔ address.toNat = p.base.toNat * 64 + off.toNat) ∧
    windowAddress p off = p.base.setWidth 32 * 64 + off.setWidth 32

/-- The lines through a platform GPIO register: SCL_O and SDA_O drive their bits of it and no other bit, and SDA_I reads its bit
of the register's value, 0 where the block drives the line low (41_twowire.md R161; that SCL_I reads the clock line's bit,
which R161 does not say, and the register's width of 32 bits are the model's choice: log 21). -/
def Obligations.GpioLines : Prop :=
  (∀ (p : Params) (s : State) (g : Word),
    (gpioDriven p s g).getLsbD p.gpioSdaBit = s.sdaO ∧
    (p.gpioSclBit ≠ p.gpioSdaBit → (gpioDriven p s g).getLsbD p.gpioSclBit = s.sclO) ∧
    ∀ n < 32, n ≠ p.gpioSclBit.val → n ≠ p.gpioSdaBit.val → (gpioDriven p s g).getLsbD n = g.getLsbD n) ∧
  (∀ (s : State) (g : Word) (later : List Input), s.inputs = .gpio g :: later →
    ∃ t, step s = .next t ∧ sample t = (s.sdaO && g.getLsbD Config.params.gpioSdaBit) ∧
      sclLevel t = (s.sclO && g.getLsbD Config.params.gpioSclBit) ∧
      t = { s with sdaEnv := t.sdaEnv, sclEnv := t.sclEnv, draws := t.draws, inputs := later })

/-! ## The whole machine -/

/-- Reset gives every piece of state the value of 10_state.md R49 (the request pins, the inputs and the model's own fields,
which R49 does not list, are logs 1, 4, 5, 12, 16, 17, 18). -/
def Obligations.ResetValues : Prop :=
  State.reset.stat =
    { busy := false, done := false, ok := false, overrun := false, det := .init, unknown := false, devstop := false,
      err := .none, devstat := 0x00 } ∧
  State.reset.res = 0 ∧ State.reset.buf = Vector.replicate 8 0x00 ∧
  State.reset.time = { sec := 0, min := 0, hour := 0, day := 0, mon := 0, wday := 0, year := 0 } ∧
  State.reset.twDelay = Config.params.twDelayRst ∧ State.reset.ie = false ∧
  State.reset.settle = Config.params.settleRst ∧ State.reset.seq = .idle ∧ State.reset.pend = false ∧
  State.reset.opl = 0 ∧ State.reset.al = 0 ∧ State.reset.bl = 0 ∧ State.reset.cl = 0 ∧
  State.reset.dlat.toNat = max Config.params.twDelayRst.toNat 1 ∧ State.reset.slat = Config.params.settleRst ∧
  State.reset.csh = Vector.replicate 8 0x00 ∧ State.reset.sclO = true ∧ State.reset.sdaO = true ∧
  State.reset.hc = 0 ∧ State.reset.sr = 0 ∧ State.reset.bi = .bit 0 ∧ State.reset.xi = 0 ∧ State.reset.sc = 0 ∧
  irq State.reset = false

/-- From any state, asserting `rst` puts every piece of the block's state at its reset value, abandoning an op in progress
without a completion; while it is asserted a command, a transport's step and the clock leave it there; and a reply that
arrives after its release is ignored (70_reset_and_hazards.md R250, R251). What an input does while `rst` is asserted is the
model's reading (log 12). -/
def Obligations.ResetAbandons : Prop :=
  ∀ (s : State) (w : Word) (rx : Vector Byte 9) (later : List Input),
    let after (level : Bool) (n : Nat) (inputs : List Input) : State :=
      { State.reset with
        rst := level, wrExcl := s.wrExcl, rspRx := s.rspRx, sdaEnv := s.sdaEnv, sclEnv := s.sclEnv
        draws := s.draws + n, rdata := s.rdata, inputs := inputs }
    (s.inputs = .rst true :: later → step s = .next (after true 0 later)) ∧
    (s.inputs = .rst true :: .hostWrite 0x00 4 w :: .clock :: .transportReplies rx :: .rst false :: .transportReplies rx
        :: later → runsTo 4 s (after true 1 (.rst false :: .transportReplies rx :: later)) ∧
      runsTo 6 s (after false 1 later))

/-- The invariant holds at reset. -/
def Obligations.ResetMeetsInv : Prop := State.reset.Inv Config.params

/-- Every step of every agent keeps the invariant: BUSY is SEQ != Idle, SEQ is a position inside the rule of the latched op,
PEND and SC and HC stand only where their rules put them, DLAT is at least 1, Pending is held only while sf.detect runs,
DEVSTOP is the stopped bit of DEVSTAT, and under `rst` everything has its reset value. -/
def Obligations.StepKeepsInv : Prop :=
  ∀ s t : State, s.Inv Config.params → step s = .next t → t.Inv Config.params

/-- From a state that meets the invariant no step faults, and a step is refused only for a host access of another width or at
a misaligned offset: the block has no traps (60_exceptions.md R225, 20_memory.md R65). -/
def Obligations.StepNeverStops : Prop :=
  ∀ s : State, s.Inv Config.params →
    (∃ t, step s = .next t) ∨
    (step s = .refused .hostAccess ∧ ∃ off width later, (width ≠ 4 ∨ off.toNat % 4 ≠ 0) ∧
      ((∃ v, s.inputs = .hostWrite off width v :: later) ∨ s.inputs = .hostRead off width :: later))

/-- DET changes only from Init to Pending and from Pending to Detected or NotDetected, both while sf.detect is the latched op,
and by reset to Init (10_state.md R27). -/
def Obligations.DetTransitions : Prop :=
  ∀ s t : State, s.Inv Config.params → step s = .next t → t.stat.det ≠ s.stat.det →
    (t.rst = true ∧ t.stat.det = .init) ∨
    (t.rst = false ∧ t.opl = 0x20 ∧
      ((s.stat.det = .init ∧ t.stat.det = .pending) ∨
        (s.stat.det = .pending ∧ (t.stat.det = .detected ∨ t.stat.det = .notDetected))))

/-- But for reset, RES changes only by bcd.enc, bcd.dec, tw.rdbit, tw.wrbyte, tw.rdbyte, sf.detect and sf.ident
(10_state.md R32), CSH only by sf.setstop and sf.settime (R44), and SCL_O and SDA_O only by the two-wire ops
(41_twowire.md R140). -/
def Obligations.OnlyNamedOpsWrite : Prop :=
  ∀ s t : State, s.Inv Config.params → step s = .next t → t.rst = false →
    (t.res ≠ s.res → t.opl ∈ ([0x01, 0x02, 0x13, 0x14, 0x15, 0x20, 0x21] : List Byte)) ∧
    (t.csh ≠ s.csh → t.opl ∈ ([0x24, 0x26] : List Byte)) ∧
    (t.sclO ≠ s.sclO ∨ t.sdaO ≠ s.sdaO → 0x10 ≤ t.opl.toNat ∧ t.opl.toNat ≤ 0x17)

/-- What a running op works on is changed by no step but reset, whatever the host writes meanwhile: its latches; BUF, while
tw.wrblk or sf.wrblk runs, which send it; and TIME, unless it is sf.rdtime that completes (10_state.md R37, R42, 20_memory.md
R74, 70_reset_and_hazards.md R259). -/
def Obligations.RunningOpKeepsItsInputs : Prop :=
  ∀ s t : State, s.Inv Config.params → s.stat.busy = true → step s = .next t → t.rst = false →
    t.opl = s.opl ∧ t.al = s.al ∧ t.bl = s.bl ∧ t.cl = s.cl ∧ t.dlat = s.dlat ∧ t.slat = s.slat ∧
    (s.opl = 0x17 ∨ s.opl = 0x23 → t.buf = s.buf) ∧
    (t.time = s.time ∨ (s.opl = 0x25 ∧ t.stat.busy = false))

/-- OVERRUN is set by a rejected CMD write, cleared by a write to STAT with bit 3 set, and by nothing else but reset: not by
the acceptance of an op (10_state.md R26). -/
def Obligations.OverrunIsSticky : Prop :=
  (∀ (s : State) (w : Word) (later : List Input), s.inputs = .hostWrite 0x00 4 w :: later → s.rst = false →
    s.stat.busy = true → ∃ t, step s = .next t ∧ t.stat.overrun = true) ∧
  (∀ (s : State) (v : Word) (later : List Input), s.inputs = .hostWrite 0x04 4 v :: later → s.rst = false →
    v.getLsbD 3 = true → ∃ t, step s = .next t ∧ t.stat.overrun = false) ∧
  (∀ s t : State, s.Inv Config.params → step s = .next t → s.stat.overrun = true → t.stat.overrun = false →
    t.rst = true ∨ ∃ v later, s.inputs = .hostWrite 0x04 4 v :: later ∧ v.getLsbD 3 = true)

/-- IRQ is DONE and IE, a level: a step raises it only by completing an op or by a write to CFG that sets IE, and lowers it
only by a write that clears DONE, by an accepted command, by a write to CFG that clears IE, or by reset
(60_exceptions.md R226). -/
def Obligations.IrqLevel : Prop :=
  ∀ s t : State, s.Inv Config.params → step s = .next t →
    (irq s = (s.stat.done && s.ie)) ∧
    (irq s = false → irq t = true →
      (t.stat.done = true ∧ t.stat.busy = false ∧ (s.stat.busy = true ∨ ∃ w later, s.inputs = .hostWrite 0x00 4 w :: later)) ∨
      ∃ v later, s.inputs = .hostWrite 0x20 4 v :: later ∧ v.getLsbD 16 = true) ∧
    (irq s = true → irq t = false →
      t.rst = true ∨
      (∃ v later, s.inputs = .hostWrite 0x04 4 v :: later ∧ v.getLsbD 1 = true) ∨
      (∃ w later, s.inputs = .hostWrite 0x00 4 w :: later ∧ s.stat.busy = false) ∨
      (∃ v later, s.inputs = .hostWrite 0x20 4 v :: later ∧ v.getLsbD 16 = false))

/-- HC and SC are down-counters: the first cycle of a phase loads HC from DLAT, each cycle counts it down by one, and it is 0
when the phase ends; the reply after which a settle begins loads SC from SLAT, and each cycle of the settle counts it down by
one; inside a phase and a settle nothing else changes (60_exceptions.md R228, 41_twowire.md R142, 42_serial.md R185). That HC
counts D down to 1, the state holding what is left after each cycle, is the model's reading of R142 and R228 (log 3), and in
which step SC is loaded is log 2. -/
def Obligations.CountersCountDown : Prop :=
  (∀ (s : State) (l : Line) (v : BitSource) (rest : List Stmt), s.seq = .run (.phase l v :: rest) → s.pend = false →
    s.rst = false → s.inputs = [] →
    (s.hc = 0 → 1 < s.dlat.toNat → step s = .next { setLine l (bitValue v s) s with hc := s.dlat - 1, draws := s.draws + 1 }) ∧
    (1 < s.hc.toNat → step s = .next { s with hc := s.hc - 1, draws := s.draws + 1 }) ∧
    (s.hc = 1 ∨ s.hc = 0 ∧ s.dlat = 1 → ∃ t, step s = .next t ∧ t.hc = 0)) ∧
  (∀ (s : State) (f : Frame) (rest : List Stmt) (rx : Vector Byte 9) (later : List Input),
    s.seq = .run (.xfer f :: .act .loadSc :: .settle :: rest) → s.pend = true → s.req.valid = false → s.rst = false →
    s.inputs = .transportReplies rx :: later → s.slat ≠ 0 →
    ∃ t, step s = .next t ∧ t.sc = s.slat ∧ t.seq = .run (.settle :: rest)) ∧
  (∀ (s : State) (rest : List Stmt), s.seq = .run (.settle :: rest) → s.pend = false → s.rst = false → s.inputs = [] →
    1 < s.sc.toNat → step s = .next { s with sc := s.sc - 1, draws := s.draws + 1 })
end

