-- ==== Sys2Proof/Laws/Ops.lean ====
section
/-! SUPPORT. What the shared operations do, one lemma each: acceptance, the operand checks, the access check, the lines, the
bits of a byte and of a block, and the digits of a byte. -/

namespace Sys2Proof.Machine

/-! ## Acceptance -/

theorem issue_busy (op a b c : Byte) (s : State) (body : State → Result) (h : s.stat.busy = true) :
    issue op a b c s body = .next (reject s) := by simp [issue, h]

theorem issue_idle (op a b c : Byte) (s : State) (body : State → Result) (h : s.stat.busy = false) :
    issue op a b c s body = body (accept op a b c s) := by simp [issue, h]

/-- A command word is rejected, or its body runs on the accepted state. -/
theorem issue_cases (op a b c : Byte) (s : State) (body : State → Result) :
    (s.stat.busy = true ∧ issue op a b c s body = .next (reject s)) ∨
    (s.stat.busy = false ∧ issue op a b c s body = body (accept op a b c s)) := by
  cases h : s.stat.busy
  · exact .inr ⟨rfl, issue_idle op a b c s body h⟩
  · exact .inl ⟨rfl, issue_busy op a b c s body h⟩

theorem atLeastOne_toNat (d : BitVec 16) : (atLeastOne d).toNat = max d.toNat 1 := by
  by_cases h : d = 0
  · subst h; rfl
  · have : d.toNat ≠ 0 := fun e => h (by simpa using BitVec.eq_of_toNat_eq (y := 0) e)
    rw [atLeastOne, if_neg h]
    omega

/-! ## Checks -/

theorem lengthOk_iff (b : Byte) : lengthOk b = true ↔ 1 ≤ b.toNat ∧ b.toNat ≤ 8 := by simp [lengthOk]

theorem blockOk_iff (a : Byte) : blockOk a = true ↔ a.toNat ≤ 2 := by simp [blockOk]

theorem accessOk_iff (off : BitVec 6) (width : Nat) : accessOk off width = true ↔ width = 4 ∧ off.toNat % 4 = 0 := by
  have h : off.extractLsb' 0 2 = 0 ↔ off.toNat % 4 = 0 := by
    rw [← BitVec.toNat_inj]
    simp
  rw [accessOk, Bool.and_eq_true, beq_iff_eq, beq_iff_eq, h]

/-- Well-formedness of the syntax is the machine's own operand check. -/
theorem wellFormed_twRdblk (a b c : Byte) : (Instr.twRdblk a b c).wellFormed = lengthOk b := rfl
theorem wellFormed_twWrblk (a b c : Byte) : (Instr.twWrblk a b c).wellFormed = lengthOk b := rfl
theorem wellFormed_sfRdblk (a b c : Byte) : (Instr.sfRdblk a b c).wellFormed = blockOk a := rfl
theorem wellFormed_sfWrblk (a b c : Byte) : (Instr.sfWrblk a b c).wellFormed = blockOk a := rfl

/-! ## Lines and bits -/

/-- The data line's level: the output register, and what the other agents leave of it. -/
theorem sdaLevel_of_low (s : State) (h : s.sdaO = false) : sdaLevel s = false := by simp [sdaLevel, h]

theorem sdaLevel_of_released (s : State) (h : s.sdaO = true) :
    sdaLevel s = s.sdaEnv.getD (Config.freeSda s.draws) := by simp [sdaLevel, h]

theorem getLsbD_bitWord (b : Bool) (n : Nat) : (bitWord b).getLsbD n = (decide (n = 0) && b) := by
  cases b <;> rcases n with _ | n <;> simp [bitWord]

theorem bitWord_eq (b : Bool) : bitWord b = if b then 1 else 0 := by cases b <;> rfl

theorem getLsbD_setBitAt {w : Nat} (x : BitVec w) (n m : Nat) (v : Bool) (hm : m < w) :
    (setBitAt x n v).getLsbD m = if m = n then v else x.getLsbD m := by
  have one : ((1#w <<< n).getLsbD m) = decide (m = n) := by
    rw [BitVec.getLsbD_shiftLeft]
    rcases Nat.lt_trichotomy m n with h | h | h
    · simp [h, Nat.ne_of_lt h]
    · subst h; simp [hm]; omega
    · have h1 : m - n ≠ 0 := by omega
      simp [hm, Nat.not_lt.mpr h.le, Nat.ne_of_gt h, BitVec.getLsbD_one, h1]
  unfold setBitAt
  cases v
  · simp only [Bool.false_eq_true, if_false, BitVec.getLsbD_and, BitVec.getLsbD_not, one, hm]
    by_cases h : m = n <;> simp [h]
  · simp only [if_true, BitVec.getLsbD_or, one]
    by_cases h : m = n <;> simp [h]

/-- Reading a bit of a block after setting one. -/
theorem blockBit_setBlockBit (cb : Block) (i j : Fin 64) (v : Bool) :
    blockBit (setBlockBit cb i v) j = if j = i then v else blockBit cb j := by
  have hj : j.val % 8 < 8 := Nat.mod_lt _ (by decide)
  have hji : j = i ↔ i.val / 8 = j.val / 8 ∧ j.val % 8 = i.val % 8 := by rw [Fin.ext_iff]; omega
  unfold blockBit setBlockBit
  rw [Vector.getElem_set]
  by_cases hd : i.val / 8 = j.val / 8
  · simp only [hd, if_true]
    rw [getLsbD_setBitAt _ _ _ _ hj]
    simp [hji, hd]
  · simp [hd, hji]

/-! ## Digits -/

theorem bcdEnc_toNat (n : Byte) : (bcdEnc n).toNat = (n.toNat / 10 * 16 + n.toNat % 10) % 256 := by simp [bcdEnc]

theorem lowNibble_eq (b : Byte) : lowNibble b = b.toNat % 16 := by simp [lowNibble]

theorem highNibble_eq (b : Byte) : highNibble b = b.toNat / 16 := by
  have := b.isLt
  simp [highNibble, Nat.shiftRight_eq_div_pow]
  omega

theorem bcdDec_toNat (b : Byte) : (bcdDec b).toNat = b.toNat % 16 + 10 * (b.toNat / 16) := by
  have := b.isLt
  simp only [bcdDec, lowNibble_eq, highNibble_eq, BitVec.toNat_ofNat]
  omega

theorem validBcd_iff (b : Byte) : validBcd b = true ↔ b.toNat % 16 ≤ 9 ∧ b.toNat / 16 ≤ 9 := by
  simp [validBcd, lowNibble_eq, highNibble_eq]

/-- A time block that `time_encode` makes has the marker bit in its hour byte. -/
theorem hourDigits_of_marked (b : Byte) (h : b.toNat < 128) : hourDigits (b ||| Config.hourMark) = b := by
  apply BitVec.eq_of_getLsbD_eq
  intro i hi
  have h7 : b.getLsbD 7 = false := by
    rw [← BitVec.msb_eq_getLsbD_last, BitVec.msb_eq_decide]; simp; omega
  have h7' : b[7] = false := h7
  interval_cases i <;> simp [hourDigits, Config.hourMark, h7']

end Sys2Proof.Machine
end

