-- ==== Sys2Proof/Laws/State.lean ====
section
/-! SUPPORT. One lemma for each field of State and each shared update, true by unfolding the update once. -/

namespace Sys2Proof.Machine

/-! ## reject -/

@[simp] theorem reject_stat_busy (s : State) : (reject s).stat.busy = s.stat.busy := rfl
@[simp] theorem reject_stat_done (s : State) : (reject s).stat.done = s.stat.done := rfl
@[simp] theorem reject_stat_ok (s : State) : (reject s).stat.ok = s.stat.ok := rfl
@[simp] theorem reject_stat_overrun (s : State) : (reject s).stat.overrun = true := rfl
@[simp] theorem reject_stat_det (s : State) : (reject s).stat.det = s.stat.det := rfl
@[simp] theorem reject_stat_unknown (s : State) : (reject s).stat.unknown = s.stat.unknown := rfl
@[simp] theorem reject_stat_devstop (s : State) : (reject s).stat.devstop = s.stat.devstop := rfl
@[simp] theorem reject_stat_err (s : State) : (reject s).stat.err = s.stat.err := rfl
@[simp] theorem reject_stat_devstat (s : State) : (reject s).stat.devstat = s.stat.devstat := rfl
@[simp] theorem reject_res (s : State) : (reject s).res = s.res := rfl
@[simp] theorem reject_buf (s : State) : (reject s).buf = s.buf := rfl
@[simp] theorem reject_time (s : State) : (reject s).time = s.time := rfl
@[simp] theorem reject_twDelay (s : State) : (reject s).twDelay = s.twDelay := rfl
@[simp] theorem reject_ie (s : State) : (reject s).ie = s.ie := rfl
@[simp] theorem reject_settle (s : State) : (reject s).settle = s.settle := rfl
@[simp] theorem reject_seq (s : State) : (reject s).seq = s.seq := rfl
@[simp] theorem reject_pend (s : State) : (reject s).pend = s.pend := rfl
@[simp] theorem reject_opl (s : State) : (reject s).opl = s.opl := rfl
@[simp] theorem reject_al (s : State) : (reject s).al = s.al := rfl
@[simp] theorem reject_bl (s : State) : (reject s).bl = s.bl := rfl
@[simp] theorem reject_cl (s : State) : (reject s).cl = s.cl := rfl
@[simp] theorem reject_dlat (s : State) : (reject s).dlat = s.dlat := rfl
@[simp] theorem reject_slat (s : State) : (reject s).slat = s.slat := rfl
@[simp] theorem reject_csh (s : State) : (reject s).csh = s.csh := rfl
@[simp] theorem reject_sclO (s : State) : (reject s).sclO = s.sclO := rfl
@[simp] theorem reject_sdaO (s : State) : (reject s).sdaO = s.sdaO := rfl
@[simp] theorem reject_hc (s : State) : (reject s).hc = s.hc := rfl
@[simp] theorem reject_sr (s : State) : (reject s).sr = s.sr := rfl
@[simp] theorem reject_bi (s : State) : (reject s).bi = s.bi := rfl
@[simp] theorem reject_xi (s : State) : (reject s).xi = s.xi := rfl
@[simp] theorem reject_sc (s : State) : (reject s).sc = s.sc := rfl
@[simp] theorem reject_req (s : State) : (reject s).req = s.req := rfl
@[simp] theorem reject_rst (s : State) : (reject s).rst = s.rst := rfl
@[simp] theorem reject_wrExcl (s : State) : (reject s).wrExcl = s.wrExcl := rfl
@[simp] theorem reject_rspRx (s : State) : (reject s).rspRx = s.rspRx := rfl
@[simp] theorem reject_sdaEnv (s : State) : (reject s).sdaEnv = s.sdaEnv := rfl
@[simp] theorem reject_sclEnv (s : State) : (reject s).sclEnv = s.sclEnv := rfl
@[simp] theorem reject_draws (s : State) : (reject s).draws = s.draws := rfl
@[simp] theorem reject_rdata (s : State) : (reject s).rdata = s.rdata := rfl
@[simp] theorem reject_inputs (s : State) : (reject s).inputs = s.inputs := rfl

/-! ## accept -/

@[simp] theorem accept_stat_busy (op a b c : Byte) (s : State) : (accept op a b c s).stat.busy = s.stat.busy := rfl
@[simp] theorem accept_stat_done (op a b c : Byte) (s : State) : (accept op a b c s).stat.done = false := rfl
@[simp] theorem accept_stat_ok (op a b c : Byte) (s : State) : (accept op a b c s).stat.ok = false := rfl
@[simp] theorem accept_stat_overrun (op a b c : Byte) (s : State) : (accept op a b c s).stat.overrun = s.stat.overrun := rfl
@[simp] theorem accept_stat_det (op a b c : Byte) (s : State) : (accept op a b c s).stat.det = s.stat.det := rfl
@[simp] theorem accept_stat_unknown (op a b c : Byte) (s : State) : (accept op a b c s).stat.unknown = false := rfl
@[simp] theorem accept_stat_devstop (op a b c : Byte) (s : State) : (accept op a b c s).stat.devstop = s.stat.devstop := rfl
@[simp] theorem accept_stat_err (op a b c : Byte) (s : State) : (accept op a b c s).stat.err = .none := rfl
@[simp] theorem accept_stat_devstat (op a b c : Byte) (s : State) : (accept op a b c s).stat.devstat = s.stat.devstat := rfl
@[simp] theorem accept_res (op a b c : Byte) (s : State) : (accept op a b c s).res = s.res := rfl
@[simp] theorem accept_buf (op a b c : Byte) (s : State) : (accept op a b c s).buf = s.buf := rfl
@[simp] theorem accept_time (op a b c : Byte) (s : State) : (accept op a b c s).time = s.time := rfl
@[simp] theorem accept_twDelay (op a b c : Byte) (s : State) : (accept op a b c s).twDelay = s.twDelay := rfl
@[simp] theorem accept_ie (op a b c : Byte) (s : State) : (accept op a b c s).ie = s.ie := rfl
@[simp] theorem accept_settle (op a b c : Byte) (s : State) : (accept op a b c s).settle = s.settle := rfl
@[simp] theorem accept_seq (op a b c : Byte) (s : State) : (accept op a b c s).seq = s.seq := rfl
@[simp] theorem accept_pend (op a b c : Byte) (s : State) : (accept op a b c s).pend = s.pend := rfl
@[simp] theorem accept_opl (op a b c : Byte) (s : State) : (accept op a b c s).opl = op := rfl
@[simp] theorem accept_al (op a b c : Byte) (s : State) : (accept op a b c s).al = a := rfl
@[simp] theorem accept_bl (op a b c : Byte) (s : State) : (accept op a b c s).bl = b := rfl
@[simp] theorem accept_cl (op a b c : Byte) (s : State) : (accept op a b c s).cl = c := rfl
@[simp] theorem accept_dlat (op a b c : Byte) (s : State) : (accept op a b c s).dlat = atLeastOne s.twDelay := rfl
@[simp] theorem accept_slat (op a b c : Byte) (s : State) : (accept op a b c s).slat = s.settle := rfl
@[simp] theorem accept_csh (op a b c : Byte) (s : State) : (accept op a b c s).csh = s.csh := rfl
@[simp] theorem accept_sclO (op a b c : Byte) (s : State) : (accept op a b c s).sclO = s.sclO := rfl
@[simp] theorem accept_sdaO (op a b c : Byte) (s : State) : (accept op a b c s).sdaO = s.sdaO := rfl
@[simp] theorem accept_hc (op a b c : Byte) (s : State) : (accept op a b c s).hc = s.hc := rfl
@[simp] theorem accept_sr (op a b c : Byte) (s : State) : (accept op a b c s).sr = s.sr := rfl
@[simp] theorem accept_bi (op a b c : Byte) (s : State) : (accept op a b c s).bi = s.bi := rfl
@[simp] theorem accept_xi (op a b c : Byte) (s : State) : (accept op a b c s).xi = s.xi := rfl
@[simp] theorem accept_sc (op a b c : Byte) (s : State) : (accept op a b c s).sc = s.sc := rfl
@[simp] theorem accept_req (op a b c : Byte) (s : State) : (accept op a b c s).req = s.req := rfl
@[simp] theorem accept_rst (op a b c : Byte) (s : State) : (accept op a b c s).rst = s.rst := rfl
@[simp] theorem accept_wrExcl (op a b c : Byte) (s : State) : (accept op a b c s).wrExcl = s.wrExcl := rfl
@[simp] theorem accept_rspRx (op a b c : Byte) (s : State) : (accept op a b c s).rspRx = s.rspRx := rfl
@[simp] theorem accept_sdaEnv (op a b c : Byte) (s : State) : (accept op a b c s).sdaEnv = s.sdaEnv := rfl
@[simp] theorem accept_sclEnv (op a b c : Byte) (s : State) : (accept op a b c s).sclEnv = s.sclEnv := rfl
@[simp] theorem accept_draws (op a b c : Byte) (s : State) : (accept op a b c s).draws = s.draws := rfl
@[simp] theorem accept_rdata (op a b c : Byte) (s : State) : (accept op a b c s).rdata = s.rdata := rfl
@[simp] theorem accept_inputs (op a b c : Byte) (s : State) : (accept op a b c s).inputs = s.inputs := rfl

/-! ## complete -/

@[simp] theorem complete_stat_busy (ok : Bool) (err : ErrCode) (s : State) : (complete ok err s).stat.busy = false := rfl
@[simp] theorem complete_stat_done (ok : Bool) (err : ErrCode) (s : State) : (complete ok err s).stat.done = true := rfl
@[simp] theorem complete_stat_ok (ok : Bool) (err : ErrCode) (s : State) : (complete ok err s).stat.ok = ok := rfl
@[simp] theorem complete_stat_overrun (ok : Bool) (err : ErrCode) (s : State) : (complete ok err s).stat.overrun = s.stat.overrun := rfl
@[simp] theorem complete_stat_det (ok : Bool) (err : ErrCode) (s : State) : (complete ok err s).stat.det = s.stat.det := rfl
@[simp] theorem complete_stat_unknown (ok : Bool) (err : ErrCode) (s : State) : (complete ok err s).stat.unknown = s.stat.unknown := rfl
@[simp] theorem complete_stat_devstop (ok : Bool) (err : ErrCode) (s : State) : (complete ok err s).stat.devstop = s.stat.devstop := rfl
@[simp] theorem complete_stat_err (ok : Bool) (err : ErrCode) (s : State) : (complete ok err s).stat.err = err := rfl
@[simp] theorem complete_stat_devstat (ok : Bool) (err : ErrCode) (s : State) : (complete ok err s).stat.devstat = s.stat.devstat := rfl
@[simp] theorem complete_res (ok : Bool) (err : ErrCode) (s : State) : (complete ok err s).res = s.res := rfl
@[simp] theorem complete_buf (ok : Bool) (err : ErrCode) (s : State) : (complete ok err s).buf = s.buf := rfl
@[simp] theorem complete_time (ok : Bool) (err : ErrCode) (s : State) : (complete ok err s).time = s.time := rfl
@[simp] theorem complete_twDelay (ok : Bool) (err : ErrCode) (s : State) : (complete ok err s).twDelay = s.twDelay := rfl
@[simp] theorem complete_ie (ok : Bool) (err : ErrCode) (s : State) : (complete ok err s).ie = s.ie := rfl
@[simp] theorem complete_settle (ok : Bool) (err : ErrCode) (s : State) : (complete ok err s).settle = s.settle := rfl
@[simp] theorem complete_seq (ok : Bool) (err : ErrCode) (s : State) : (complete ok err s).seq = .idle := rfl
@[simp] theorem complete_pend (ok : Bool) (err : ErrCode) (s : State) : (complete ok err s).pend = s.pend := rfl
@[simp] theorem complete_opl (ok : Bool) (err : ErrCode) (s : State) : (complete ok err s).opl = s.opl := rfl
@[simp] theorem complete_al (ok : Bool) (err : ErrCode) (s : State) : (complete ok err s).al = s.al := rfl
@[simp] theorem complete_bl (ok : Bool) (err : ErrCode) (s : State) : (complete ok err s).bl = s.bl := rfl
@[simp] theorem complete_cl (ok : Bool) (err : ErrCode) (s : State) : (complete ok err s).cl = s.cl := rfl
@[simp] theorem complete_dlat (ok : Bool) (err : ErrCode) (s : State) : (complete ok err s).dlat = s.dlat := rfl
@[simp] theorem complete_slat (ok : Bool) (err : ErrCode) (s : State) : (complete ok err s).slat = s.slat := rfl
@[simp] theorem complete_csh (ok : Bool) (err : ErrCode) (s : State) : (complete ok err s).csh = s.csh := rfl
@[simp] theorem complete_sclO (ok : Bool) (err : ErrCode) (s : State) : (complete ok err s).sclO = s.sclO := rfl
@[simp] theorem complete_sdaO (ok : Bool) (err : ErrCode) (s : State) : (complete ok err s).sdaO = s.sdaO := rfl
@[simp] theorem complete_hc (ok : Bool) (err : ErrCode) (s : State) : (complete ok err s).hc = s.hc := rfl
@[simp] theorem complete_sr (ok : Bool) (err : ErrCode) (s : State) : (complete ok err s).sr = s.sr := rfl
@[simp] theorem complete_bi (ok : Bool) (err : ErrCode) (s : State) : (complete ok err s).bi = s.bi := rfl
@[simp] theorem complete_xi (ok : Bool) (err : ErrCode) (s : State) : (complete ok err s).xi = s.xi := rfl
@[simp] theorem complete_sc (ok : Bool) (err : ErrCode) (s : State) : (complete ok err s).sc = s.sc := rfl
@[simp] theorem complete_req (ok : Bool) (err : ErrCode) (s : State) : (complete ok err s).req = s.req := rfl
@[simp] theorem complete_rst (ok : Bool) (err : ErrCode) (s : State) : (complete ok err s).rst = s.rst := rfl
@[simp] theorem complete_wrExcl (ok : Bool) (err : ErrCode) (s : State) : (complete ok err s).wrExcl = s.wrExcl := rfl
@[simp] theorem complete_rspRx (ok : Bool) (err : ErrCode) (s : State) : (complete ok err s).rspRx = s.rspRx := rfl
@[simp] theorem complete_sdaEnv (ok : Bool) (err : ErrCode) (s : State) : (complete ok err s).sdaEnv = s.sdaEnv := rfl
@[simp] theorem complete_sclEnv (ok : Bool) (err : ErrCode) (s : State) : (complete ok err s).sclEnv = s.sclEnv := rfl
@[simp] theorem complete_draws (ok : Bool) (err : ErrCode) (s : State) : (complete ok err s).draws = s.draws := rfl
@[simp] theorem complete_rdata (ok : Bool) (err : ErrCode) (s : State) : (complete ok err s).rdata = s.rdata := rfl
@[simp] theorem complete_inputs (ok : Bool) (err : ErrCode) (s : State) : (complete ok err s).inputs = s.inputs := rfl

/-! ## startSeq -/

@[simp] theorem startSeq_stat_busy (rule : List Stmt) (s : State) : (startSeq rule s).stat.busy = true := rfl
@[simp] theorem startSeq_stat_done (rule : List Stmt) (s : State) : (startSeq rule s).stat.done = s.stat.done := rfl
@[simp] theorem startSeq_stat_ok (rule : List Stmt) (s : State) : (startSeq rule s).stat.ok = s.stat.ok := rfl
@[simp] theorem startSeq_stat_overrun (rule : List Stmt) (s : State) : (startSeq rule s).stat.overrun = s.stat.overrun := rfl
@[simp] theorem startSeq_stat_det (rule : List Stmt) (s : State) : (startSeq rule s).stat.det = s.stat.det := rfl
@[simp] theorem startSeq_stat_unknown (rule : List Stmt) (s : State) : (startSeq rule s).stat.unknown = s.stat.unknown := rfl
@[simp] theorem startSeq_stat_devstop (rule : List Stmt) (s : State) : (startSeq rule s).stat.devstop = s.stat.devstop := rfl
@[simp] theorem startSeq_stat_err (rule : List Stmt) (s : State) : (startSeq rule s).stat.err = s.stat.err := rfl
@[simp] theorem startSeq_stat_devstat (rule : List Stmt) (s : State) : (startSeq rule s).stat.devstat = s.stat.devstat := rfl
@[simp] theorem startSeq_res (rule : List Stmt) (s : State) : (startSeq rule s).res = s.res := rfl
@[simp] theorem startSeq_buf (rule : List Stmt) (s : State) : (startSeq rule s).buf = s.buf := rfl
@[simp] theorem startSeq_time (rule : List Stmt) (s : State) : (startSeq rule s).time = s.time := rfl
@[simp] theorem startSeq_twDelay (rule : List Stmt) (s : State) : (startSeq rule s).twDelay = s.twDelay := rfl
@[simp] theorem startSeq_ie (rule : List Stmt) (s : State) : (startSeq rule s).ie = s.ie := rfl
@[simp] theorem startSeq_settle (rule : List Stmt) (s : State) : (startSeq rule s).settle = s.settle := rfl
@[simp] theorem startSeq_seq (rule : List Stmt) (s : State) : (startSeq rule s).seq = .run rule := rfl
@[simp] theorem startSeq_pend (rule : List Stmt) (s : State) : (startSeq rule s).pend = s.pend := rfl
@[simp] theorem startSeq_opl (rule : List Stmt) (s : State) : (startSeq rule s).opl = s.opl := rfl
@[simp] theorem startSeq_al (rule : List Stmt) (s : State) : (startSeq rule s).al = s.al := rfl
@[simp] theorem startSeq_bl (rule : List Stmt) (s : State) : (startSeq rule s).bl = s.bl := rfl
@[simp] theorem startSeq_cl (rule : List Stmt) (s : State) : (startSeq rule s).cl = s.cl := rfl
@[simp] theorem startSeq_dlat (rule : List Stmt) (s : State) : (startSeq rule s).dlat = s.dlat := rfl
@[simp] theorem startSeq_slat (rule : List Stmt) (s : State) : (startSeq rule s).slat = s.slat := rfl
@[simp] theorem startSeq_csh (rule : List Stmt) (s : State) : (startSeq rule s).csh = s.csh := rfl
@[simp] theorem startSeq_sclO (rule : List Stmt) (s : State) : (startSeq rule s).sclO = s.sclO := rfl
@[simp] theorem startSeq_sdaO (rule : List Stmt) (s : State) : (startSeq rule s).sdaO = s.sdaO := rfl
@[simp] theorem startSeq_hc (rule : List Stmt) (s : State) : (startSeq rule s).hc = s.hc := rfl
@[simp] theorem startSeq_sr (rule : List Stmt) (s : State) : (startSeq rule s).sr = s.sr := rfl
@[simp] theorem startSeq_bi (rule : List Stmt) (s : State) : (startSeq rule s).bi = s.bi := rfl
@[simp] theorem startSeq_xi (rule : List Stmt) (s : State) : (startSeq rule s).xi = s.xi := rfl
@[simp] theorem startSeq_sc (rule : List Stmt) (s : State) : (startSeq rule s).sc = s.sc := rfl
@[simp] theorem startSeq_req (rule : List Stmt) (s : State) : (startSeq rule s).req = s.req := rfl
@[simp] theorem startSeq_rst (rule : List Stmt) (s : State) : (startSeq rule s).rst = s.rst := rfl
@[simp] theorem startSeq_wrExcl (rule : List Stmt) (s : State) : (startSeq rule s).wrExcl = s.wrExcl := rfl
@[simp] theorem startSeq_rspRx (rule : List Stmt) (s : State) : (startSeq rule s).rspRx = s.rspRx := rfl
@[simp] theorem startSeq_sdaEnv (rule : List Stmt) (s : State) : (startSeq rule s).sdaEnv = s.sdaEnv := rfl
@[simp] theorem startSeq_sclEnv (rule : List Stmt) (s : State) : (startSeq rule s).sclEnv = s.sclEnv := rfl
@[simp] theorem startSeq_draws (rule : List Stmt) (s : State) : (startSeq rule s).draws = s.draws := rfl
@[simp] theorem startSeq_rdata (rule : List Stmt) (s : State) : (startSeq rule s).rdata = s.rdata := rfl
@[simp] theorem startSeq_inputs (rule : List Stmt) (s : State) : (startSeq rule s).inputs = s.inputs := rfl

/-! ## storeReply -/

@[simp] theorem storeReply_stat_busy (p : Params) (f : Frame) (rx : Vector Byte 9) (s : State) : (storeReply p f rx s).stat.busy = s.stat.busy := rfl
@[simp] theorem storeReply_stat_done (p : Params) (f : Frame) (rx : Vector Byte 9) (s : State) : (storeReply p f rx s).stat.done = s.stat.done := rfl
@[simp] theorem storeReply_stat_ok (p : Params) (f : Frame) (rx : Vector Byte 9) (s : State) : (storeReply p f rx s).stat.ok = s.stat.ok := rfl
@[simp] theorem storeReply_stat_overrun (p : Params) (f : Frame) (rx : Vector Byte 9) (s : State) : (storeReply p f rx s).stat.overrun = s.stat.overrun := rfl
@[simp] theorem storeReply_stat_det (p : Params) (f : Frame) (rx : Vector Byte 9) (s : State) : (storeReply p f rx s).stat.det = s.stat.det := rfl
@[simp] theorem storeReply_stat_unknown (p : Params) (f : Frame) (rx : Vector Byte 9) (s : State) : (storeReply p f rx s).stat.unknown = s.stat.unknown := rfl
@[simp] theorem storeReply_stat_devstop (p : Params) (f : Frame) (rx : Vector Byte 9) (s : State) : (storeReply p f rx s).stat.devstop = stoppedBit p (replyStatus f rx) := rfl
@[simp] theorem storeReply_stat_err (p : Params) (f : Frame) (rx : Vector Byte 9) (s : State) : (storeReply p f rx s).stat.err = s.stat.err := rfl
@[simp] theorem storeReply_stat_devstat (p : Params) (f : Frame) (rx : Vector Byte 9) (s : State) : (storeReply p f rx s).stat.devstat = replyStatus f rx := rfl
@[simp] theorem storeReply_res (p : Params) (f : Frame) (rx : Vector Byte 9) (s : State) : (storeReply p f rx s).res = s.res := rfl
@[simp] theorem storeReply_time (p : Params) (f : Frame) (rx : Vector Byte 9) (s : State) : (storeReply p f rx s).time = s.time := rfl
@[simp] theorem storeReply_twDelay (p : Params) (f : Frame) (rx : Vector Byte 9) (s : State) : (storeReply p f rx s).twDelay = s.twDelay := rfl
@[simp] theorem storeReply_ie (p : Params) (f : Frame) (rx : Vector Byte 9) (s : State) : (storeReply p f rx s).ie = s.ie := rfl
@[simp] theorem storeReply_settle (p : Params) (f : Frame) (rx : Vector Byte 9) (s : State) : (storeReply p f rx s).settle = s.settle := rfl
@[simp] theorem storeReply_seq (p : Params) (f : Frame) (rx : Vector Byte 9) (s : State) : (storeReply p f rx s).seq = s.seq := rfl
@[simp] theorem storeReply_pend (p : Params) (f : Frame) (rx : Vector Byte 9) (s : State) : (storeReply p f rx s).pend = false := rfl
@[simp] theorem storeReply_opl (p : Params) (f : Frame) (rx : Vector Byte 9) (s : State) : (storeReply p f rx s).opl = s.opl := rfl
@[simp] theorem storeReply_al (p : Params) (f : Frame) (rx : Vector Byte 9) (s : State) : (storeReply p f rx s).al = s.al := rfl
@[simp] theorem storeReply_bl (p : Params) (f : Frame) (rx : Vector Byte 9) (s : State) : (storeReply p f rx s).bl = s.bl := rfl
@[simp] theorem storeReply_cl (p : Params) (f : Frame) (rx : Vector Byte 9) (s : State) : (storeReply p f rx s).cl = s.cl := rfl
@[simp] theorem storeReply_dlat (p : Params) (f : Frame) (rx : Vector Byte 9) (s : State) : (storeReply p f rx s).dlat = s.dlat := rfl
@[simp] theorem storeReply_slat (p : Params) (f : Frame) (rx : Vector Byte 9) (s : State) : (storeReply p f rx s).slat = s.slat := rfl
@[simp] theorem storeReply_csh (p : Params) (f : Frame) (rx : Vector Byte 9) (s : State) : (storeReply p f rx s).csh = s.csh := rfl
@[simp] theorem storeReply_sclO (p : Params) (f : Frame) (rx : Vector Byte 9) (s : State) : (storeReply p f rx s).sclO = s.sclO := rfl
@[simp] theorem storeReply_sdaO (p : Params) (f : Frame) (rx : Vector Byte 9) (s : State) : (storeReply p f rx s).sdaO = s.sdaO := rfl
@[simp] theorem storeReply_hc (p : Params) (f : Frame) (rx : Vector Byte 9) (s : State) : (storeReply p f rx s).hc = s.hc := rfl
@[simp] theorem storeReply_sr (p : Params) (f : Frame) (rx : Vector Byte 9) (s : State) : (storeReply p f rx s).sr = s.sr := rfl
@[simp] theorem storeReply_bi (p : Params) (f : Frame) (rx : Vector Byte 9) (s : State) : (storeReply p f rx s).bi = s.bi := rfl
@[simp] theorem storeReply_xi (p : Params) (f : Frame) (rx : Vector Byte 9) (s : State) : (storeReply p f rx s).xi = s.xi := rfl
@[simp] theorem storeReply_sc (p : Params) (f : Frame) (rx : Vector Byte 9) (s : State) : (storeReply p f rx s).sc = s.sc := rfl
@[simp] theorem storeReply_req (p : Params) (f : Frame) (rx : Vector Byte 9) (s : State) : (storeReply p f rx s).req = s.req := rfl
@[simp] theorem storeReply_rst (p : Params) (f : Frame) (rx : Vector Byte 9) (s : State) : (storeReply p f rx s).rst = s.rst := rfl
@[simp] theorem storeReply_wrExcl (p : Params) (f : Frame) (rx : Vector Byte 9) (s : State) : (storeReply p f rx s).wrExcl = s.wrExcl := rfl
@[simp] theorem storeReply_rspRx (p : Params) (f : Frame) (rx : Vector Byte 9) (s : State) : (storeReply p f rx s).rspRx = rx := rfl
@[simp] theorem storeReply_sdaEnv (p : Params) (f : Frame) (rx : Vector Byte 9) (s : State) : (storeReply p f rx s).sdaEnv = s.sdaEnv := rfl
@[simp] theorem storeReply_sclEnv (p : Params) (f : Frame) (rx : Vector Byte 9) (s : State) : (storeReply p f rx s).sclEnv = s.sclEnv := rfl
@[simp] theorem storeReply_draws (p : Params) (f : Frame) (rx : Vector Byte 9) (s : State) : (storeReply p f rx s).draws = s.draws := rfl
@[simp] theorem storeReply_rdata (p : Params) (f : Frame) (rx : Vector Byte 9) (s : State) : (storeReply p f rx s).rdata = s.rdata := rfl
@[simp] theorem storeReply_inputs (p : Params) (f : Frame) (rx : Vector Byte 9) (s : State) : (storeReply p f rx s).inputs = s.inputs := rfl

/-! ## raiseRequest -/

@[simp] theorem raiseRequest_stat (p : Params) (f : Frame) (s : State) : (raiseRequest p f s).stat = s.stat := rfl
@[simp] theorem raiseRequest_res (p : Params) (f : Frame) (s : State) : (raiseRequest p f s).res = s.res := rfl
@[simp] theorem raiseRequest_time (p : Params) (f : Frame) (s : State) : (raiseRequest p f s).time = s.time := rfl
@[simp] theorem raiseRequest_twDelay (p : Params) (f : Frame) (s : State) : (raiseRequest p f s).twDelay = s.twDelay := rfl
@[simp] theorem raiseRequest_ie (p : Params) (f : Frame) (s : State) : (raiseRequest p f s).ie = s.ie := rfl
@[simp] theorem raiseRequest_settle (p : Params) (f : Frame) (s : State) : (raiseRequest p f s).settle = s.settle := rfl
@[simp] theorem raiseRequest_seq (p : Params) (f : Frame) (s : State) : (raiseRequest p f s).seq = s.seq := rfl
@[simp] theorem raiseRequest_pend (p : Params) (f : Frame) (s : State) : (raiseRequest p f s).pend = true := rfl
@[simp] theorem raiseRequest_opl (p : Params) (f : Frame) (s : State) : (raiseRequest p f s).opl = s.opl := rfl
@[simp] theorem raiseRequest_al (p : Params) (f : Frame) (s : State) : (raiseRequest p f s).al = s.al := rfl
@[simp] theorem raiseRequest_bl (p : Params) (f : Frame) (s : State) : (raiseRequest p f s).bl = s.bl := rfl
@[simp] theorem raiseRequest_cl (p : Params) (f : Frame) (s : State) : (raiseRequest p f s).cl = s.cl := rfl
@[simp] theorem raiseRequest_dlat (p : Params) (f : Frame) (s : State) : (raiseRequest p f s).dlat = s.dlat := rfl
@[simp] theorem raiseRequest_slat (p : Params) (f : Frame) (s : State) : (raiseRequest p f s).slat = s.slat := rfl
@[simp] theorem raiseRequest_csh (p : Params) (f : Frame) (s : State) : (raiseRequest p f s).csh = s.csh := rfl
@[simp] theorem raiseRequest_sclO (p : Params) (f : Frame) (s : State) : (raiseRequest p f s).sclO = s.sclO := rfl
@[simp] theorem raiseRequest_sdaO (p : Params) (f : Frame) (s : State) : (raiseRequest p f s).sdaO = s.sdaO := rfl
@[simp] theorem raiseRequest_hc (p : Params) (f : Frame) (s : State) : (raiseRequest p f s).hc = s.hc := rfl
@[simp] theorem raiseRequest_sr (p : Params) (f : Frame) (s : State) : (raiseRequest p f s).sr = s.sr := rfl
@[simp] theorem raiseRequest_bi (p : Params) (f : Frame) (s : State) : (raiseRequest p f s).bi = s.bi := rfl
@[simp] theorem raiseRequest_xi (p : Params) (f : Frame) (s : State) : (raiseRequest p f s).xi = s.xi := rfl
@[simp] theorem raiseRequest_sc (p : Params) (f : Frame) (s : State) : (raiseRequest p f s).sc = s.sc := rfl
@[simp] theorem raiseRequest_rst (p : Params) (f : Frame) (s : State) : (raiseRequest p f s).rst = s.rst := rfl
@[simp] theorem raiseRequest_wrExcl (p : Params) (f : Frame) (s : State) : (raiseRequest p f s).wrExcl = s.wrExcl := rfl
@[simp] theorem raiseRequest_rspRx (p : Params) (f : Frame) (s : State) : (raiseRequest p f s).rspRx = s.rspRx := rfl
@[simp] theorem raiseRequest_sdaEnv (p : Params) (f : Frame) (s : State) : (raiseRequest p f s).sdaEnv = s.sdaEnv := rfl
@[simp] theorem raiseRequest_sclEnv (p : Params) (f : Frame) (s : State) : (raiseRequest p f s).sclEnv = s.sclEnv := rfl
@[simp] theorem raiseRequest_draws (p : Params) (f : Frame) (s : State) : (raiseRequest p f s).draws = s.draws := rfl
@[simp] theorem raiseRequest_rdata (p : Params) (f : Frame) (s : State) : (raiseRequest p f s).rdata = s.rdata := rfl
@[simp] theorem raiseRequest_inputs (p : Params) (f : Frame) (s : State) : (raiseRequest p f s).inputs = s.inputs := rfl

/-! ## hostRead -/

@[simp] theorem hostRead_stat (off : BitVec 6) (s : State) : (hostRead off s).stat = s.stat := rfl
@[simp] theorem hostRead_res (off : BitVec 6) (s : State) : (hostRead off s).res = s.res := rfl
@[simp] theorem hostRead_buf (off : BitVec 6) (s : State) : (hostRead off s).buf = s.buf := rfl
@[simp] theorem hostRead_time (off : BitVec 6) (s : State) : (hostRead off s).time = s.time := rfl
@[simp] theorem hostRead_twDelay (off : BitVec 6) (s : State) : (hostRead off s).twDelay = s.twDelay := rfl
@[simp] theorem hostRead_ie (off : BitVec 6) (s : State) : (hostRead off s).ie = s.ie := rfl
@[simp] theorem hostRead_settle (off : BitVec 6) (s : State) : (hostRead off s).settle = s.settle := rfl
@[simp] theorem hostRead_seq (off : BitVec 6) (s : State) : (hostRead off s).seq = s.seq := rfl
@[simp] theorem hostRead_pend (off : BitVec 6) (s : State) : (hostRead off s).pend = s.pend := rfl
@[simp] theorem hostRead_opl (off : BitVec 6) (s : State) : (hostRead off s).opl = s.opl := rfl
@[simp] theorem hostRead_al (off : BitVec 6) (s : State) : (hostRead off s).al = s.al := rfl
@[simp] theorem hostRead_bl (off : BitVec 6) (s : State) : (hostRead off s).bl = s.bl := rfl
@[simp] theorem hostRead_cl (off : BitVec 6) (s : State) : (hostRead off s).cl = s.cl := rfl
@[simp] theorem hostRead_dlat (off : BitVec 6) (s : State) : (hostRead off s).dlat = s.dlat := rfl
@[simp] theorem hostRead_slat (off : BitVec 6) (s : State) : (hostRead off s).slat = s.slat := rfl
@[simp] theorem hostRead_csh (off : BitVec 6) (s : State) : (hostRead off s).csh = s.csh := rfl
@[simp] theorem hostRead_sclO (off : BitVec 6) (s : State) : (hostRead off s).sclO = s.sclO := rfl
@[simp] theorem hostRead_sdaO (off : BitVec 6) (s : State) : (hostRead off s).sdaO = s.sdaO := rfl
@[simp] theorem hostRead_hc (off : BitVec 6) (s : State) : (hostRead off s).hc = s.hc := rfl
@[simp] theorem hostRead_sr (off : BitVec 6) (s : State) : (hostRead off s).sr = s.sr := rfl
@[simp] theorem hostRead_bi (off : BitVec 6) (s : State) : (hostRead off s).bi = s.bi := rfl
@[simp] theorem hostRead_xi (off : BitVec 6) (s : State) : (hostRead off s).xi = s.xi := rfl
@[simp] theorem hostRead_sc (off : BitVec 6) (s : State) : (hostRead off s).sc = s.sc := rfl
@[simp] theorem hostRead_req (off : BitVec 6) (s : State) : (hostRead off s).req = s.req := rfl
@[simp] theorem hostRead_rst (off : BitVec 6) (s : State) : (hostRead off s).rst = s.rst := rfl
@[simp] theorem hostRead_wrExcl (off : BitVec 6) (s : State) : (hostRead off s).wrExcl = s.wrExcl := rfl
@[simp] theorem hostRead_rspRx (off : BitVec 6) (s : State) : (hostRead off s).rspRx = s.rspRx := rfl
@[simp] theorem hostRead_sdaEnv (off : BitVec 6) (s : State) : (hostRead off s).sdaEnv = s.sdaEnv := rfl
@[simp] theorem hostRead_sclEnv (off : BitVec 6) (s : State) : (hostRead off s).sclEnv = s.sclEnv := rfl
@[simp] theorem hostRead_draws (off : BitVec 6) (s : State) : (hostRead off s).draws = s.draws := rfl
@[simp] theorem hostRead_rdata (off : BitVec 6) (s : State) : (hostRead off s).rdata = readReg off s := rfl
@[simp] theorem hostRead_inputs (off : BitVec 6) (s : State) : (hostRead off s).inputs = s.inputs := rfl

/-! ## resetBlock -/

@[simp] theorem resetBlock_stat (p : Params) (s : State) : (resetBlock p s).stat = (State.resetWith p).stat := rfl
@[simp] theorem resetBlock_res (p : Params) (s : State) : (resetBlock p s).res = (State.resetWith p).res := rfl
@[simp] theorem resetBlock_buf (p : Params) (s : State) : (resetBlock p s).buf = (State.resetWith p).buf := rfl
@[simp] theorem resetBlock_time (p : Params) (s : State) : (resetBlock p s).time = (State.resetWith p).time := rfl
@[simp] theorem resetBlock_twDelay (p : Params) (s : State) : (resetBlock p s).twDelay = (State.resetWith p).twDelay := rfl
@[simp] theorem resetBlock_ie (p : Params) (s : State) : (resetBlock p s).ie = (State.resetWith p).ie := rfl
@[simp] theorem resetBlock_settle (p : Params) (s : State) : (resetBlock p s).settle = (State.resetWith p).settle := rfl
@[simp] theorem resetBlock_seq (p : Params) (s : State) : (resetBlock p s).seq = (State.resetWith p).seq := rfl
@[simp] theorem resetBlock_pend (p : Params) (s : State) : (resetBlock p s).pend = (State.resetWith p).pend := rfl
@[simp] theorem resetBlock_opl (p : Params) (s : State) : (resetBlock p s).opl = (State.resetWith p).opl := rfl
@[simp] theorem resetBlock_al (p : Params) (s : State) : (resetBlock p s).al = (State.resetWith p).al := rfl
@[simp] theorem resetBlock_bl (p : Params) (s : State) : (resetBlock p s).bl = (State.resetWith p).bl := rfl
@[simp] theorem resetBlock_cl (p : Params) (s : State) : (resetBlock p s).cl = (State.resetWith p).cl := rfl
@[simp] theorem resetBlock_dlat (p : Params) (s : State) : (resetBlock p s).dlat = (State.resetWith p).dlat := rfl
@[simp] theorem resetBlock_slat (p : Params) (s : State) : (resetBlock p s).slat = (State.resetWith p).slat := rfl
@[simp] theorem resetBlock_csh (p : Params) (s : State) : (resetBlock p s).csh = (State.resetWith p).csh := rfl
@[simp] theorem resetBlock_sclO (p : Params) (s : State) : (resetBlock p s).sclO = (State.resetWith p).sclO := rfl
@[simp] theorem resetBlock_sdaO (p : Params) (s : State) : (resetBlock p s).sdaO = (State.resetWith p).sdaO := rfl
@[simp] theorem resetBlock_hc (p : Params) (s : State) : (resetBlock p s).hc = (State.resetWith p).hc := rfl
@[simp] theorem resetBlock_sr (p : Params) (s : State) : (resetBlock p s).sr = (State.resetWith p).sr := rfl
@[simp] theorem resetBlock_bi (p : Params) (s : State) : (resetBlock p s).bi = (State.resetWith p).bi := rfl
@[simp] theorem resetBlock_xi (p : Params) (s : State) : (resetBlock p s).xi = (State.resetWith p).xi := rfl
@[simp] theorem resetBlock_sc (p : Params) (s : State) : (resetBlock p s).sc = (State.resetWith p).sc := rfl
@[simp] theorem resetBlock_req (p : Params) (s : State) : (resetBlock p s).req = (State.resetWith p).req := rfl
@[simp] theorem resetBlock_rst (p : Params) (s : State) : (resetBlock p s).rst = s.rst := rfl
@[simp] theorem resetBlock_wrExcl (p : Params) (s : State) : (resetBlock p s).wrExcl = s.wrExcl := rfl
@[simp] theorem resetBlock_rspRx (p : Params) (s : State) : (resetBlock p s).rspRx = s.rspRx := rfl
@[simp] theorem resetBlock_sdaEnv (p : Params) (s : State) : (resetBlock p s).sdaEnv = s.sdaEnv := rfl
@[simp] theorem resetBlock_sclEnv (p : Params) (s : State) : (resetBlock p s).sclEnv = s.sclEnv := rfl
@[simp] theorem resetBlock_draws (p : Params) (s : State) : (resetBlock p s).draws = s.draws := rfl
@[simp] theorem resetBlock_rdata (p : Params) (s : State) : (resetBlock p s).rdata = s.rdata := rfl
@[simp] theorem resetBlock_inputs (p : Params) (s : State) : (resetBlock p s).inputs = s.inputs := rfl

/-! ## setLine -/

@[simp] theorem setLine_stat (l : Line) (v : Bool) (s : State) : (setLine l v s).stat = s.stat := by cases l <;> rfl
@[simp] theorem setLine_res (l : Line) (v : Bool) (s : State) : (setLine l v s).res = s.res := by cases l <;> rfl
@[simp] theorem setLine_buf (l : Line) (v : Bool) (s : State) : (setLine l v s).buf = s.buf := by cases l <;> rfl
@[simp] theorem setLine_time (l : Line) (v : Bool) (s : State) : (setLine l v s).time = s.time := by cases l <;> rfl
@[simp] theorem setLine_twDelay (l : Line) (v : Bool) (s : State) : (setLine l v s).twDelay = s.twDelay := by cases l <;> rfl
@[simp] theorem setLine_ie (l : Line) (v : Bool) (s : State) : (setLine l v s).ie = s.ie := by cases l <;> rfl
@[simp] theorem setLine_settle (l : Line) (v : Bool) (s : State) : (setLine l v s).settle = s.settle := by cases l <;> rfl
@[simp] theorem setLine_seq (l : Line) (v : Bool) (s : State) : (setLine l v s).seq = s.seq := by cases l <;> rfl
@[simp] theorem setLine_pend (l : Line) (v : Bool) (s : State) : (setLine l v s).pend = s.pend := by cases l <;> rfl
@[simp] theorem setLine_opl (l : Line) (v : Bool) (s : State) : (setLine l v s).opl = s.opl := by cases l <;> rfl
@[simp] theorem setLine_al (l : Line) (v : Bool) (s : State) : (setLine l v s).al = s.al := by cases l <;> rfl
@[simp] theorem setLine_bl (l : Line) (v : Bool) (s : State) : (setLine l v s).bl = s.bl := by cases l <;> rfl
@[simp] theorem setLine_cl (l : Line) (v : Bool) (s : State) : (setLine l v s).cl = s.cl := by cases l <;> rfl
@[simp] theorem setLine_dlat (l : Line) (v : Bool) (s : State) : (setLine l v s).dlat = s.dlat := by cases l <;> rfl
@[simp] theorem setLine_slat (l : Line) (v : Bool) (s : State) : (setLine l v s).slat = s.slat := by cases l <;> rfl
@[simp] theorem setLine_csh (l : Line) (v : Bool) (s : State) : (setLine l v s).csh = s.csh := by cases l <;> rfl
@[simp] theorem setLine_hc (l : Line) (v : Bool) (s : State) : (setLine l v s).hc = s.hc := by cases l <;> rfl
@[simp] theorem setLine_sr (l : Line) (v : Bool) (s : State) : (setLine l v s).sr = s.sr := by cases l <;> rfl
@[simp] theorem setLine_bi (l : Line) (v : Bool) (s : State) : (setLine l v s).bi = s.bi := by cases l <;> rfl
@[simp] theorem setLine_xi (l : Line) (v : Bool) (s : State) : (setLine l v s).xi = s.xi := by cases l <;> rfl
@[simp] theorem setLine_sc (l : Line) (v : Bool) (s : State) : (setLine l v s).sc = s.sc := by cases l <;> rfl
@[simp] theorem setLine_req (l : Line) (v : Bool) (s : State) : (setLine l v s).req = s.req := by cases l <;> rfl
@[simp] theorem setLine_rst (l : Line) (v : Bool) (s : State) : (setLine l v s).rst = s.rst := by cases l <;> rfl
@[simp] theorem setLine_wrExcl (l : Line) (v : Bool) (s : State) : (setLine l v s).wrExcl = s.wrExcl := by cases l <;> rfl
@[simp] theorem setLine_rspRx (l : Line) (v : Bool) (s : State) : (setLine l v s).rspRx = s.rspRx := by cases l <;> rfl
@[simp] theorem setLine_sdaEnv (l : Line) (v : Bool) (s : State) : (setLine l v s).sdaEnv = s.sdaEnv := by cases l <;> rfl
@[simp] theorem setLine_sclEnv (l : Line) (v : Bool) (s : State) : (setLine l v s).sclEnv = s.sclEnv := by cases l <;> rfl
@[simp] theorem setLine_draws (l : Line) (v : Bool) (s : State) : (setLine l v s).draws = s.draws := by cases l <;> rfl
@[simp] theorem setLine_rdata (l : Line) (v : Bool) (s : State) : (setLine l v s).rdata = s.rdata := by cases l <;> rfl
@[simp] theorem setLine_inputs (l : Line) (v : Bool) (s : State) : (setLine l v s).inputs = s.inputs := by cases l <;> rfl
@[simp] theorem setLine_scl_sclO (v : Bool) (s : State) : (setLine .scl v s).sclO = v := rfl
@[simp] theorem setLine_scl_sdaO (v : Bool) (s : State) : (setLine .scl v s).sdaO = s.sdaO := rfl
@[simp] theorem setLine_sda_sclO (v : Bool) (s : State) : (setLine .sda v s).sclO = s.sclO := rfl
@[simp] theorem setLine_sda_sdaO (v : Bool) (s : State) : (setLine .sda v s).sdaO = v := rfl

/-! ## setSrBit -/

@[simp] theorem setSrBit_stat (v : Bool) (s : State) : (setSrBit v s).stat = s.stat := by unfold setSrBit; split <;> rfl
@[simp] theorem setSrBit_res (v : Bool) (s : State) : (setSrBit v s).res = s.res := by unfold setSrBit; split <;> rfl
@[simp] theorem setSrBit_buf (v : Bool) (s : State) : (setSrBit v s).buf = s.buf := by unfold setSrBit; split <;> rfl
@[simp] theorem setSrBit_time (v : Bool) (s : State) : (setSrBit v s).time = s.time := by unfold setSrBit; split <;> rfl
@[simp] theorem setSrBit_twDelay (v : Bool) (s : State) : (setSrBit v s).twDelay = s.twDelay := by unfold setSrBit; split <;> rfl
@[simp] theorem setSrBit_ie (v : Bool) (s : State) : (setSrBit v s).ie = s.ie := by unfold setSrBit; split <;> rfl
@[simp] theorem setSrBit_settle (v : Bool) (s : State) : (setSrBit v s).settle = s.settle := by unfold setSrBit; split <;> rfl
@[simp] theorem setSrBit_seq (v : Bool) (s : State) : (setSrBit v s).seq = s.seq := by unfold setSrBit; split <;> rfl
@[simp] theorem setSrBit_pend (v : Bool) (s : State) : (setSrBit v s).pend = s.pend := by unfold setSrBit; split <;> rfl
@[simp] theorem setSrBit_opl (v : Bool) (s : State) : (setSrBit v s).opl = s.opl := by unfold setSrBit; split <;> rfl
@[simp] theorem setSrBit_al (v : Bool) (s : State) : (setSrBit v s).al = s.al := by unfold setSrBit; split <;> rfl
@[simp] theorem setSrBit_bl (v : Bool) (s : State) : (setSrBit v s).bl = s.bl := by unfold setSrBit; split <;> rfl
@[simp] theorem setSrBit_cl (v : Bool) (s : State) : (setSrBit v s).cl = s.cl := by unfold setSrBit; split <;> rfl
@[simp] theorem setSrBit_dlat (v : Bool) (s : State) : (setSrBit v s).dlat = s.dlat := by unfold setSrBit; split <;> rfl
@[simp] theorem setSrBit_slat (v : Bool) (s : State) : (setSrBit v s).slat = s.slat := by unfold setSrBit; split <;> rfl
@[simp] theorem setSrBit_csh (v : Bool) (s : State) : (setSrBit v s).csh = s.csh := by unfold setSrBit; split <;> rfl
@[simp] theorem setSrBit_sclO (v : Bool) (s : State) : (setSrBit v s).sclO = s.sclO := by unfold setSrBit; split <;> rfl
@[simp] theorem setSrBit_sdaO (v : Bool) (s : State) : (setSrBit v s).sdaO = s.sdaO := by unfold setSrBit; split <;> rfl
@[simp] theorem setSrBit_hc (v : Bool) (s : State) : (setSrBit v s).hc = s.hc := by unfold setSrBit; split <;> rfl
@[simp] theorem setSrBit_bi (v : Bool) (s : State) : (setSrBit v s).bi = s.bi := by unfold setSrBit; split <;> rfl
@[simp] theorem setSrBit_xi (v : Bool) (s : State) : (setSrBit v s).xi = s.xi := by unfold setSrBit; split <;> rfl
@[simp] theorem setSrBit_sc (v : Bool) (s : State) : (setSrBit v s).sc = s.sc := by unfold setSrBit; split <;> rfl
@[simp] theorem setSrBit_req (v : Bool) (s : State) : (setSrBit v s).req = s.req := by unfold setSrBit; split <;> rfl
@[simp] theorem setSrBit_rst (v : Bool) (s : State) : (setSrBit v s).rst = s.rst := by unfold setSrBit; split <;> rfl
@[simp] theorem setSrBit_wrExcl (v : Bool) (s : State) : (setSrBit v s).wrExcl = s.wrExcl := by unfold setSrBit; split <;> rfl
@[simp] theorem setSrBit_rspRx (v : Bool) (s : State) : (setSrBit v s).rspRx = s.rspRx := by unfold setSrBit; split <;> rfl
@[simp] theorem setSrBit_sdaEnv (v : Bool) (s : State) : (setSrBit v s).sdaEnv = s.sdaEnv := by unfold setSrBit; split <;> rfl
@[simp] theorem setSrBit_sclEnv (v : Bool) (s : State) : (setSrBit v s).sclEnv = s.sclEnv := by unfold setSrBit; split <;> rfl
@[simp] theorem setSrBit_draws (v : Bool) (s : State) : (setSrBit v s).draws = s.draws := by unfold setSrBit; split <;> rfl
@[simp] theorem setSrBit_rdata (v : Bool) (s : State) : (setSrBit v s).rdata = s.rdata := by unfold setSrBit; split <;> rfl
@[simp] theorem setSrBit_inputs (v : Bool) (s : State) : (setSrBit v s).inputs = s.inputs := by unfold setSrBit; split <;> rfl
/-! ## setSeq -/

@[simp] theorem setSeq_stat (q : Seq) (s : State) : (setSeq q s).stat = s.stat := rfl
@[simp] theorem setSeq_res (q : Seq) (s : State) : (setSeq q s).res = s.res := rfl
@[simp] theorem setSeq_buf (q : Seq) (s : State) : (setSeq q s).buf = s.buf := rfl
@[simp] theorem setSeq_time (q : Seq) (s : State) : (setSeq q s).time = s.time := rfl
@[simp] theorem setSeq_twDelay (q : Seq) (s : State) : (setSeq q s).twDelay = s.twDelay := rfl
@[simp] theorem setSeq_ie (q : Seq) (s : State) : (setSeq q s).ie = s.ie := rfl
@[simp] theorem setSeq_settle (q : Seq) (s : State) : (setSeq q s).settle = s.settle := rfl
@[simp] theorem setSeq_seq (q : Seq) (s : State) : (setSeq q s).seq = q := rfl
@[simp] theorem setSeq_pend (q : Seq) (s : State) : (setSeq q s).pend = s.pend := rfl
@[simp] theorem setSeq_opl (q : Seq) (s : State) : (setSeq q s).opl = s.opl := rfl
@[simp] theorem setSeq_al (q : Seq) (s : State) : (setSeq q s).al = s.al := rfl
@[simp] theorem setSeq_bl (q : Seq) (s : State) : (setSeq q s).bl = s.bl := rfl
@[simp] theorem setSeq_cl (q : Seq) (s : State) : (setSeq q s).cl = s.cl := rfl
@[simp] theorem setSeq_dlat (q : Seq) (s : State) : (setSeq q s).dlat = s.dlat := rfl
@[simp] theorem setSeq_slat (q : Seq) (s : State) : (setSeq q s).slat = s.slat := rfl
@[simp] theorem setSeq_csh (q : Seq) (s : State) : (setSeq q s).csh = s.csh := rfl
@[simp] theorem setSeq_sclO (q : Seq) (s : State) : (setSeq q s).sclO = s.sclO := rfl
@[simp] theorem setSeq_sdaO (q : Seq) (s : State) : (setSeq q s).sdaO = s.sdaO := rfl
@[simp] theorem setSeq_hc (q : Seq) (s : State) : (setSeq q s).hc = s.hc := rfl
@[simp] theorem setSeq_sr (q : Seq) (s : State) : (setSeq q s).sr = s.sr := rfl
@[simp] theorem setSeq_bi (q : Seq) (s : State) : (setSeq q s).bi = s.bi := rfl
@[simp] theorem setSeq_xi (q : Seq) (s : State) : (setSeq q s).xi = s.xi := rfl
@[simp] theorem setSeq_sc (q : Seq) (s : State) : (setSeq q s).sc = s.sc := rfl
@[simp] theorem setSeq_req (q : Seq) (s : State) : (setSeq q s).req = s.req := rfl
@[simp] theorem setSeq_rst (q : Seq) (s : State) : (setSeq q s).rst = s.rst := rfl
@[simp] theorem setSeq_wrExcl (q : Seq) (s : State) : (setSeq q s).wrExcl = s.wrExcl := rfl
@[simp] theorem setSeq_rspRx (q : Seq) (s : State) : (setSeq q s).rspRx = s.rspRx := rfl
@[simp] theorem setSeq_sdaEnv (q : Seq) (s : State) : (setSeq q s).sdaEnv = s.sdaEnv := rfl
@[simp] theorem setSeq_sclEnv (q : Seq) (s : State) : (setSeq q s).sclEnv = s.sclEnv := rfl
@[simp] theorem setSeq_draws (q : Seq) (s : State) : (setSeq q s).draws = s.draws := rfl
@[simp] theorem setSeq_rdata (q : Seq) (s : State) : (setSeq q s).rdata = s.rdata := rfl
@[simp] theorem setSeq_inputs (q : Seq) (s : State) : (setSeq q s).inputs = s.inputs := rfl

/-! ## setHc -/

@[simp] theorem setHc_stat (n : BitVec 16) (s : State) : (setHc n s).stat = s.stat := rfl
@[simp] theorem setHc_res (n : BitVec 16) (s : State) : (setHc n s).res = s.res := rfl
@[simp] theorem setHc_buf (n : BitVec 16) (s : State) : (setHc n s).buf = s.buf := rfl
@[simp] theorem setHc_time (n : BitVec 16) (s : State) : (setHc n s).time = s.time := rfl
@[simp] theorem setHc_twDelay (n : BitVec 16) (s : State) : (setHc n s).twDelay = s.twDelay := rfl
@[simp] theorem setHc_ie (n : BitVec 16) (s : State) : (setHc n s).ie = s.ie := rfl
@[simp] theorem setHc_settle (n : BitVec 16) (s : State) : (setHc n s).settle = s.settle := rfl
@[simp] theorem setHc_seq (n : BitVec 16) (s : State) : (setHc n s).seq = s.seq := rfl
@[simp] theorem setHc_pend (n : BitVec 16) (s : State) : (setHc n s).pend = s.pend := rfl
@[simp] theorem setHc_opl (n : BitVec 16) (s : State) : (setHc n s).opl = s.opl := rfl
@[simp] theorem setHc_al (n : BitVec 16) (s : State) : (setHc n s).al = s.al := rfl
@[simp] theorem setHc_bl (n : BitVec 16) (s : State) : (setHc n s).bl = s.bl := rfl
@[simp] theorem setHc_cl (n : BitVec 16) (s : State) : (setHc n s).cl = s.cl := rfl
@[simp] theorem setHc_dlat (n : BitVec 16) (s : State) : (setHc n s).dlat = s.dlat := rfl
@[simp] theorem setHc_slat (n : BitVec 16) (s : State) : (setHc n s).slat = s.slat := rfl
@[simp] theorem setHc_csh (n : BitVec 16) (s : State) : (setHc n s).csh = s.csh := rfl
@[simp] theorem setHc_sclO (n : BitVec 16) (s : State) : (setHc n s).sclO = s.sclO := rfl
@[simp] theorem setHc_sdaO (n : BitVec 16) (s : State) : (setHc n s).sdaO = s.sdaO := rfl
@[simp] theorem setHc_hc (n : BitVec 16) (s : State) : (setHc n s).hc = n := rfl
@[simp] theorem setHc_sr (n : BitVec 16) (s : State) : (setHc n s).sr = s.sr := rfl
@[simp] theorem setHc_bi (n : BitVec 16) (s : State) : (setHc n s).bi = s.bi := rfl
@[simp] theorem setHc_xi (n : BitVec 16) (s : State) : (setHc n s).xi = s.xi := rfl
@[simp] theorem setHc_sc (n : BitVec 16) (s : State) : (setHc n s).sc = s.sc := rfl
@[simp] theorem setHc_req (n : BitVec 16) (s : State) : (setHc n s).req = s.req := rfl
@[simp] theorem setHc_rst (n : BitVec 16) (s : State) : (setHc n s).rst = s.rst := rfl
@[simp] theorem setHc_wrExcl (n : BitVec 16) (s : State) : (setHc n s).wrExcl = s.wrExcl := rfl
@[simp] theorem setHc_rspRx (n : BitVec 16) (s : State) : (setHc n s).rspRx = s.rspRx := rfl
@[simp] theorem setHc_sdaEnv (n : BitVec 16) (s : State) : (setHc n s).sdaEnv = s.sdaEnv := rfl
@[simp] theorem setHc_sclEnv (n : BitVec 16) (s : State) : (setHc n s).sclEnv = s.sclEnv := rfl
@[simp] theorem setHc_draws (n : BitVec 16) (s : State) : (setHc n s).draws = s.draws := rfl
@[simp] theorem setHc_rdata (n : BitVec 16) (s : State) : (setHc n s).rdata = s.rdata := rfl
@[simp] theorem setHc_inputs (n : BitVec 16) (s : State) : (setHc n s).inputs = s.inputs := rfl

/-! ## setSc -/

@[simp] theorem setSc_stat (n : Word) (s : State) : (setSc n s).stat = s.stat := rfl
@[simp] theorem setSc_res (n : Word) (s : State) : (setSc n s).res = s.res := rfl
@[simp] theorem setSc_buf (n : Word) (s : State) : (setSc n s).buf = s.buf := rfl
@[simp] theorem setSc_time (n : Word) (s : State) : (setSc n s).time = s.time := rfl
@[simp] theorem setSc_twDelay (n : Word) (s : State) : (setSc n s).twDelay = s.twDelay := rfl
@[simp] theorem setSc_ie (n : Word) (s : State) : (setSc n s).ie = s.ie := rfl
@[simp] theorem setSc_settle (n : Word) (s : State) : (setSc n s).settle = s.settle := rfl
@[simp] theorem setSc_seq (n : Word) (s : State) : (setSc n s).seq = s.seq := rfl
@[simp] theorem setSc_pend (n : Word) (s : State) : (setSc n s).pend = s.pend := rfl
@[simp] theorem setSc_opl (n : Word) (s : State) : (setSc n s).opl = s.opl := rfl
@[simp] theorem setSc_al (n : Word) (s : State) : (setSc n s).al = s.al := rfl
@[simp] theorem setSc_bl (n : Word) (s : State) : (setSc n s).bl = s.bl := rfl
@[simp] theorem setSc_cl (n : Word) (s : State) : (setSc n s).cl = s.cl := rfl
@[simp] theorem setSc_dlat (n : Word) (s : State) : (setSc n s).dlat = s.dlat := rfl
@[simp] theorem setSc_slat (n : Word) (s : State) : (setSc n s).slat = s.slat := rfl
@[simp] theorem setSc_csh (n : Word) (s : State) : (setSc n s).csh = s.csh := rfl
@[simp] theorem setSc_sclO (n : Word) (s : State) : (setSc n s).sclO = s.sclO := rfl
@[simp] theorem setSc_sdaO (n : Word) (s : State) : (setSc n s).sdaO = s.sdaO := rfl
@[simp] theorem setSc_hc (n : Word) (s : State) : (setSc n s).hc = s.hc := rfl
@[simp] theorem setSc_sr (n : Word) (s : State) : (setSc n s).sr = s.sr := rfl
@[simp] theorem setSc_bi (n : Word) (s : State) : (setSc n s).bi = s.bi := rfl
@[simp] theorem setSc_xi (n : Word) (s : State) : (setSc n s).xi = s.xi := rfl
@[simp] theorem setSc_sc (n : Word) (s : State) : (setSc n s).sc = n := rfl
@[simp] theorem setSc_req (n : Word) (s : State) : (setSc n s).req = s.req := rfl
@[simp] theorem setSc_rst (n : Word) (s : State) : (setSc n s).rst = s.rst := rfl
@[simp] theorem setSc_wrExcl (n : Word) (s : State) : (setSc n s).wrExcl = s.wrExcl := rfl
@[simp] theorem setSc_rspRx (n : Word) (s : State) : (setSc n s).rspRx = s.rspRx := rfl
@[simp] theorem setSc_sdaEnv (n : Word) (s : State) : (setSc n s).sdaEnv = s.sdaEnv := rfl
@[simp] theorem setSc_sclEnv (n : Word) (s : State) : (setSc n s).sclEnv = s.sclEnv := rfl
@[simp] theorem setSc_draws (n : Word) (s : State) : (setSc n s).draws = s.draws := rfl
@[simp] theorem setSc_rdata (n : Word) (s : State) : (setSc n s).rdata = s.rdata := rfl
@[simp] theorem setSc_inputs (n : Word) (s : State) : (setSc n s).inputs = s.inputs := rfl

/-! ## addDraws -/

@[simp] theorem addDraws_stat (n : Nat) (s : State) : (addDraws n s).stat = s.stat := rfl
@[simp] theorem addDraws_res (n : Nat) (s : State) : (addDraws n s).res = s.res := rfl
@[simp] theorem addDraws_buf (n : Nat) (s : State) : (addDraws n s).buf = s.buf := rfl
@[simp] theorem addDraws_time (n : Nat) (s : State) : (addDraws n s).time = s.time := rfl
@[simp] theorem addDraws_twDelay (n : Nat) (s : State) : (addDraws n s).twDelay = s.twDelay := rfl
@[simp] theorem addDraws_ie (n : Nat) (s : State) : (addDraws n s).ie = s.ie := rfl
@[simp] theorem addDraws_settle (n : Nat) (s : State) : (addDraws n s).settle = s.settle := rfl
@[simp] theorem addDraws_seq (n : Nat) (s : State) : (addDraws n s).seq = s.seq := rfl
@[simp] theorem addDraws_pend (n : Nat) (s : State) : (addDraws n s).pend = s.pend := rfl
@[simp] theorem addDraws_opl (n : Nat) (s : State) : (addDraws n s).opl = s.opl := rfl
@[simp] theorem addDraws_al (n : Nat) (s : State) : (addDraws n s).al = s.al := rfl
@[simp] theorem addDraws_bl (n : Nat) (s : State) : (addDraws n s).bl = s.bl := rfl
@[simp] theorem addDraws_cl (n : Nat) (s : State) : (addDraws n s).cl = s.cl := rfl
@[simp] theorem addDraws_dlat (n : Nat) (s : State) : (addDraws n s).dlat = s.dlat := rfl
@[simp] theorem addDraws_slat (n : Nat) (s : State) : (addDraws n s).slat = s.slat := rfl
@[simp] theorem addDraws_csh (n : Nat) (s : State) : (addDraws n s).csh = s.csh := rfl
@[simp] theorem addDraws_sclO (n : Nat) (s : State) : (addDraws n s).sclO = s.sclO := rfl
@[simp] theorem addDraws_sdaO (n : Nat) (s : State) : (addDraws n s).sdaO = s.sdaO := rfl
@[simp] theorem addDraws_hc (n : Nat) (s : State) : (addDraws n s).hc = s.hc := rfl
@[simp] theorem addDraws_sr (n : Nat) (s : State) : (addDraws n s).sr = s.sr := rfl
@[simp] theorem addDraws_bi (n : Nat) (s : State) : (addDraws n s).bi = s.bi := rfl
@[simp] theorem addDraws_xi (n : Nat) (s : State) : (addDraws n s).xi = s.xi := rfl
@[simp] theorem addDraws_sc (n : Nat) (s : State) : (addDraws n s).sc = s.sc := rfl
@[simp] theorem addDraws_req (n : Nat) (s : State) : (addDraws n s).req = s.req := rfl
@[simp] theorem addDraws_rst (n : Nat) (s : State) : (addDraws n s).rst = s.rst := rfl
@[simp] theorem addDraws_wrExcl (n : Nat) (s : State) : (addDraws n s).wrExcl = s.wrExcl := rfl
@[simp] theorem addDraws_rspRx (n : Nat) (s : State) : (addDraws n s).rspRx = s.rspRx := rfl
@[simp] theorem addDraws_sdaEnv (n : Nat) (s : State) : (addDraws n s).sdaEnv = s.sdaEnv := rfl
@[simp] theorem addDraws_sclEnv (n : Nat) (s : State) : (addDraws n s).sclEnv = s.sclEnv := rfl
@[simp] theorem addDraws_draws (n : Nat) (s : State) : (addDraws n s).draws = s.draws + n := rfl
@[simp] theorem addDraws_rdata (n : Nat) (s : State) : (addDraws n s).rdata = s.rdata := rfl
@[simp] theorem addDraws_inputs (n : Nat) (s : State) : (addDraws n s).inputs = s.inputs := rfl

@[simp] theorem setSeq_setSeq (q r : Seq) (s : State) : setSeq q (setSeq r s) = setSeq q s := rfl
@[simp] theorem setHc_setHc (m n : BitVec 16) (s : State) : setHc m (setHc n s) = setHc m s := rfl
@[simp] theorem setSc_setSc (m n : Word) (s : State) : setSc m (setSc n s) = setSc m s := rfl
@[simp] theorem addDraws_addDraws (m n : Nat) (s : State) : addDraws m (addDraws n s) = addDraws (n + m) s := by
  simp [addDraws, Nat.add_assoc]
@[simp] theorem setSeq_self (s : State) : setSeq s.seq s = s := rfl
@[simp] theorem setHc_self (s : State) : setHc s.hc s = s := rfl
theorem setSeq_eq_self (q : Seq) (s : State) (h : s.seq = q) : setSeq q s = s := by subst h; rfl
theorem setHc_eq_self (n : BitVec 16) (s : State) (h : s.hc = n) : setHc n s = s := by subst h; rfl
theorem setHc_addDraws (m : BitVec 16) (n : Nat) (s : State) : setHc m (addDraws n s) = addDraws n (setHc m s) := rfl

end Sys2Proof.Machine
end

