-- ==== Sys2Proof/Laws/Sequencer.lean ====
section
/-! SUPPORT. What the sequencer can do: the frame of its statements, one lemma for each head of a rule, and the D cycles of a
phase. -/

namespace Sys2Proof.Machine

/-! ## What completing and time decoding leave alone -/

@[simp] theorem timeDecodeAndComplete_twDelay (s : State) : (timeDecodeAndComplete s).twDelay = s.twDelay := by
  unfold timeDecodeAndComplete raiseErr; split <;> rfl
@[simp] theorem timeDecodeAndComplete_ie (s : State) : (timeDecodeAndComplete s).ie = s.ie := by
  unfold timeDecodeAndComplete raiseErr; split <;> rfl
@[simp] theorem timeDecodeAndComplete_settle (s : State) : (timeDecodeAndComplete s).settle = s.settle := by
  unfold timeDecodeAndComplete raiseErr; split <;> rfl
@[simp] theorem timeDecodeAndComplete_pend (s : State) : (timeDecodeAndComplete s).pend = s.pend := by
  unfold timeDecodeAndComplete raiseErr; split <;> rfl
@[simp] theorem timeDecodeAndComplete_opl (s : State) : (timeDecodeAndComplete s).opl = s.opl := by
  unfold timeDecodeAndComplete raiseErr; split <;> rfl
@[simp] theorem timeDecodeAndComplete_al (s : State) : (timeDecodeAndComplete s).al = s.al := by
  unfold timeDecodeAndComplete raiseErr; split <;> rfl
@[simp] theorem timeDecodeAndComplete_bl (s : State) : (timeDecodeAndComplete s).bl = s.bl := by
  unfold timeDecodeAndComplete raiseErr; split <;> rfl
@[simp] theorem timeDecodeAndComplete_cl (s : State) : (timeDecodeAndComplete s).cl = s.cl := by
  unfold timeDecodeAndComplete raiseErr; split <;> rfl
@[simp] theorem timeDecodeAndComplete_dlat (s : State) : (timeDecodeAndComplete s).dlat = s.dlat := by
  unfold timeDecodeAndComplete raiseErr; split <;> rfl
@[simp] theorem timeDecodeAndComplete_slat (s : State) : (timeDecodeAndComplete s).slat = s.slat := by
  unfold timeDecodeAndComplete raiseErr; split <;> rfl
@[simp] theorem timeDecodeAndComplete_sclO (s : State) : (timeDecodeAndComplete s).sclO = s.sclO := by
  unfold timeDecodeAndComplete raiseErr; split <;> rfl
@[simp] theorem timeDecodeAndComplete_sdaO (s : State) : (timeDecodeAndComplete s).sdaO = s.sdaO := by
  unfold timeDecodeAndComplete raiseErr; split <;> rfl
@[simp] theorem timeDecodeAndComplete_hc (s : State) : (timeDecodeAndComplete s).hc = s.hc := by
  unfold timeDecodeAndComplete raiseErr; split <;> rfl
@[simp] theorem timeDecodeAndComplete_req (s : State) : (timeDecodeAndComplete s).req = s.req := by
  unfold timeDecodeAndComplete raiseErr; split <;> rfl
@[simp] theorem timeDecodeAndComplete_rst (s : State) : (timeDecodeAndComplete s).rst = s.rst := by
  unfold timeDecodeAndComplete raiseErr; split <;> rfl
@[simp] theorem timeDecodeAndComplete_wrExcl (s : State) : (timeDecodeAndComplete s).wrExcl = s.wrExcl := by
  unfold timeDecodeAndComplete raiseErr; split <;> rfl
@[simp] theorem timeDecodeAndComplete_rspRx (s : State) : (timeDecodeAndComplete s).rspRx = s.rspRx := by
  unfold timeDecodeAndComplete raiseErr; split <;> rfl
@[simp] theorem timeDecodeAndComplete_sdaEnv (s : State) : (timeDecodeAndComplete s).sdaEnv = s.sdaEnv := by
  unfold timeDecodeAndComplete raiseErr; split <;> rfl
@[simp] theorem timeDecodeAndComplete_sclEnv (s : State) : (timeDecodeAndComplete s).sclEnv = s.sclEnv := by
  unfold timeDecodeAndComplete raiseErr; split <;> rfl
@[simp] theorem timeDecodeAndComplete_draws (s : State) : (timeDecodeAndComplete s).draws = s.draws := by
  unfold timeDecodeAndComplete raiseErr; split <;> rfl
@[simp] theorem timeDecodeAndComplete_rdata (s : State) : (timeDecodeAndComplete s).rdata = s.rdata := by
  unfold timeDecodeAndComplete raiseErr; split <;> rfl
@[simp] theorem timeDecodeAndComplete_inputs (s : State) : (timeDecodeAndComplete s).inputs = s.inputs := by
  unfold timeDecodeAndComplete raiseErr; split <;> rfl
@[simp] theorem timeDecodeAndComplete_buf (s : State) : (timeDecodeAndComplete s).buf = s.buf := by
  unfold timeDecodeAndComplete raiseErr; split <;> rfl
@[simp] theorem timeDecodeAndComplete_res (s : State) : (timeDecodeAndComplete s).res = s.res := by
  unfold timeDecodeAndComplete raiseErr; split <;> rfl
@[simp] theorem timeDecodeAndComplete_csh (s : State) : (timeDecodeAndComplete s).csh = s.csh := by
  unfold timeDecodeAndComplete raiseErr; split <;> rfl
@[simp] theorem timeDecodeAndComplete_sr (s : State) : (timeDecodeAndComplete s).sr = s.sr := by
  unfold timeDecodeAndComplete raiseErr; split <;> rfl
@[simp] theorem timeDecodeAndComplete_bi (s : State) : (timeDecodeAndComplete s).bi = s.bi := by
  unfold timeDecodeAndComplete raiseErr; split <;> rfl
@[simp] theorem timeDecodeAndComplete_xi (s : State) : (timeDecodeAndComplete s).xi = s.xi := by
  unfold timeDecodeAndComplete raiseErr; split <;> rfl
@[simp] theorem timeDecodeAndComplete_sc (s : State) : (timeDecodeAndComplete s).sc = s.sc := by
  unfold timeDecodeAndComplete raiseErr; split <;> rfl

/-! ## The frame of a statement that takes no cycle -/

@[simp] theorem runAct_twDelay (p : Params) (a : Act) (s : State) : (runAct p a s).twDelay = s.twDelay := by
  cases a <;> simp only [runAct] <;> (try split) <;> simp
@[simp] theorem runAct_ie (p : Params) (a : Act) (s : State) : (runAct p a s).ie = s.ie := by
  cases a <;> simp only [runAct] <;> (try split) <;> simp
@[simp] theorem runAct_settle (p : Params) (a : Act) (s : State) : (runAct p a s).settle = s.settle := by
  cases a <;> simp only [runAct] <;> (try split) <;> simp
@[simp] theorem runAct_pend (p : Params) (a : Act) (s : State) : (runAct p a s).pend = s.pend := by
  cases a <;> simp only [runAct] <;> (try split) <;> simp
@[simp] theorem runAct_opl (p : Params) (a : Act) (s : State) : (runAct p a s).opl = s.opl := by
  cases a <;> simp only [runAct] <;> (try split) <;> simp
@[simp] theorem runAct_al (p : Params) (a : Act) (s : State) : (runAct p a s).al = s.al := by
  cases a <;> simp only [runAct] <;> (try split) <;> simp
@[simp] theorem runAct_bl (p : Params) (a : Act) (s : State) : (runAct p a s).bl = s.bl := by
  cases a <;> simp only [runAct] <;> (try split) <;> simp
@[simp] theorem runAct_cl (p : Params) (a : Act) (s : State) : (runAct p a s).cl = s.cl := by
  cases a <;> simp only [runAct] <;> (try split) <;> simp
@[simp] theorem runAct_dlat (p : Params) (a : Act) (s : State) : (runAct p a s).dlat = s.dlat := by
  cases a <;> simp only [runAct] <;> (try split) <;> simp
@[simp] theorem runAct_slat (p : Params) (a : Act) (s : State) : (runAct p a s).slat = s.slat := by
  cases a <;> simp only [runAct] <;> (try split) <;> simp
@[simp] theorem runAct_sclO (p : Params) (a : Act) (s : State) : (runAct p a s).sclO = s.sclO := by
  cases a <;> simp only [runAct] <;> (try split) <;> simp
@[simp] theorem runAct_sdaO (p : Params) (a : Act) (s : State) : (runAct p a s).sdaO = s.sdaO := by
  cases a <;> simp only [runAct] <;> (try split) <;> simp
@[simp] theorem runAct_hc (p : Params) (a : Act) (s : State) : (runAct p a s).hc = s.hc := by
  cases a <;> simp only [runAct] <;> (try split) <;> simp
@[simp] theorem runAct_req (p : Params) (a : Act) (s : State) : (runAct p a s).req = s.req := by
  cases a <;> simp only [runAct] <;> (try split) <;> simp
@[simp] theorem runAct_rst (p : Params) (a : Act) (s : State) : (runAct p a s).rst = s.rst := by
  cases a <;> simp only [runAct] <;> (try split) <;> simp
@[simp] theorem runAct_wrExcl (p : Params) (a : Act) (s : State) : (runAct p a s).wrExcl = s.wrExcl := by
  cases a <;> simp only [runAct] <;> (try split) <;> simp
@[simp] theorem runAct_rspRx (p : Params) (a : Act) (s : State) : (runAct p a s).rspRx = s.rspRx := by
  cases a <;> simp only [runAct] <;> (try split) <;> simp
@[simp] theorem runAct_sdaEnv (p : Params) (a : Act) (s : State) : (runAct p a s).sdaEnv = s.sdaEnv := by
  cases a <;> simp only [runAct] <;> (try split) <;> simp
@[simp] theorem runAct_sclEnv (p : Params) (a : Act) (s : State) : (runAct p a s).sclEnv = s.sclEnv := by
  cases a <;> simp only [runAct] <;> (try split) <;> simp
@[simp] theorem runAct_draws (p : Params) (a : Act) (s : State) : (runAct p a s).draws = s.draws := by
  cases a <;> simp only [runAct] <;> (try split) <;> simp
@[simp] theorem runAct_rdata (p : Params) (a : Act) (s : State) : (runAct p a s).rdata = s.rdata := by
  cases a <;> simp only [runAct] <;> (try split) <;> simp
@[simp] theorem runAct_inputs (p : Params) (a : Act) (s : State) : (runAct p a s).inputs = s.inputs := by
  cases a <;> simp only [runAct] <;> (try split) <;> simp
@[simp] theorem timeDecodeAndComplete_stat_overrun (s : State) : (timeDecodeAndComplete s).stat.overrun = s.stat.overrun := by
  unfold timeDecodeAndComplete raiseErr; split <;> rfl
@[simp] theorem runAct_stat_overrun (p : Params) (a : Act) (s : State) : (runAct p a s).stat.overrun = s.stat.overrun := by
  cases a <;> simp only [runAct] <;> (try split) <;> simp
@[simp] theorem timeDecodeAndComplete_stat_devstat (s : State) : (timeDecodeAndComplete s).stat.devstat = s.stat.devstat := by
  unfold timeDecodeAndComplete raiseErr; split <;> rfl
@[simp] theorem runAct_stat_devstat (p : Params) (a : Act) (s : State) : (runAct p a s).stat.devstat = s.stat.devstat := by
  cases a <;> simp only [runAct] <;> (try split) <;> simp
@[simp] theorem timeDecodeAndComplete_stat_devstop (s : State) : (timeDecodeAndComplete s).stat.devstop = s.stat.devstop := by
  unfold timeDecodeAndComplete raiseErr; split <;> rfl
@[simp] theorem runAct_stat_devstop (p : Params) (a : Act) (s : State) : (runAct p a s).stat.devstop = s.stat.devstop := by
  cases a <;> simp only [runAct] <;> (try split) <;> simp

/-! ## The frame of `drain` -/

@[simp] theorem drain_twDelay (p : Params) (rest : List Stmt) (s : State) : (drain p rest s).twDelay = s.twDelay := by
  induction rest generalizing s with
  | nil => rfl
  | cons x rest ih => cases x <;> simp only [drain] <;> (try split) <;> simp [ih]
@[simp] theorem drain_ie (p : Params) (rest : List Stmt) (s : State) : (drain p rest s).ie = s.ie := by
  induction rest generalizing s with
  | nil => rfl
  | cons x rest ih => cases x <;> simp only [drain] <;> (try split) <;> simp [ih]
@[simp] theorem drain_settle (p : Params) (rest : List Stmt) (s : State) : (drain p rest s).settle = s.settle := by
  induction rest generalizing s with
  | nil => rfl
  | cons x rest ih => cases x <;> simp only [drain] <;> (try split) <;> simp [ih]
@[simp] theorem drain_pend (p : Params) (rest : List Stmt) (s : State) : (drain p rest s).pend = s.pend := by
  induction rest generalizing s with
  | nil => rfl
  | cons x rest ih => cases x <;> simp only [drain] <;> (try split) <;> simp [ih]
@[simp] theorem drain_opl (p : Params) (rest : List Stmt) (s : State) : (drain p rest s).opl = s.opl := by
  induction rest generalizing s with
  | nil => rfl
  | cons x rest ih => cases x <;> simp only [drain] <;> (try split) <;> simp [ih]
@[simp] theorem drain_al (p : Params) (rest : List Stmt) (s : State) : (drain p rest s).al = s.al := by
  induction rest generalizing s with
  | nil => rfl
  | cons x rest ih => cases x <;> simp only [drain] <;> (try split) <;> simp [ih]
@[simp] theorem drain_bl (p : Params) (rest : List Stmt) (s : State) : (drain p rest s).bl = s.bl := by
  induction rest generalizing s with
  | nil => rfl
  | cons x rest ih => cases x <;> simp only [drain] <;> (try split) <;> simp [ih]
@[simp] theorem drain_cl (p : Params) (rest : List Stmt) (s : State) : (drain p rest s).cl = s.cl := by
  induction rest generalizing s with
  | nil => rfl
  | cons x rest ih => cases x <;> simp only [drain] <;> (try split) <;> simp [ih]
@[simp] theorem drain_dlat (p : Params) (rest : List Stmt) (s : State) : (drain p rest s).dlat = s.dlat := by
  induction rest generalizing s with
  | nil => rfl
  | cons x rest ih => cases x <;> simp only [drain] <;> (try split) <;> simp [ih]
@[simp] theorem drain_slat (p : Params) (rest : List Stmt) (s : State) : (drain p rest s).slat = s.slat := by
  induction rest generalizing s with
  | nil => rfl
  | cons x rest ih => cases x <;> simp only [drain] <;> (try split) <;> simp [ih]
@[simp] theorem drain_sclO (p : Params) (rest : List Stmt) (s : State) : (drain p rest s).sclO = s.sclO := by
  induction rest generalizing s with
  | nil => rfl
  | cons x rest ih => cases x <;> simp only [drain] <;> (try split) <;> simp [ih]
@[simp] theorem drain_sdaO (p : Params) (rest : List Stmt) (s : State) : (drain p rest s).sdaO = s.sdaO := by
  induction rest generalizing s with
  | nil => rfl
  | cons x rest ih => cases x <;> simp only [drain] <;> (try split) <;> simp [ih]
@[simp] theorem drain_hc (p : Params) (rest : List Stmt) (s : State) : (drain p rest s).hc = s.hc := by
  induction rest generalizing s with
  | nil => rfl
  | cons x rest ih => cases x <;> simp only [drain] <;> (try split) <;> simp [ih]
@[simp] theorem drain_req (p : Params) (rest : List Stmt) (s : State) : (drain p rest s).req = s.req := by
  induction rest generalizing s with
  | nil => rfl
  | cons x rest ih => cases x <;> simp only [drain] <;> (try split) <;> simp [ih]
@[simp] theorem drain_rst (p : Params) (rest : List Stmt) (s : State) : (drain p rest s).rst = s.rst := by
  induction rest generalizing s with
  | nil => rfl
  | cons x rest ih => cases x <;> simp only [drain] <;> (try split) <;> simp [ih]
@[simp] theorem drain_wrExcl (p : Params) (rest : List Stmt) (s : State) : (drain p rest s).wrExcl = s.wrExcl := by
  induction rest generalizing s with
  | nil => rfl
  | cons x rest ih => cases x <;> simp only [drain] <;> (try split) <;> simp [ih]
@[simp] theorem drain_rspRx (p : Params) (rest : List Stmt) (s : State) : (drain p rest s).rspRx = s.rspRx := by
  induction rest generalizing s with
  | nil => rfl
  | cons x rest ih => cases x <;> simp only [drain] <;> (try split) <;> simp [ih]
@[simp] theorem drain_sdaEnv (p : Params) (rest : List Stmt) (s : State) : (drain p rest s).sdaEnv = s.sdaEnv := by
  induction rest generalizing s with
  | nil => rfl
  | cons x rest ih => cases x <;> simp only [drain] <;> (try split) <;> simp [ih]
@[simp] theorem drain_sclEnv (p : Params) (rest : List Stmt) (s : State) : (drain p rest s).sclEnv = s.sclEnv := by
  induction rest generalizing s with
  | nil => rfl
  | cons x rest ih => cases x <;> simp only [drain] <;> (try split) <;> simp [ih]
@[simp] theorem drain_draws (p : Params) (rest : List Stmt) (s : State) : (drain p rest s).draws = s.draws := by
  induction rest generalizing s with
  | nil => rfl
  | cons x rest ih => cases x <;> simp only [drain] <;> (try split) <;> simp [ih]
@[simp] theorem drain_rdata (p : Params) (rest : List Stmt) (s : State) : (drain p rest s).rdata = s.rdata := by
  induction rest generalizing s with
  | nil => rfl
  | cons x rest ih => cases x <;> simp only [drain] <;> (try split) <;> simp [ih]
@[simp] theorem drain_inputs (p : Params) (rest : List Stmt) (s : State) : (drain p rest s).inputs = s.inputs := by
  induction rest generalizing s with
  | nil => rfl
  | cons x rest ih => cases x <;> simp only [drain] <;> (try split) <;> simp [ih]
@[simp] theorem drain_stat_overrun (p : Params) (rest : List Stmt) (s : State) : (drain p rest s).stat.overrun = s.stat.overrun := by
  induction rest generalizing s with
  | nil => rfl
  | cons x rest ih => cases x <;> simp only [drain] <;> (try split) <;> simp [ih]
@[simp] theorem drain_stat_devstat (p : Params) (rest : List Stmt) (s : State) : (drain p rest s).stat.devstat = s.stat.devstat := by
  induction rest generalizing s with
  | nil => rfl
  | cons x rest ih => cases x <;> simp only [drain] <;> (try split) <;> simp [ih]
@[simp] theorem drain_stat_devstop (p : Params) (rest : List Stmt) (s : State) : (drain p rest s).stat.devstop = s.stat.devstop := by
  induction rest generalizing s with
  | nil => rfl
  | cons x rest ih => cases x <;> simp only [drain] <;> (try split) <;> simp [ih]

/-! ## `drain` at each head -/

@[simp] theorem drain_at_phase (p : Params) (l : Line) (v : BitSource) (rest : List Stmt) (s : State) :
    drain p (.phase l v :: rest) s = setSeq (.run (.phase l v :: rest)) s := rfl

@[simp] theorem drain_at_xfer (p : Params) (f : Frame) (rest : List Stmt) (s : State) :
    drain p (.xfer f :: rest) s = setSeq (.run (.xfer f :: rest)) s := rfl

theorem drain_at_settle (p : Params) (rest : List Stmt) (s : State) :
    drain p (.settle :: rest) s = if s.sc = 0 then drain p rest s else setSeq (.run (.settle :: rest)) s := rfl

/-- A statement that does not end the op: the draining goes on. -/
theorem drain_act_run (p : Params) (a : Act) (rest later : List Stmt) (s : State)
    (h : (runAct p a (setSeq (.run rest) s)).seq = .run later) :
    drain p (.act a :: rest) s = drain p rest (runAct p a (setSeq (.run rest) s)) := by
  simp [drain, h]

/-- A statement that ends the op: "no statement is performed" after it (00_scope.md R10). -/
theorem drain_act_idle (p : Params) (a : Act) (rest : List Stmt) (s : State)
    (h : (runAct p a (setSeq (.run rest) s)).seq = .idle) :
    drain p (.act a :: rest) s = runAct p a (setSeq (.run rest) s) := by
  simp [drain, h]

/-! ## The block clock -/

/-- `n` cycles of the block clock. -/
def clocks (p : Params) : Nat → State → State
  | 0, s => s
  | n + 1, s => clocks p n (clock p s)

@[simp] theorem clocks_zero (p : Params) (s : State) : clocks p 0 s = s := rfl

@[simp] theorem clocks_succ (p : Params) (n : Nat) (s : State) : clocks p (n + 1) s = clocks p n (clock p s) := rfl

theorem clocks_add (p : Params) (m n : Nat) (s : State) : clocks p (m + n) s = clocks p n (clocks p m s) := by
  induction m generalizing s with
  | zero => simp
  | succ m ih => rw [show m + 1 + n = (m + n) + 1 by omega, clocks_succ, ih, clocks_succ]

theorem clocks_succ_last (p : Params) (n : Nat) (s : State) : clocks p (n + 1) s = clock p (clocks p n s) := by
  rw [clocks_add]; rfl

/-- While a request is pending the sequencer holds (10_state.md R45). -/
theorem clock_of_pend (p : Params) (s : State) (h : s.pend = true) : clock p s = addDraws 1 s := by
  simp [clock, h]

/-- An idle block's clock only draws the free levels anew. -/
theorem clock_of_idle (p : Params) (s : State) (h : s.seq = .idle) : clock p s = addDraws 1 s := by
  unfold clock; split <;> simp [h]

/-- The clock of a running op that neither is reset nor waits for a reply. -/
theorem clock_of_run (p : Params) (s : State) (rule : List Stmt) (hr : s.rst = false) (hp : s.pend = false)
    (hs : s.seq = .run rule) : clock p s = addDraws 1 (seqCycle p rule s) := by
  simp [clock, hr, hp, hs]

/-- One cycle at a phase. -/
theorem clock_at_phase (p : Params) (s : State) (l : Line) (v : BitSource) (rest : List Stmt) (hr : s.rst = false)
    (hp : s.pend = false) (hs : s.seq = .run (.phase l v :: rest)) :
    clock p s = addDraws 1 (phaseCycle p l v rest s) := by
  rw [clock_of_run p s _ hr hp hs]
  simp only [seqCycle, drain_at_phase, setSeq_eq_self _ _ hs, hs]

/-- One cycle at a frame raises the request. -/
theorem clock_at_xfer (p : Params) (s : State) (f : Frame) (rest : List Stmt) (hr : s.rst = false)
    (hp : s.pend = false) (hs : s.seq = .run (.xfer f :: rest)) :
    clock p s = addDraws 1 (raiseRequest p f s) := by
  rw [clock_of_run p s _ hr hp hs]
  simp only [seqCycle, drain_at_xfer, setSeq_eq_self _ _ hs, hs]

/-- One cycle of a settle whose counter has not run out (42_serial.md R185). -/
theorem clock_at_settle (p : Params) (s : State) (rest : List Stmt) (hr : s.rst = false) (hp : s.pend = false)
    (hs : s.seq = .run (.settle :: rest)) (hc : s.sc ≠ 0) :
    clock p s = addDraws 1 (drain p (.settle :: rest) (setSc (s.sc - 1) s)) := by
  have h : drain p (.settle :: rest) s = s := by rw [drain_at_settle, if_neg hc, setSeq_eq_self _ _ hs]
  rw [clock_of_run p s _ hr hp hs]
  simp only [seqCycle, h, hs]

/-- The first cycle of a phase longer than one cycle, a cycle in the middle of a hold, and the last cycle of each kind. -/
theorem phaseCycle_first (p : Params) (l : Line) (v : BitSource) (rest : List Stmt) (s : State) (h0 : s.hc = 0)
    (hlt : 1 < s.dlat.toNat) : phaseCycle p l v rest s = setHc (s.dlat - 1) (setLine l (bitValue v s) s) := by
  simp [phaseCycle, h0, hlt]

theorem phaseCycle_hold (p : Params) (l : Line) (v : BitSource) (rest : List Stmt) (s : State) (hlt : 1 < s.hc.toNat) :
    phaseCycle p l v rest s = setHc (s.hc - 1) s := by
  have h0 : s.hc ≠ 0 := fun h => by simp [h] at hlt
  simp only [phaseCycle, if_neg h0, if_pos hlt]

theorem phaseCycle_last (p : Params) (l : Line) (v : BitSource) (rest : List Stmt) (s : State) (h1 : s.hc = 1) :
    phaseCycle p l v rest s = drain p rest (setHc 0 s) := by
  simp [phaseCycle, h1]

theorem phaseCycle_only (p : Params) (l : Line) (v : BitSource) (rest : List Stmt) (s : State) (h0 : s.hc = 0)
    (hge : s.dlat.toNat ≤ 1) : phaseCycle p l v rest s = drain p rest (setLine l (bitValue v s) s) := by
  have hn : ¬ 1 < s.dlat.toNat := by omega
  simp only [phaseCycle, if_pos h0, setHc_hc, if_neg hn, setHc_setHc]
  rw [setHc_eq_self 0 _ (by simpa using h0)]

/-- The first `k + 1` cycles of a phase that is longer than that: the line is set, and held, while HC counts down. -/
theorem clocks_in_phase (p : Params) (s : State) (l : Line) (v : BitSource) (rest : List Stmt) (hr : s.rst = false)
    (hp : s.pend = false) (hs : s.seq = .run (.phase l v :: rest)) (h0 : s.hc = 0) (k : Nat)
    (hk : k + 1 < s.dlat.toNat) :
    clocks p (k + 1) s = addDraws (k + 1) (setHc (s.dlat - BitVec.ofNat 16 (k + 1)) (setLine l (bitValue v s) s)) := by
  induction k with
  | zero =>
    rw [clocks_succ, clocks_zero, clock_at_phase p s l v rest hr hp hs, phaseCycle_first p l v rest s h0 hk]
    rfl
  | succ k ih =>
    have hn : 1 < (s.dlat - BitVec.ofNat 16 (k + 1)).toNat := by bv_omega
    have hd : s.dlat - BitVec.ofNat 16 (k + 1) - 1 = s.dlat - BitVec.ofNat 16 (k + 1 + 1) := by bv_omega
    rw [clocks_succ_last, ih (by omega),
      clock_at_phase p _ l v rest (by simpa using hr) (by simpa using hp) (by simpa using hs),
      phaseCycle_hold p l v rest _ (by simpa only [addDraws_hc, setHc_hc] using hn),
      addDraws_hc, setHc_hc, setHc_addDraws, setHc_setHc, addDraws_addDraws, hd]

/-- A whole phase, D = DLAT cycles: the line is set, held, and at the end of the hold the statements after the phase are
performed (41_twowire.md R142, R143). -/
theorem clocks_phase (p : Params) (s : State) (l : Line) (v : BitSource) (rest : List Stmt) (hr : s.rst = false)
    (hp : s.pend = false) (hs : s.seq = .run (.phase l v :: rest)) (h0 : s.hc = 0) (hd : 1 ≤ s.dlat.toNat) :
    clocks p s.dlat.toNat s =
      addDraws 1 (drain p rest (addDraws (s.dlat.toNat - 1) (setLine l (bitValue v s) s))) := by
  obtain ⟨d, hd'⟩ : ∃ d, s.dlat.toNat = d + 1 := ⟨s.dlat.toNat - 1, by omega⟩
  rw [hd']
  cases d with
  | zero =>
    rw [clocks_succ, clocks_zero, clock_at_phase p s l v rest hr hp hs, phaseCycle_only p l v rest s h0 (by omega)]
    rfl
  | succ d =>
    have h1 : s.dlat - BitVec.ofNat 16 (d + 1) = 1 := by bv_omega
    rw [clocks_succ_last, clocks_in_phase p s l v rest hr hp hs h0 d (by omega),
      clock_at_phase p _ l v rest (by simpa using hr) (by simpa using hp) (by simpa using hs),
      phaseCycle_last p l v rest _ (by simpa only [addDraws_hc, setHc_hc] using h1),
      setHc_addDraws, setHc_setHc, setHc_eq_self 0 _ (by simpa using h0)]
    rfl

end Sys2Proof.Machine
end

