-- ==== Sys2Proof/Laws/Step.lean ====
section
/-! SUPPORT. One step, and runs of steps in which nothing but the block's clock moves. -/

namespace Sys2Proof.Machine

open Host (Outcome)

/-- With nothing queued, a step is a cycle of the block's clock. -/
theorem step_of_no_inputs (s : State) (h : s.inputs = []) : step s = .next (clock Config.params s) := by
  simp [step, stepWith, h]

/-- With something queued, a step performs it. -/
theorem step_of_inputs (s : State) (e : Input) (later : List Input) (h : s.inputs = e :: later) :
    step s = perform Config.params e { s with inputs := later } := by
  simp [step, stepWith, h]

@[simp] theorem phaseCycle_inputs (p : Params) (l : Line) (v : BitSource) (rest : List Stmt) (s : State) :
    (phaseCycle p l v rest s).inputs = s.inputs := by
  unfold phaseCycle
  split <;> dsimp only <;> split <;> simp

@[simp] theorem seqCycle_inputs (p : Params) (rule : List Stmt) (s : State) :
    (seqCycle p rule s).inputs = s.inputs := by
  simp only [seqCycle]; split <;> simp

@[simp] theorem clock_inputs (p : Params) (s : State) : (clock p s).inputs = s.inputs := by
  unfold clock; split
  · simp
  · split <;> simp

@[simp] theorem clocks_inputs (p : Params) (n : Nat) (s : State) : (clocks p n s).inputs = s.inputs := by
  induction n generalizing s with
  | zero => rfl
  | succ n ih => simp [ih]

/-- A run of `n` steps with nothing queued is `n` cycles of the block's clock. -/
theorem runsTo_clocks (n : Nat) (s : State) (h : s.inputs = []) : runsTo n s (clocks Config.params n s) := by
  induction n generalizing s with
  | zero => rfl
  | succ n ih =>
    have hstep : Sys2Proof.core.step s = .next (clock Config.params s) := step_of_no_inputs s h
    simpa [runsTo, Host.Core.run, hstep] using ih (clock Config.params s) (by simpa using h)

/-- One step more at the front of a run. -/
theorem runsTo_step (n : Nat) (s t u : State) (h : step s = .next t) (hr : runsTo n t u) : runsTo (n + 1) s u := by
  have hstep : Sys2Proof.core.step s = .next t := h
  simpa [runsTo, Host.Core.run, hstep] using hr

/-- Runs one after the other. -/
theorem runsTo_add (m n : Nat) (s t u : State) (h : runsTo m s t) (hr : runsTo n t u) : runsTo (m + n) s u := by
  induction m generalizing s with
  | zero =>
    have : s = t := Outcome.next.inj h
    subst this
    simpa using hr
  | succ m ih =>
    rw [show m + 1 + n = (m + n) + 1 by omega]
    cases hs : Sys2Proof.core.step s with
    | next s' => exact runsTo_step (m + n) s s' u hs (ih s' (by simpa [runsTo, Host.Core.run, hs] using h))
    | fault r => simp [runsTo, Host.Core.run, hs] at h
    | refused r => simp [runsTo, Host.Core.run, hs] at h

end Sys2Proof.Machine
end

