-- ==== Sys2Proof/Laws/TwoWire.lean ====
section
/-! SUPPORT. Whole phase lists: what any number of phases, with the statements between them, leaves at the end, and what the
outputs show in every cycle on the way. -/

namespace Sys2Proof.Machine

/-! ## Phase lists, without cycles -/

/-- A statement of a phase list: a phase, or a statement that neither ends the op nor looks at SEQ. -/
def Stmt.inPhaseList : Stmt → Bool
  | .phase _ _ => true
  | .act (.loadSr _) => true
  | .act (.setBi _) => true
  | .act (.setXi _) => true
  | .act .sampleSr => true
  | .act .sampleRes => true
  | .act .sampleDiscard => true
  | .act .resFromSr => true
  | .act .bufFromSr => true
  | _ => false

/-- The number of phases of a list. -/
def phaseCount : List Stmt → Nat
  | [] => 0
  | .phase _ _ :: rest => phaseCount rest + 1
  | _ :: rest => phaseCount rest

/-- What one statement of a phase list does where a phase takes `d` cycles. -/
def Stmt.effect (p : Params) (d : Nat) (x : Stmt) (s : State) : State :=
  match x with
  | .phase l v => addDraws d (setLine l (bitValue v s) s)
  | .act a => runAct p a s
  | .xfer _ => s
  | .settle => s

/-- What a phase list does. -/
def effectOf (p : Params) (d : Nat) : List Stmt → State → State
  | [], s => s
  | x :: rest, s => effectOf p d rest (x.effect p d s)

/-- The outputs (SCL_O, SDA_O) in each phase of a list. -/
def levelsOf (p : Params) (d : Nat) : List Stmt → State → List (Bool × Bool)
  | [], _ => []
  | .phase l v :: rest, s =>
    let t := Stmt.effect p d (.phase l v) s
    (t.sclO, t.sdaO) :: levelsOf p d rest t
  | x :: rest, s => levelsOf p d rest (x.effect p d s)

@[simp] theorem phaseCount_append (xs ys : List Stmt) : phaseCount (xs ++ ys) = phaseCount xs + phaseCount ys := by
  induction xs with
  | nil => simp [phaseCount]
  | cons x xs ih => cases x <;> simp [phaseCount, ih]; omega

@[simp] theorem effectOf_append (p : Params) (d : Nat) (xs ys : List Stmt) (s : State) :
    effectOf p d (xs ++ ys) s = effectOf p d ys (effectOf p d xs s) := by
  induction xs generalizing s with
  | nil => rfl
  | cons x xs ih => simp [effectOf, ih]

theorem levelsOf_append (p : Params) (d : Nat) (xs ys : List Stmt) (s : State) :
    levelsOf p d (xs ++ ys) s = levelsOf p d xs s ++ levelsOf p d ys (effectOf p d xs s) := by
  induction xs generalizing s with
  | nil => rfl
  | cons x xs ih => cases x <;> simp [levelsOf, effectOf, ih]

@[simp] theorem length_levelsOf (p : Params) (d : Nat) (xs : List Stmt) (s : State) :
    (levelsOf p d xs s).length = phaseCount xs := by
  induction xs generalizing s with
  | nil => rfl
  | cons x xs ih => cases x <;> simp [levelsOf, phaseCount, ih]

/-! ## SEQ does not matter to a phase list -/

/-- The draining of a statement list does not look at SEQ. -/
theorem drain_setSeq (p : Params) (q : Seq) (rest : List Stmt) (s : State) : drain p rest (setSeq q s) = drain p rest s := by
  induction rest with
  | nil => rfl
  | cons x rest ih =>
    cases x with
    | phase l v => rfl
    | xfer f => rfl
    | act a => rfl
    | settle =>
      rw [drain_at_settle, drain_at_settle, setSeq_sc, ih]
      rfl

/-- A statement of a phase list commutes with a change of SEQ. -/
theorem runAct_setSeq (p : Params) (a : Act) (q : Seq) (s : State) (h : (Stmt.act a).inPhaseList = true) :
    runAct p a (setSeq q s) = setSeq q (runAct p a s) := by
  cases a <;> simp_all [Stmt.inPhaseList, runAct, setSeq, byteValue, sample, sdaLevel]
  unfold setSrBit
  cases s.bi <;> simp

theorem runAct_seq (p : Params) (a : Act) (s : State) (h : (Stmt.act a).inPhaseList = true) :
    (runAct p a s).seq = s.seq := by
  cases a <;> simp_all [Stmt.inPhaseList, runAct]

/-- The draining performs a phase list's statement and goes on. -/
theorem drain_act (p : Params) (a : Act) (rest : List Stmt) (s : State) (h : (Stmt.act a).inPhaseList = true) :
    drain p (.act a :: rest) s = drain p rest (runAct p a s) := by
  rw [drain_act_run p a rest rest s (by rw [runAct_seq p a _ h, setSeq_seq]), runAct_setSeq p a _ s h, drain_setSeq]

/-! ## Phase lists, in cycles -/

/-- What a phase list needs of the state it starts in, and keeps. -/
structure State.Phasing (d : Nat) (s : State) : Prop where
  rst : s.rst = false
  pend : s.pend = false
  hc : s.hc = 0
  dlat : s.dlat.toNat = d
  pos : 1 ≤ d

theorem Stmt.effect_phasing (p : Params) (d : Nat) (x : Stmt) (s : State) (h : s.Phasing d) : (x.effect p d s).Phasing d := by
  obtain ⟨h1, h2, h3, h4, h5⟩ := h
  cases x <;> constructor <;> simp_all [Stmt.effect]

theorem effectOf_phasing (p : Params) (d : Nat) (xs : List Stmt) (s : State) (h : s.Phasing d) :
    (effectOf p d xs s).Phasing d := by
  induction xs generalizing s with
  | nil => exact h
  | cons x xs ih => exact ih _ (x.effect_phasing p d s h)

/-- `clocks_phase`, from the end of one phase to the end of the next. -/
theorem clocks_next_phase (p : Params) (d : Nat) (l : Line) (v : BitSource) (rest : List Stmt) (s : State)
    (h : s.Phasing d) :
    clocks p d (addDraws 1 (drain p (.phase l v :: rest) s)) =
      addDraws 1 (drain p rest (addDraws d (setLine l (bitValue v s) s))) := by
  have hd := clocks_phase p (addDraws 1 (setSeq (.run (.phase l v :: rest)) s)) l v rest (by simpa using h.rst)
    (by simpa using h.pend) (by simp) (by simpa using h.hc) (by simpa [h.dlat] using h.pos)
  simp only [addDraws_dlat, setSeq_dlat, h.dlat] at hd
  rw [drain_at_phase, hd]
  obtain ⟨n, rfl⟩ : ∃ n, d = n + 1 := ⟨d - 1, by have := h.pos; omega⟩
  have hb : bitValue v (addDraws 1 (setSeq (.run (.phase l v :: rest)) s)) = bitValue v s := by cases v <;> rfl
  have hs : addDraws (n + 1 - 1) (setLine l (bitValue v s) (addDraws 1 (setSeq (.run (.phase l v :: rest)) s))) =
      setSeq (.run (.phase l v :: rest)) (addDraws (n + 1) (setLine l (bitValue v s) s)) := by
    cases l <;> simp [setLine, addDraws, setSeq, Nat.add_assoc, Nat.add_comm 1]
  rw [hb, hs, drain_setSeq]

/-- From the end of a phase on, a whole phase list: after its number of phases times `d` cycles its effect is there, and the
statements after it are performed. -/
theorem clocks_phases (p : Params) (d : Nat) (xs rest : List Stmt) (s : State) (h : s.Phasing d)
    (hx : ∀ x ∈ xs, x.inPhaseList = true) :
    clocks p (phaseCount xs * d) (addDraws 1 (drain p (xs ++ rest) s)) = addDraws 1 (drain p rest (effectOf p d xs s)) := by
  induction xs generalizing s with
  | nil => simp [phaseCount, effectOf]
  | cons x xs ih =>
    have hxs : ∀ y ∈ xs, y.inPhaseList = true := fun y hy => hx y (List.mem_cons_of_mem _ hy)
    have hh := x.effect_phasing p d s h
    have hxx := hx x List.mem_cons_self
    cases x with
    | phase l v =>
      rw [phaseCount, Nat.succ_mul, Nat.add_comm, clocks_add, List.cons_append, clocks_next_phase p d l v _ s h]
      exact ih _ hh hxs
    | act a =>
      rw [List.cons_append, drain_act p a _ s hxx]
      exact ih _ hh hxs
    | xfer f => simp [Stmt.inPhaseList] at hxx
    | settle => simp [Stmt.inPhaseList] at hxx

/-- What a phase list does from the acceptance of its op on, up to the last cycle but one of its last phase. -/
def firstEffect (p : Params) (d : Nat) : List Stmt → State → State
  | [], s => s
  | .phase l v :: rest, s => effectOf p d rest (addDraws (d - 1) (setLine l (bitValue v s) s))
  | x :: rest, s => firstEffect p d rest (x.effect p d s)

/-- A running op's clock first performs the statements before its next phase. -/
theorem clock_drain (p : Params) (rule : List Stmt) (l : Line) (v : BitSource) (rest : List Stmt) (s : State)
    (hr : s.rst = false) (hp : s.pend = false) (hs : s.seq = .run rule)
    (hd : (drain p rule s).seq = .run (.phase l v :: rest)) : clock p s = clock p (drain p rule s) := by
  rw [clock_of_run p s rule hr hp hs, clock_at_phase p _ l v rest (by simpa using hr) (by simpa using hp) hd]
  simp only [seqCycle, hd]

theorem drain_phaseList_seq (p : Params) (xs rest : List Stmt) (s : State) (hx : ∀ x ∈ xs, x.inPhaseList = true)
    (hc : 0 < phaseCount xs) : ∃ l v later, (drain p (xs ++ rest) s).seq = .run (.phase l v :: later) := by
  induction xs generalizing s with
  | nil => simp [phaseCount] at hc
  | cons x xs ih =>
    have hxx := hx x List.mem_cons_self
    cases x with
    | phase l v => exact ⟨l, v, xs ++ rest, by simp⟩
    | act a =>
      rw [List.cons_append, drain_act p a _ s hxx]
      exact ih _ (fun y hy => hx y (List.mem_cons_of_mem _ hy)) hc
    | xfer f => simp [Stmt.inPhaseList] at hxx
    | settle => simp [Stmt.inPhaseList] at hxx

/-- The first phases, from a drained state. -/
theorem clocks_drained (p : Params) (d : Nat) (xs rest : List Stmt) (s : State) (h : s.Phasing d)
    (hx : ∀ x ∈ xs, x.inPhaseList = true) (hc : 0 < phaseCount xs) :
    clocks p (phaseCount xs * d) (drain p (xs ++ rest) s) = addDraws 1 (drain p rest (firstEffect p d xs s)) := by
  induction xs generalizing s with
  | nil => simp [phaseCount] at hc
  | cons x xs ih =>
    have hxs : ∀ y ∈ xs, y.inPhaseList = true := fun y hy => hx y (List.mem_cons_of_mem _ hy)
    have hxx := hx x List.mem_cons_self
    cases x with
    | phase l v =>
      have hd := clocks_phase p (setSeq (.run (.phase l v :: (xs ++ rest))) s) l v (xs ++ rest) (by simpa using h.rst)
        (by simpa using h.pend) (by simp) (by simpa using h.hc) (by simpa [h.dlat] using h.pos)
      simp only [setSeq_dlat, h.dlat] at hd
      have hs : addDraws (d - 1) (setLine l (bitValue v (setSeq (.run (.phase l v :: (xs ++ rest))) s))
          (setSeq (.run (.phase l v :: (xs ++ rest))) s)) =
          setSeq (.run (.phase l v :: (xs ++ rest))) (addDraws (d - 1) (setLine l (bitValue v s) s)) := by
        cases l <;> cases v <;> rfl
      rw [phaseCount, Nat.succ_mul, Nat.add_comm, clocks_add, List.cons_append, drain_at_phase, hd, hs, drain_setSeq]
      refine clocks_phases p d xs rest _ ?_ hxs
      obtain ⟨h1, h2, h3, h4, h5⟩ := h
      constructor <;> simp_all
    | act a =>
      rw [List.cons_append, drain_act p a _ s hxx]
      exact ih _ (Stmt.effect_phasing p d (.act a) s h) hxs hc
    | xfer f => simp [Stmt.inPhaseList] at hxx
    | settle => simp [Stmt.inPhaseList] at hxx

/-- A whole phase list of an op that has just been accepted. -/
theorem clocks_rule (p : Params) (d : Nat) (xs rest : List Stmt) (s : State) (h : s.Phasing d)
    (hs : s.seq = .run (xs ++ rest)) (hx : ∀ x ∈ xs, x.inPhaseList = true) (hc : 0 < phaseCount xs) :
    clocks p (phaseCount xs * d) s = addDraws 1 (drain p rest (firstEffect p d xs s)) := by
  obtain ⟨l, v, later, hd⟩ := drain_phaseList_seq p xs rest s hx hc
  rw [← clocks_drained p d xs rest s h hx hc]
  obtain ⟨n, hn⟩ : ∃ n, phaseCount xs * d = n + 1 := ⟨phaseCount xs * d - 1, by have := Nat.mul_pos hc h.pos; omega⟩
  rw [hn, clocks_succ, clocks_succ, clock_drain p _ l v later s h.rst h.pend hs hd]

/-! ## The outputs in every cycle -/

/-- The outputs in the cycles of one phase. -/
theorem outputs_in_phase (p : Params) (d : Nat) (l : Line) (v : BitSource) (rest : List Stmt) (s : State) (h : s.Phasing d)
    (hs : s.seq = .run (.phase l v :: rest)) (n : Nat) (h0 : 0 < n) (hn : n ≤ d) :
    (clocks p n s).sclO = (setLine l (bitValue v s) s).sclO ∧ (clocks p n s).sdaO = (setLine l (bitValue v s) s).sdaO := by
  obtain ⟨k, rfl⟩ : ∃ k, n = k + 1 := ⟨n - 1, by omega⟩
  rcases Nat.lt_or_ge (k + 1) d with hk | hk
  · rw [clocks_in_phase p s l v rest h.rst h.pend hs h.hc k (by rw [h.dlat]; exact hk)]
    simp
  · have hd : k + 1 = s.dlat.toNat := by rw [h.dlat]; omega
    rw [hd, clocks_phase p s l v rest h.rst h.pend hs h.hc (by omega)]
    simp

/-- The outputs in the cycles of a phase list, from the end of a phase on. -/
theorem outputs_in_phases (p : Params) (d : Nat) (xs rest : List Stmt) (s : State) (h : s.Phasing d)
    (hx : ∀ x ∈ xs, x.inPhaseList = true) (k : Nat) (hk : k < (levelsOf p d xs s).length) (n : Nat) (h0 : k * d < n)
    (hn : n ≤ (k + 1) * d) :
    ((clocks p n (addDraws 1 (drain p (xs ++ rest) s))).sclO, (clocks p n (addDraws 1 (drain p (xs ++ rest) s))).sdaO) =
      (levelsOf p d xs s)[k] := by
  induction xs generalizing s k n with
  | nil => simp [levelsOf] at hk
  | cons x xs ih =>
    have hxs : ∀ y ∈ xs, y.inPhaseList = true := fun y hy => hx y (List.mem_cons_of_mem _ hy)
    have hh := x.effect_phasing p d s h
    have hxx := hx x List.mem_cons_self
    cases x with
    | phase l v =>
      have hb : bitValue v (addDraws 1 (setSeq (.run (.phase l v :: (xs ++ rest))) s)) = bitValue v s := by cases v <;> rfl
      cases k with
      | zero =>
        have hp : (addDraws 1 (setSeq (.run (.phase l v :: (xs ++ rest))) s)).Phasing d := by
          obtain ⟨h1, h2, h3, h4, h5⟩ := h
          constructor <;> simp_all
        obtain ⟨e1, e2⟩ := outputs_in_phase p d l v (xs ++ rest) _ hp (by simp) n (by omega) (by omega)
        rw [List.cons_append, drain_at_phase, e1, e2, hb]
        cases l <;> simp [levelsOf, Stmt.effect]
      | succ k =>
        have hm := Nat.succ_mul k d
        have hm' := Nat.succ_mul (k + 1) d
        simp only [Nat.succ_eq_add_one] at hm hm'
        obtain ⟨m, rfl⟩ : ∃ m, n = d + m := ⟨n - d, by omega⟩
        rw [List.cons_append, clocks_add, clocks_next_phase p d l v _ s h]
        exact ih _ hh hxs k (by simpa [levelsOf, phaseCount] using hk) m (by omega) (by omega)
    | act a =>
      rw [List.cons_append, drain_act p a _ s hxx]
      exact ih _ hh hxs k (by simpa [levelsOf, phaseCount] using hk) n h0 hn
    | xfer f => simp [Stmt.inPhaseList] at hxx
    | settle => simp [Stmt.inPhaseList] at hxx

/-- The outputs in each phase of a list, from the acceptance of its op on. -/
def firstLevels (p : Params) (d : Nat) : List Stmt → State → List (Bool × Bool)
  | [], _ => []
  | .phase l v :: rest, s =>
    let t := addDraws (d - 1) (setLine l (bitValue v s) s)
    (t.sclO, t.sdaO) :: levelsOf p d rest t
  | x :: rest, s => firstLevels p d rest (x.effect p d s)

@[simp] theorem length_firstLevels (p : Params) (d : Nat) (xs : List Stmt) (s : State) :
    (firstLevels p d xs s).length = phaseCount xs := by
  induction xs generalizing s with
  | nil => rfl
  | cons x xs ih => cases x <;> simp [firstLevels, phaseCount, ih]

theorem outputs_drained (p : Params) (d : Nat) (xs rest : List Stmt) (s : State) (h : s.Phasing d)
    (hx : ∀ x ∈ xs, x.inPhaseList = true) (k : Nat) (hk : k < (firstLevels p d xs s).length) (n : Nat) (h0 : k * d < n)
    (hn : n ≤ (k + 1) * d) :
    ((clocks p n (drain p (xs ++ rest) s)).sclO, (clocks p n (drain p (xs ++ rest) s)).sdaO) =
      (firstLevels p d xs s)[k] := by
  induction xs generalizing s with
  | nil => simp [firstLevels] at hk
  | cons x xs ih =>
    have hxs : ∀ y ∈ xs, y.inPhaseList = true := fun y hy => hx y (List.mem_cons_of_mem _ hy)
    have hxx := hx x List.mem_cons_self
    cases x with
    | phase l v =>
      have hp : (setSeq (.run (.phase l v :: (xs ++ rest))) s).Phasing d := by
        obtain ⟨h1, h2, h3, h4, h5⟩ := h
        constructor <;> simp_all
      have hb : bitValue v (setSeq (.run (.phase l v :: (xs ++ rest))) s) = bitValue v s := by cases v <;> rfl
      rw [List.cons_append, drain_at_phase]
      cases k with
      | zero =>
        obtain ⟨e1, e2⟩ := outputs_in_phase p d l v (xs ++ rest) _ hp (by simp) n (by omega) (by omega)
        rw [e1, e2, hb]
        cases l <;> simp [firstLevels]
      | succ k =>
        have hm := Nat.succ_mul k d
        have hm' := Nat.succ_mul (k + 1) d
        simp only [Nat.succ_eq_add_one] at hm hm'
        obtain ⟨m, rfl⟩ : ∃ m, n = d + m := ⟨n - d, by omega⟩
        have hd := clocks_phase p _ l v (xs ++ rest) hp.rst hp.pend (setSeq_seq _ _) hp.hc (by rw [hp.dlat]; exact hp.pos)
        have hs : addDraws (d - 1) (setLine l (bitValue v s) (setSeq (.run (.phase l v :: (xs ++ rest))) s)) =
            setSeq (.run (.phase l v :: (xs ++ rest))) (addDraws (d - 1) (setLine l (bitValue v s) s)) := by
          cases l <;> rfl
        rw [hp.dlat, hb, hs, drain_setSeq] at hd
        rw [clocks_add, hd]
        refine outputs_in_phases p d xs rest _ ?_ hxs k (by simpa [firstLevels, phaseCount] using hk) m (by omega) (by omega)
        obtain ⟨h1, h2, h3, h4, h5⟩ := h
        constructor <;> simp_all
    | act a =>
      rw [List.cons_append, drain_act p a _ s hxx]
      exact ih _ (Stmt.effect_phasing p d (.act a) s h) hxs (by simpa [firstLevels, phaseCount] using hk)
    | xfer f => simp [Stmt.inPhaseList] at hxx
    | settle => simp [Stmt.inPhaseList] at hxx

/-- The outputs in every cycle of a phase list, from the acceptance of its op on. -/
theorem outputs_of_rule (p : Params) (d : Nat) (xs rest : List Stmt) (s : State) (h : s.Phasing d)
    (hs : s.seq = .run (xs ++ rest)) (hx : ∀ x ∈ xs, x.inPhaseList = true) (k : Nat)
    (hk : k < (firstLevels p d xs s).length) (n : Nat) (h0 : k * d < n) (hn : n ≤ (k + 1) * d) :
    ((clocks p n s).sclO, (clocks p n s).sdaO) = (firstLevels p d xs s)[k] := by
  have hc : 0 < phaseCount xs := by rw [length_firstLevels] at hk; omega
  obtain ⟨l, v, later, hd⟩ := drain_phaseList_seq p xs rest s hx hc
  rw [← outputs_drained p d xs rest s h hx k hk n h0 hn]
  obtain ⟨m, rfl⟩ : ∃ m, n = m + 1 := ⟨n - 1, by omega⟩
  rw [clocks_succ, clocks_succ, clock_drain p _ l v later s h.rst h.pend hs hd]

/-! ## The primitives -/

theorem effectOf_start (p : Params) (d : Nat) (s : State) :
    effectOf p d startList s = { s with sclO := true, sdaO := false, draws := s.draws + 4 * d } := by
  simp only [effectOf, startList, phaseLit, Stmt.effect, bitValue, setLine, addDraws, State.mk.injEq, true_and, and_true]
  omega

theorem effectOf_stop (p : Params) (d : Nat) (s : State) :
    effectOf p d stopList s = { s with sclO := true, sdaO := true, draws := s.draws + 4 * d } := by
  simp only [effectOf, stopList, phaseLit, Stmt.effect, bitValue, setLine, addDraws, State.mk.injEq, true_and, and_true]
  omega

theorem effectOf_wrbit (p : Params) (d : Nat) (v : BitSource) (s : State) :
    effectOf p d (wrbitList v) s = { s with sclO := true, sdaO := bitValue v s, draws := s.draws + 3 * d } := by
  cases v <;>
    simp only [effectOf, wrbitList, phaseLit, Stmt.effect, bitValue, setLine, addDraws, srBit, State.mk.injEq, true_and,
      and_true] <;> omega

theorem rdbitList_eq (use : Act) : rdbitList use = wrbitList (.lit true) ++ [.act use] := rfl

theorem effectOf_rdbit (p : Params) (d : Nat) (use : Act) (s : State) :
    effectOf p d (rdbitList use) s =
      runAct p use { s with sclO := true, sdaO := true, draws := s.draws + 3 * d } := by
  rw [rdbitList_eq, effectOf_append, effectOf_wrbit]
  rfl

theorem levelsOf_start (p : Params) (d : Nat) (s : State) :
    levelsOf p d startList s = WireItem.levels s.sdaO .start := rfl

theorem levelsOf_stop (p : Params) (d : Nat) (s : State) :
    levelsOf p d stopList s = WireItem.levels s.sdaO .stop := rfl

theorem levelsOf_wrbit (p : Params) (d : Nat) (v : BitSource) (s : State) :
    levelsOf p d (wrbitList v) s = WireItem.levels s.sdaO (.bit (bitValue v s)) := by
  cases v <;> rfl

theorem levelsOf_rdbit (p : Params) (d : Nat) (use : Act) (s : State) :
    levelsOf p d (rdbitList use) s = WireItem.levels s.sdaO (.bit true) := rfl

/-! ## Bytes -/

theorem effectOf_sendBit (p : Params) (d : Nat) (i : Fin 8) (s : State) :
    effectOf p d (sendBitList i) s =
      { s with bi := .bit i, sclO := true, sdaO := s.sr.getLsbD i, draws := s.draws + 3 * d } := by
  rw [sendBitList, effectOf, effectOf_wrbit]
  rfl

theorem levelsOf_sendBit (p : Params) (d : Nat) (i : Fin 8) (s : State) :
    levelsOf p d (sendBitList i) s = WireItem.levels s.sdaO (.bit (s.sr.getLsbD i)) := rfl

theorem effectOf_receiveBit (p : Params) (d : Nat) (i : Fin 8) (s : State) :
    effectOf p d (receiveBitList i) s =
      { s with
        bi := .bit i, sclO := true, sdaO := true, draws := s.draws + 3 * d
        sr := setBitAt s.sr i (s.sdaEnv.getD (Config.freeSda (s.draws + 3 * d))) } := by
  rw [receiveBitList, effectOf, effectOf_rdbit]
  simp [Stmt.effect, runAct, setSrBit, sample, sdaLevel]

theorem levelsOf_receiveBit (p : Params) (d : Nat) (i : Fin 8) (s : State) :
    levelsOf p d (receiveBitList i) s = WireItem.levels s.sdaO (.bit true) := rfl

/-- Nine bits of `3 * d` cycles each. -/
theorem nine_times (n d : Nat) :
    n + 3 * d + 3 * d + 3 * d + 3 * d + 3 * d + 3 * d + 3 * d + 3 * d + 3 * d = n + 27 * d := by omega

/-- WRBYTE: the byte is in SR, BI is past it, and the acknowledge is read at the end. -/
theorem effectOf_wrbyte (p : Params) (d : Nat) (v : ByteSource) (ack : Act) (s : State) :
    effectOf p d (wrbyteList v ack) s =
      runAct p ack
        { s with sr := byteValue v s, bi := .ack, sclO := true, sdaO := true, draws := s.draws + 27 * d } := by
  simp only [wrbyteList, List.cons_append, effectOf, bitsDown, List.flatMap_cons, List.flatMap_nil, List.append_nil,
    List.append_assoc, effectOf_append, effectOf_sendBit, effectOf_rdbit]
  simp only [Stmt.effect, runAct, nine_times]

theorem levelsOf_wrbyte (p : Params) (d : Nat) (v : ByteSource) (ack : Act) (s : State) :
    levelsOf p d (wrbyteList v ack) s = waveform s.sdaO (sentByte (byteValue v s)) := by
  simp only [wrbyteList, List.cons_append, bitsDown, List.flatMap_cons, List.flatMap_nil, List.append_nil,
    List.append_assoc, levelsOf, levelsOf_append, levelsOf_sendBit, levelsOf_rdbit, effectOf_sendBit]
  rfl

/-- The level the environment gives the released data line after `n` more draws. -/
def levelAfter (s : State) (n : Nat) : Bool := s.sdaEnv.getD (Config.freeSda (s.draws + n))

/-- The byte that eight RDBITs of `3 * d` cycles each read, most significant bit first. -/
def byteRead (d : Nat) (s : State) : Byte :=
  bitsDown.foldl (fun (x : Byte) (i : Fin 8) => setBitAt x i (levelAfter s (3 * (8 - i) * d))) s.sr

theorem getLsbD_byteRead (d : Nat) (s : State) (n : Nat) (hn : n < 8) :
    (byteRead d s).getLsbD n = levelAfter s (3 * (8 - n) * d) := by
  simp only [byteRead, bitsDown, List.foldl_cons, List.foldl_nil, getLsbD_setBitAt _ _ _ _ hn]
  interval_cases n <;> simp

/-- RDBYTE: the byte read is in SR, BI is past it, and the ninth bit is sent. -/
theorem effectOf_rdbyte (p : Params) (d : Nat) (n : BitSource) (s : State) (hn : n ≠ .srAtBi) :
    effectOf p d (rdbyteList n) s =
      { s with
        sr := byteRead d s, bi := .ack, sclO := true, sdaO := bitValue n s, draws := s.draws + 27 * d } := by
  simp only [rdbyteList, bitsDown, List.flatMap_cons, List.flatMap_nil, List.append_nil, List.append_assoc, effectOf_append,
    effectOf_receiveBit, effectOf, effectOf_wrbit]
  have h2 : ∀ k, s.draws + k * d + 3 * d = s.draws + (k + 3) * d := fun k => by rw [Nat.add_mul]; omega
  cases n with
  | lit b => simp only [Stmt.effect, runAct, bitValue, byteRead, levelAfter, bitsDown, h2, List.foldl_cons, List.foldl_nil]; rfl
  | al0 => simp only [Stmt.effect, runAct, bitValue, byteRead, levelAfter, bitsDown, h2, List.foldl_cons, List.foldl_nil]; rfl
  | srAtBi => exact absurd rfl hn

theorem levelsOf_rdbyte (p : Params) (d : Nat) (n : BitSource) (s : State) (hn : n ≠ .srAtBi) :
    levelsOf p d (rdbyteList n) s = waveform s.sdaO (receivedByte (bitValue n s)) := by
  simp only [rdbyteList, bitsDown, List.flatMap_cons, List.flatMap_nil, List.append_nil, List.append_assoc, levelsOf,
    levelsOf_append, levelsOf_receiveBit, levelsOf_wrbit, effectOf_receiveBit]
  cases n with
  | lit b => rfl
  | al0 => rfl
  | srAtBi => exact absurd rfl hn

/-! ## The same, from the acceptance of an op on -/

theorem firstEffect_append (p : Params) (d : Nat) (xs ys : List Stmt) (s : State) (hc : 0 < phaseCount xs) :
    firstEffect p d (xs ++ ys) s = effectOf p d ys (firstEffect p d xs s) := by
  induction xs generalizing s with
  | nil => simp [phaseCount] at hc
  | cons x xs ih =>
    cases x with
    | phase l v => simp [firstEffect]
    | act a => exact ih _ hc
    | xfer f => exact ih _ hc
    | settle => exact ih _ hc

theorem firstLevels_append (p : Params) (d : Nat) (xs ys : List Stmt) (s : State) (hc : 0 < phaseCount xs) :
    firstLevels p d (xs ++ ys) s = firstLevels p d xs s ++ levelsOf p d ys (firstEffect p d xs s) := by
  induction xs generalizing s with
  | nil => simp [phaseCount] at hc
  | cons x xs ih =>
    cases x with
    | phase l v => simp [firstLevels, firstEffect, levelsOf_append]
    | act a => exact ih _ hc
    | xfer f => exact ih _ hc
    | settle => exact ih _ hc

theorem firstEffect_start (p : Params) (d : Nat) (s : State) (hd : 1 ≤ d) :
    firstEffect p d startList s = { s with sclO := true, sdaO := false, draws := s.draws + (4 * d - 1) } := by
  simp only [firstEffect, effectOf, startList, phaseLit, Stmt.effect, bitValue, setLine, addDraws, State.mk.injEq, true_and,
    and_true]
  omega

theorem firstEffect_stop (p : Params) (d : Nat) (s : State) (hd : 1 ≤ d) :
    firstEffect p d stopList s = { s with sclO := true, sdaO := true, draws := s.draws + (4 * d - 1) } := by
  simp only [firstEffect, effectOf, stopList, phaseLit, Stmt.effect, bitValue, setLine, addDraws, State.mk.injEq, true_and,
    and_true]
  omega

theorem firstEffect_wrbit (p : Params) (d : Nat) (v : BitSource) (s : State) (hd : 1 ≤ d) :
    firstEffect p d (wrbitList v) s =
      { s with sclO := true, sdaO := bitValue v s, draws := s.draws + (3 * d - 1) } := by
  cases v <;>
    simp only [firstEffect, effectOf, wrbitList, phaseLit, Stmt.effect, bitValue, setLine, addDraws, srBit, State.mk.injEq,
      true_and, and_true] <;> omega

theorem firstEffect_rdbit (p : Params) (d : Nat) (use : Act) (s : State) (hd : 1 ≤ d) :
    firstEffect p d (rdbitList use) s =
      runAct p use { s with sclO := true, sdaO := true, draws := s.draws + (3 * d - 1) } := by
  rw [rdbitList_eq, firstEffect_append _ _ _ _ _ (by decide), firstEffect_wrbit p d _ s hd]
  rfl

theorem firstEffect_wrbyte (p : Params) (d : Nat) (v : ByteSource) (ack : Act) (s : State) (hd : 1 ≤ d) :
    firstEffect p d (wrbyteList v ack) s =
      runAct p ack
        { s with sr := byteValue v s, bi := .ack, sclO := true, sdaO := true, draws := s.draws + (27 * d - 1) } := by
  have h9 : ∀ n, n + (3 * d - 1) + 3 * d + 3 * d + 3 * d + 3 * d + 3 * d + 3 * d + 3 * d + 3 * d = n + (27 * d - 1) :=
    fun n => by omega
  simp only [wrbyteList, List.cons_append, bitsDown, List.flatMap_cons, List.flatMap_nil, List.append_nil,
    List.append_assoc, firstEffect, sendBitList]
  rw [firstEffect_append _ _ _ _ _ (by decide), firstEffect_wrbit p d _ _ hd]
  simp only [effectOf, Stmt.effect, runAct, effectOf_append, effectOf_wrbit, effectOf_rdbit, h9]

theorem firstLevels_wrbyte (p : Params) (d : Nat) (v : ByteSource) (ack : Act) (s : State) :
    firstLevels p d (wrbyteList v ack) s = waveform s.sdaO (sentByte (byteValue v s)) := by
  have h1 : ∀ t, firstLevels p d (wrbitList .srAtBi) t = WireItem.levels t.sdaO (.bit (bitValue .srAtBi t)) := fun _ => rfl
  simp only [wrbyteList, List.cons_append, bitsDown, List.flatMap_cons, List.flatMap_nil, List.append_nil,
    List.append_assoc, firstLevels, sendBitList]
  rw [firstLevels_append _ _ _ _ _ (by decide), h1]
  simp only [levelsOf, levelsOf_append, levelsOf_wrbit, levelsOf_rdbit, effectOf_wrbit, Stmt.effect, runAct]
  rfl

/-- `byteRead`, from the acceptance of its op on. -/
def firstByteRead (d : Nat) (s : State) : Byte :=
  bitsDown.foldl (fun (x : Byte) (i : Fin 8) => setBitAt x i (levelAfter s (3 * (8 - i) * d - 1))) s.sr

theorem getLsbD_firstByteRead (d : Nat) (s : State) (n : Nat) (hn : n < 8) :
    (firstByteRead d s).getLsbD n = levelAfter s (3 * (8 - n) * d - 1) := by
  simp only [firstByteRead, bitsDown, List.foldl_cons, List.foldl_nil, getLsbD_setBitAt _ _ _ _ hn]
  interval_cases n <;> simp

theorem firstEffect_rdbyte (p : Params) (d : Nat) (n : BitSource) (s : State) (hn : n ≠ .srAtBi) (hd : 1 ≤ d) :
    firstEffect p d (rdbyteList n) s =
      { s with
        sr := firstByteRead d s, bi := .ack, sclO := true, sdaO := bitValue n s, draws := s.draws + (27 * d - 1) } := by
  have h2 : ∀ k, s.draws + ((k + 1) * d - 1) + 3 * d = s.draws + ((k + 4) * d - 1) := fun k => by
    have h3 : (k + 4) * d = (k + 1) * d + 3 * d := by rw [← Nat.add_mul]
    have h4 : d ≤ (k + 1) * d := Nat.le_mul_of_pos_left d (by omega)
    omega
  simp only [rdbyteList, bitsDown, List.flatMap_cons, List.flatMap_nil, List.append_nil, List.append_assoc, List.cons_append,
    receiveBitList, firstEffect]
  rw [firstEffect_append _ _ _ _ _ (by decide), firstEffect_rdbit p d _ _ hd]
  simp only [effectOf, Stmt.effect, effectOf_append, effectOf_wrbit, effectOf_rdbit, runAct, setSrBit, sample, sdaLevel, h2,
    Bool.true_and]
  cases n with
  | lit b => simp only [bitValue, firstByteRead, levelAfter, bitsDown, List.foldl_cons, List.foldl_nil]; rfl
  | al0 => simp only [bitValue, firstByteRead, levelAfter, bitsDown, List.foldl_cons, List.foldl_nil]; rfl
  | srAtBi => exact absurd rfl hn

theorem firstLevels_rdbyte (p : Params) (d : Nat) (n : BitSource) (s : State) (hn : n ≠ .srAtBi) :
    firstLevels p d (rdbyteList n) s = waveform s.sdaO (receivedByte (bitValue n s)) := by
  have h1 : ∀ t, firstLevels p d (receiveBitList 7) t = WireItem.levels t.sdaO (.bit true) := fun _ => rfl
  have h2 : ∀ t, (firstEffect p d (receiveBitList 7) t).sdaO = true := fun t => by
    simp [receiveBitList, firstEffect, rdbitList, phaseLit, effectOf, Stmt.effect, bitValue]
  simp only [rdbyteList, bitsDown, List.flatMap_cons, List.flatMap_nil, List.append_nil, List.append_assoc]
  rw [firstLevels_append _ _ _ _ _ (by decide), h1]
  simp only [levelsOf_append, levelsOf_receiveBit, levelsOf_wrbit, effectOf_receiveBit, levelsOf, h2, Stmt.effect, runAct]
  have h3 : ∀ t : State, t.al = s.al → bitValue n t = bitValue n s := fun t ht => by
    cases n with
    | lit b => rfl
    | al0 => simp only [bitValue, ht]
    | srAtBi => exact absurd rfl hn
  rw [h3]
  · rfl
  · simp [receiveBitList, firstEffect, rdbitList, phaseLit, effectOf, Stmt.effect, bitValue, runAct]

/-! ## Transfers -/

/-- SDA_O after a transfer. -/
def leavesOf (sda : Bool) (items : List WireItem) : Bool := items.foldl (fun _ x => x.leaves) sda

theorem waveform_append (sda : Bool) (xs ys : List WireItem) :
    waveform sda (xs ++ ys) = waveform sda xs ++ waveform (leavesOf sda xs) ys := by
  induction xs generalizing sda with
  | nil => rfl
  | cons x xs ih => simp [waveform, leavesOf, ih]

theorem leavesOf_sentByte (sda : Bool) (v : Byte) : leavesOf sda (sentByte v) = true := rfl

theorem leavesOf_receivedByte (sda nack : Bool) : leavesOf sda (receivedByte nack) = nack := rfl

/-- A turn of tw.wrblk's loop. -/
theorem effectOf_sendByte (p : Params) (d : Nat) (i : Fin 8) (s : State) :
    effectOf p d (sendByteList i) s =
      { s with
        xi := i, sr := s.buf[i], bi := .ack, sclO := true, sdaO := true, draws := s.draws + 27 * d } := by
  rw [sendByteList, effectOf, effectOf_wrbyte]
  rfl

theorem levelsOf_sendByte (p : Params) (d : Nat) (i : Fin 8) (s : State) :
    levelsOf p d (sendByteList i) s = waveform s.sdaO (sentByte s.buf[i]) := by
  rw [sendByteList, levelsOf, levelsOf_wrbyte]
  rfl
  exact fun _ _ h => by cases h

/-- tw.wrblk's loop over any list of bytes: the bytes are sent in order, and nothing but the engine's registers, the outputs
and the draws changes. -/
theorem effectOf_sendBytes (p : Params) (d : Nat) (is : List (Fin 8)) (s : State) (h1 : s.sclO = true) (h2 : s.sdaO = true) :
    ∃ xi sr bi, effectOf p d (is.flatMap sendByteList) s =
      { s with xi := xi, sr := sr, bi := bi, draws := s.draws + 27 * is.length * d } := by
  induction is generalizing s with
  | nil => exact ⟨s.xi, s.sr, s.bi, by simp [effectOf]⟩
  | cons i is ih =>
    obtain ⟨xi, sr, bi, h⟩ := ih
      { s with xi := i, sr := s.buf[i], bi := .ack, sclO := true, sdaO := true, draws := s.draws + 27 * d } rfl rfl
    refine ⟨xi, sr, bi, ?_⟩
    rw [List.flatMap_cons, effectOf_append, effectOf_sendByte, h]
    have e : s.draws + 27 * d + 27 * is.length * d = s.draws + 27 * (is.length + 1) * d := by
      rw [Nat.mul_add, Nat.add_mul]; omega
    simp [e, h1, h2]

theorem levelsOf_sendBytes (p : Params) (d : Nat) (is : List (Fin 8)) (s : State) (h2 : s.sdaO = true) :
    levelsOf p d (is.flatMap sendByteList) s = waveform true ((is.map fun i => s.buf[i]).flatMap sentByte) := by
  induction is generalizing s with
  | nil => rfl
  | cons i is ih =>
    rw [List.flatMap_cons, levelsOf_append, levelsOf_sendByte, effectOf_sendByte, ih _ rfl, List.map_cons, List.flatMap_cons,
      waveform_append, leavesOf_sentByte, h2]

/-- A turn of tw.rdblk's loop. -/
theorem effectOf_receiveByte (p : Params) (d len : Nat) (i : Fin 8) (s : State) :
    effectOf p d (receiveByteList len i) s =
      { s with
        xi := i, sr := byteRead d s, bi := .ack, sclO := true, sdaO := decide (i.val + 1 = len)
        buf := s.buf.set i (byteRead d s), draws := s.draws + 27 * d } := by
  rw [receiveByteList, List.cons_append, effectOf, effectOf_append, effectOf_rdbyte _ _ _ _ (fun h => by cases h)]
  rfl

theorem levelsOf_receiveByte (p : Params) (d len : Nat) (i : Fin 8) (s : State) :
    levelsOf p d (receiveByteList len i) s = waveform s.sdaO (receivedByte (decide (i.val + 1 = len))) := by
  rw [receiveByteList, List.cons_append, levelsOf, levelsOf_append, levelsOf_rdbyte _ _ _ _ (fun h => by cases h), levelsOf]
  · simp [levelsOf, Stmt.effect, runAct, bitValue]
  · exact fun _ _ h => by cases h
  · exact fun _ _ h => by cases h

/-- tw.rdblk's loop over a list of different bytes: each byte of the list holds the levels read in its turn, the others are
unchanged, and nothing but BUF, the engine's registers, the outputs and the draws changes. -/
theorem effectOf_receiveBytes (p : Params) (d len : Nat) (is : List (Fin 8)) (s : State) (h1 : s.sclO = true)
    (hnd : is.Nodup) :
    ∃ xi sr bi sda buf, effectOf p d (is.flatMap (receiveByteList len)) s =
        { s with xi := xi, sr := sr, bi := bi, sdaO := sda, buf := buf, draws := s.draws + 27 * is.length * d } ∧
      (∀ i, i ∉ is → buf[i] = s.buf[i]) ∧
      ∀ (k : Nat) (hk : k < is.length), ∀ n < 8, buf[is[k]].getLsbD n = levelAfter s ((27 * k + 3 * (8 - n)) * d) := by
  induction is generalizing s with
  | nil => exact ⟨s.xi, s.sr, s.bi, s.sdaO, s.buf, by simp [effectOf], fun _ _ => rfl, fun k hk => absurd hk (by simp)⟩
  | cons i is ih =>
    have hi := (List.nodup_cons.mp hnd)
    obtain ⟨xi, sr, bi, sda, buf, h, hout, hin⟩ := ih
      { s with
        xi := i, sr := byteRead d s, bi := .ack, sclO := true, sdaO := decide (i.val + 1 = len)
        buf := s.buf.set i (byteRead d s), draws := s.draws + 27 * d } rfl hi.2
    refine ⟨xi, sr, bi, sda, buf, ?_, ?_, ?_⟩
    · rw [List.flatMap_cons, effectOf_append, effectOf_receiveByte, h]
      have e : s.draws + 27 * d + 27 * is.length * d = s.draws + 27 * (is.length + 1) * d := by
        rw [Nat.mul_add, Nat.add_mul]; omega
      simp [e, h1]
    · intro j hj
      rw [List.mem_cons, not_or] at hj
      rw [hout j hj.2]
      have : i.val ≠ j.val := fun e => hj.1 (Fin.ext e.symm)
      simp [this]
    · intro k hk n hn
      cases k with
      | zero =>
        show buf[i].getLsbD n = _
        rw [hout i hi.1]
        have := getLsbD_byteRead d s n hn
        simpa using this
      | succ k =>
        have e : (27 * (k + 1) + 3 * (8 - n)) * d = 27 * d + (27 * k + 3 * (8 - n)) * d := by
          rw [← Nat.add_mul]; congr 1; omega
        have hk' : k < is.length := by simpa using hk
        show (buf[is[k]'hk']).getLsbD n = _
        rw [hin k hk' n hn, e]
        simp [levelAfter, Nat.add_assoc]

theorem levelsOf_receiveBytes (p : Params) (d len : Nat) (is : List (Fin 8)) (s : State) :
    levelsOf p d (is.flatMap (receiveByteList len)) s =
      waveform s.sdaO (is.flatMap fun i => receivedByte (decide (i.val + 1 = len))) := by
  induction is generalizing s with
  | nil => rfl
  | cons i is ih =>
    rw [List.flatMap_cons, levelsOf_append, levelsOf_receiveByte, effectOf_receiveByte, ih, List.flatMap_cons,
      waveform_append, leavesOf_receivedByte]

theorem inPhaseList_flatMap (f : Fin 8 → List Stmt) (h : ∀ i, ∀ x ∈ f i, x.inPhaseList = true) (is : List (Fin 8)) :
    ∀ x ∈ is.flatMap f, x.inPhaseList = true := by
  intro x hx
  obtain ⟨i, _, hi⟩ := List.mem_flatMap.mp hx
  exact h i x hi

theorem phaseCount_flatMap (f : Fin 8 → List Stmt) (n : Nat) (h : ∀ i, phaseCount (f i) = n) (is : List (Fin 8)) :
    phaseCount (is.flatMap f) = n * is.length := by
  induction is with
  | nil => rfl
  | cons i is ih => simp [h, ih, Nat.mul_add]; omega

theorem addressByte_eq (c : Byte) (rw : Bool) :
    addressByte c rw = BitVec.ofNat 8 (c.toNat % 128 * 2 + if rw then 1 else 0) := by
  revert c rw
  decide

theorem map_byteIndexes (buf : Block) (len : Nat) :
    ((List.finRange 8).take len).map (fun i => buf[i]) = buf.toList.take len := by
  apply List.ext_getElem
  · simp
  · intro k h1 h2
    simp

theorem length_byteIndexes (len : Nat) (h : len ≤ 8) : (byteIndexes len).length = len := by
  simp [byteIndexes]; omega

theorem nodup_byteIndexes (len : Nat) : (byteIndexes len).Nodup :=
  (List.nodup_finRange 8).sublist (List.take_sublist len _)

theorem getElem_byteIndexes (len k : Nat) (h : k < (byteIndexes len).length) : ((byteIndexes len)[k]).val = k := by
  simp [byteIndexes]

theorem mem_byteIndexes (len : Nat) (h : len ≤ 8) (i : Fin 8) : i ∈ byteIndexes len ↔ i.val < len := by
  constructor
  · intro hi
    obtain ⟨k, hk, rfl⟩ := List.getElem_of_mem hi
    rw [getElem_byteIndexes]
    rwa [length_byteIndexes len h] at hk
  · intro hi
    have hk : i.val < (byteIndexes len).length := by rwa [length_byteIndexes len h]
    have : (byteIndexes len)[i.val] = i := Fin.ext (getElem_byteIndexes len i.val hk)
    exact this ▸ List.getElem_mem hk

/-! ## From acceptance to completion -/

/-- What stands in a block that accepts the next command word. -/
theorem State.Ready.idle {s : State} (h : s.Ready) : s.seq = .idle := by
  have := h.inv.busy_running
  rw [h.notBusy] at this
  cases hs : s.seq with
  | idle => rfl
  | run rest => rw [hs] at this; cases this

theorem State.Ready.pend {s : State} (h : s.Ready) : s.pend = false := by
  have := h.inv.pend_xfer
  rw [h.idle] at this
  cases hp : s.pend
  · rfl
  · exact absurd (this hp) (by decide)

theorem State.Ready.valid {s : State} (h : s.Ready) : s.req.valid = false := by
  have := h.inv.valid_pend
  rw [h.pend] at this
  cases hv : s.req.valid
  · rfl
  · exact absurd (this hv) (by decide)

theorem State.Ready.hc {s : State} (h : s.Ready) : s.hc = 0 := by
  have := h.inv.hc_phase
  rw [h.idle] at this
  by_contra hne
  exact absurd (this hne) (by decide)

theorem State.Ready.sc {s : State} (h : s.Ready) : s.sc = 0 := by
  have := h.inv.sc_settle
  rw [h.idle] at this
  by_contra hne
  exact absurd (this.mp hne) (by decide)

/-- The accepted state of a sequenced op has everything a phase list needs. -/
theorem State.Ready.phasing {s : State} (h : s.Ready) (op a b c : Byte) (rule : List Stmt) :
    (startSeq rule (accept op a b c s)).Phasing (phaseLength s) := by
  constructor
  · simpa using h.notReset
  · simpa using h.pend
  · simpa using h.hc
  · simp [atLeastOne_toNat, phaseLength]
  · simp [phaseLength]

theorem drain_completeOk (p : Params) (s : State) : drain p [completeOk] s = complete true .none s := rfl

/-- With nothing queued, the outputs a run shows are those of the block's clock. -/
theorem showsPhases_of_clocks (t : State) (d : Nat) (levels : List (Bool × Bool)) (hi : t.inputs = [])
    (h : ∀ (k : Nat) (hk : k < levels.length) (n : Nat), k * d < n → n ≤ (k + 1) * d →
      ((clocks Config.params n t).sclO, (clocks Config.params n t).sdaO) = levels[k]) : showsPhases t d levels :=
  fun k hk n h0 hn => ⟨clocks Config.params n t, runsTo_clocks n t hi, h k hk n h0 hn⟩

end Sys2Proof.Machine
end

