-- ==== Sys2Proof/Laws/Invariant.lean ====
section
/-! SUPPORT. What every rule's statement list has in common, and what draining such a list leaves: the core of the invariant. -/

namespace Sys2Proof.Machine

/-! ## Statement lists -/

/-- The list begins with a settle's wait. -/
def startsSettle : List Stmt → Bool
  | .settle :: _ => true
  | _ => false

/-- The list begins with a statement that takes cycles. -/
def startsWaiting : List Stmt → Bool
  | .phase _ _ :: _ => true
  | .xfer _ :: _ => true
  | .settle :: _ => true
  | _ => false

/-- A statement that ends the op whenever it is reached. -/
def Stmt.ends : Stmt → Bool
  | .act (.complete _ _) => true
  | .act .completeDet => true
  | .act .completeTimeDecode => true
  | _ => false

/-- A statement that may end the op. -/
def Stmt.mayEnd : Stmt → Bool
  | .act (.exitIf _ _ _) => true
  | x => x.ends

/-- `settle()` begins. -/
def Stmt.isLoadSc : Stmt → Bool
  | .act .loadSc => true
  | _ => false

/-- sf.detect's two statements about DET. -/
def Stmt.isSetPending : Stmt → Bool
  | .act .setPending => true
  | _ => false

def Stmt.isCompareId : Stmt → Bool
  | .act .compareId => true
  | _ => false

/-- What a statement of a rule asks of the statements after it. -/
def Stmt.before (x : Stmt) (rest : List Stmt) : Bool :=
  (x.ends == rest.isEmpty) &&
  (x.isLoadSc == startsSettle rest) &&
  (!(x.mayEnd || x.isCompareId) || !rest.any Stmt.isCompareId && !rest.any Stmt.isSetPending) &&
  (!x.isSetPending || rest.any Stmt.isCompareId && !rest.any Stmt.isSetPending)

/-- The shape of every rule, and of every position in one. -/
def wellShaped : List Stmt → Bool
  | [] => true
  | x :: rest => x.before rest && wellShaped rest

theorem wellShaped_suffix {l m : List Stmt} (h : l <:+ m) (hm : wellShaped m = true) : wellShaped l = true := by
  induction m with
  | nil => rw [List.suffix_nil.mp h]; rfl
  | cons x m ih =>
    rcases List.suffix_cons_iff.mp h with rfl | h
    · exact hm
    · exact ih h (by simp only [wellShaped, Bool.and_eq_true] at hm; exact hm.2)

/-- A phase list with the completion after it. -/
theorem wellShaped_phaseList (xs : List Stmt) (hx : ∀ x ∈ xs, x.inPhaseList = true) :
    wellShaped (xs ++ [completeOk]) = true ∧ startsSettle (xs ++ [completeOk]) = false := by
  induction xs with
  | nil => decide
  | cons x xs ih =>
    obtain ⟨h1, h2⟩ := ih fun y hy => hx y (List.mem_cons_of_mem _ hy)
    have hxx := hx x List.mem_cons_self
    cases x with
    | phase l v =>
      exact ⟨by simp [wellShaped, Stmt.before, Stmt.ends, Stmt.mayEnd, Stmt.isLoadSc, Stmt.isCompareId, Stmt.isSetPending,
        h1, h2], rfl⟩
    | xfer f => simp [Stmt.inPhaseList] at hxx
    | settle => simp [Stmt.inPhaseList] at hxx
    | act a =>
      refine ⟨?_, rfl⟩
      cases a <;> simp [Stmt.inPhaseList] at hxx <;>
        simp [wellShaped, Stmt.before, Stmt.ends, Stmt.mayEnd, Stmt.isLoadSc, Stmt.isCompareId, Stmt.isSetPending, h1, h2]

theorem inPhaseList_twRdblk (len : Nat) : ∀ x ∈ startList ++ wrbyteList (.address false) .sampleDiscard
    ++ wrbyteList .al .sampleDiscard ++ startList ++ wrbyteList (.address true) .sampleDiscard
    ++ (byteIndexes len).flatMap (receiveByteList len) ++ stopList, x.inPhaseList = true := by
  have hloop := inPhaseList_flatMap (receiveByteList len) (fun i x hx => by
    simp only [receiveByteList, List.cons_append, List.mem_cons, List.mem_append] at hx
    rcases hx with rfl | hx | rfl | hx
    · rfl
    · simp only [rdbyteList, List.mem_append, List.mem_cons] at hx
      rcases hx with hx | rfl | hx
      · revert x hx; decide
      · rfl
      · simp only [wrbitList, phaseLit, List.mem_cons, List.not_mem_nil, or_false] at hx
        rcases hx with rfl | rfl | rfl <;> rfl
    · rfl
    · cases hx) (byteIndexes len)
  simp only [List.mem_append]
  rintro x ((((((hx | hx) | hx) | hx) | hx) | hx) | hx)
  case inl.inr => exact hloop x hx
  all_goals (revert x hx; decide)

theorem inPhaseList_twWrblk (len : Nat) : ∀ x ∈ startList ++ wrbyteList (.address false) .sampleDiscard
    ++ wrbyteList .al .sampleDiscard ++ (byteIndexes len).flatMap sendByteList ++ stopList, x.inPhaseList = true := by
  have hloop := inPhaseList_flatMap sendByteList (by decide) (byteIndexes len)
  simp only [List.mem_append]
  rintro x ((((hx | hx) | hx) | hx) | hx)
  case inl.inr => exact hloop x hx
  all_goals (revert x hx; decide)

/-- Every rule has that shape, and none begins with a settle. -/
theorem wellShaped_rules (op a b : Byte) : ∀ rule ∈ rulesOf op a b,
    wellShaped rule = true ∧ startsSettle rule = false := by
  have hrd : ∀ n, wellShaped (twRdblkRule n) = true ∧ startsSettle (twRdblkRule n) = false :=
    fun n => wellShaped_phaseList _ (inPhaseList_twRdblk n)
  have hwr : ∀ n, wellShaped (twWrblkRule n) = true ∧ startsSettle (twWrblkRule n) = false :=
    fun n => wellShaped_phaseList _ (inPhaseList_twWrblk n)
  have hblk : wellShaped (sfWrblkRule a) = true ∧ startsSettle (sfWrblkRule a) = false := by
    unfold sfWrblkRule wrbList
    split
    · exact ⟨rfl, rfl⟩
    · exact ⟨rfl, rfl⟩
  intro rule hr
  unfold rulesOf at hr
  split at hr
  case h_7 =>
    split at hr <;> simp only [List.mem_singleton, List.not_mem_nil] at hr
    rw [hr]
    exact hrd _
  case h_8 =>
    split at hr <;> simp only [List.mem_singleton, List.not_mem_nil] at hr
    rw [hr]
    exact hwr _
  case h_11 =>
    split at hr <;> simp only [List.mem_singleton, List.not_mem_nil] at hr
    rw [hr]
    exact ⟨rfl, rfl⟩
  case h_12 =>
    split at hr <;> simp only [List.mem_singleton, List.not_mem_nil] at hr
    rw [hr]
    exact hblk
  case h_9 =>
    simp only [List.mem_cons, List.not_mem_nil, or_false] at hr
    rcases hr with rfl | rfl | rfl <;> exact ⟨by decide, by decide⟩
  all_goals simp only [List.mem_singleton, List.not_mem_nil] at hr
  all_goals
    subst hr
    exact ⟨by decide, by decide⟩

/-! ## Draining -/

/-- Where a position of SEQ has to be for SC to count, and what DET may be there. -/
structure AtPosition (q : Seq) (busy : Bool) (sc : Word) (det : Det) : Prop where
  busy_running : busy = q.running
  nonempty : q.running = true → q.todo ≠ []
  sc_settle : sc ≠ 0 ↔ q.atSettle = true
  det_pending : det = .pending ↔ Stmt.act .compareId ∈ q.todo ∧ Stmt.act .setPending ∉ q.todo
  det_init : Stmt.act .setPending ∈ q.todo → det = .init

/-- The state after a completion stands right. -/
theorem atPosition_idle (sc : Word) (det : Det) (hsc : sc = 0) (hdet : det ≠ .pending) : AtPosition .idle false sc det := by
  constructor <;> simp_all [Seq.running, Seq.todo, Seq.atSettle]

theorem any_isCompareId (l : List Stmt) : l.any Stmt.isCompareId = true ↔ Stmt.act .compareId ∈ l := by
  rw [List.any_eq_true]
  constructor
  · rintro ⟨x, hx, h⟩
    cases x with
    | act a => cases a <;> simp [Stmt.isCompareId] at h; exact hx
    | phase l v => cases h
    | xfer f => cases h
    | settle => cases h
  · exact fun h => ⟨_, h, rfl⟩

theorem any_isSetPending (l : List Stmt) : l.any Stmt.isSetPending = true ↔ Stmt.act .setPending ∈ l := by
  rw [List.any_eq_true]
  constructor
  · rintro ⟨x, hx, h⟩
    cases x with
    | act a => cases a <;> simp [Stmt.isSetPending] at h; exact hx
    | phase l v => cases h
    | xfer f => cases h
    | settle => cases h
  · exact fun h => ⟨_, h, rfl⟩

/-- What a statement of a rule asks of the statements after it, as membership. -/
theorem Stmt.before_iff (x : Stmt) (rest : List Stmt) : x.before rest = true ↔
    (x.ends = rest.isEmpty) ∧ (x.isLoadSc = startsSettle rest) ∧
    ((x.mayEnd = true ∨ x.isCompareId = true) → Stmt.act .compareId ∉ rest ∧ Stmt.act .setPending ∉ rest) ∧
    (x.isSetPending = true → Stmt.act .compareId ∈ rest ∧ Stmt.act .setPending ∉ rest) := by
  simp only [Stmt.before, Bool.and_eq_true, Bool.or_eq_true, Bool.not_eq_true', beq_iff_eq, ← Bool.not_eq_true,
    any_isCompareId, any_isSetPending, Bool.or_eq_true]
  tauto

/-- Draining a rule's remaining statements: SEQ stands at a statement that takes cycles, later in the same list, or the op
has completed; SC and DET stand right for it. -/
theorem drain_atPosition (p : Params) (rest : List Stmt) (s : State) (hw : wellShaped rest = true) (hne : rest ≠ [])
    (hbusy : s.stat.busy = true) (hsc : s.sc ≠ 0 → startsSettle rest = true)
    (hdet : s.stat.det = .pending ↔ Stmt.act .compareId ∈ rest ∧ Stmt.act .setPending ∉ rest)
    (hinit : Stmt.act .setPending ∈ rest → s.stat.det = .init) :
    AtPosition (drain p rest s).seq (drain p rest s).stat.busy (drain p rest s).sc (drain p rest s).stat.det ∧
      (drain p rest s).seq.todo <:+ rest := by
  induction rest generalizing s with
  | nil => exact absurd rfl hne
  | cons x rest ih =>
    simp only [wellShaped, Bool.and_eq_true] at hw
    obtain ⟨hb, hw⟩ := hw
    cases x with
    | phase l v =>
      refine ⟨⟨?_, ?_, ?_, ?_, ?_⟩, ?_⟩ <;> simp_all [Seq.running, Seq.todo, Seq.atSettle, startsSettle]
    | xfer f =>
      refine ⟨⟨?_, ?_, ?_, ?_, ?_⟩, ?_⟩ <;> simp_all [Seq.running, Seq.todo, Seq.atSettle, startsSettle]
    | settle =>
      rw [drain_at_settle]
      by_cases h0 : s.sc = 0
      · rw [if_pos h0]
        have hr : rest ≠ [] := by
          rintro rfl
          simp [Stmt.before, Stmt.ends] at hb
        obtain ⟨h1, h2⟩ := ih s hw hr hbusy (fun h => absurd h0 h) (by simpa using hdet) (by simpa using hinit)
        exact ⟨h1, h2.trans (List.suffix_cons _ _)⟩
      · rw [if_neg h0]
        refine ⟨⟨?_, ?_, ?_, ?_, ?_⟩, ?_⟩ <;> simp_all [Seq.running, Seq.todo, Seq.atSettle, startsSettle]
    | act a =>
      rw [Stmt.before_iff] at hb
      obtain ⟨hends, hload, hmay, hset⟩ := hb
      have hsc0 : s.sc = 0 := by
        by_contra h
        exact absurd (hsc h) (by simp [startsSettle])
      have go : ∀ t : State, runAct p a (setSeq (.run rest) s) = t → t.seq = .run rest → rest ≠ [] → t.stat.busy = true →
          (t.sc ≠ 0 → startsSettle rest = true) →
          (t.stat.det = .pending ↔ Stmt.act .compareId ∈ rest ∧ Stmt.act .setPending ∉ rest) →
          (Stmt.act .setPending ∈ rest → t.stat.det = .init) →
          AtPosition (drain p (.act a :: rest) s).seq (drain p (.act a :: rest) s).stat.busy (drain p (.act a :: rest) s).sc
            (drain p (.act a :: rest) s).stat.det ∧ (drain p (.act a :: rest) s).seq.todo <:+ .act a :: rest := by
        intro t ht hq hr hbt hst hdt hit
        rw [drain_act_run p a rest rest s (by rw [ht]; exact hq), ht]
        obtain ⟨h1, h2⟩ := ih t hw hr hbt hst hdt hit
        exact ⟨h1, h2.trans (List.suffix_cons _ _)⟩
      have stop : ∀ t : State, runAct p a (setSeq (.run rest) s) = t → t.seq = .idle → t.stat.busy = false → t.sc = 0 →
          t.stat.det ≠ .pending →
          AtPosition (drain p (.act a :: rest) s).seq (drain p (.act a :: rest) s).stat.busy (drain p (.act a :: rest) s).sc
            (drain p (.act a :: rest) s).stat.det ∧ (drain p (.act a :: rest) s).seq.todo <:+ .act a :: rest := by
        intro t ht hq hbt hst hdt
        rw [drain_act_idle p a rest s (by rw [ht]; exact hq), ht, hq, hbt]
        exact ⟨atPosition_idle _ _ hst hdt, List.nil_suffix⟩
      cases a with
      | loadSr v =>
        exact go _ rfl (by simp [runAct]) (by rintro rfl; cases hends) (by simpa [runAct] using hbusy) (by simp [runAct, hsc0])
          (by simpa [runAct] using hdet) (by simpa [runAct] using hinit)
      | setBi n =>
        exact go _ rfl (by simp [runAct]) (by rintro rfl; cases hends) (by simpa [runAct] using hbusy) (by simp [runAct, hsc0])
          (by simpa [runAct] using hdet) (by simpa [runAct] using hinit)
      | setXi n =>
        exact go _ rfl (by simp [runAct]) (by rintro rfl; cases hends) (by simpa [runAct] using hbusy) (by simp [runAct, hsc0])
          (by simpa [runAct] using hdet) (by simpa [runAct] using hinit)
      | sampleSr =>
        exact go _ rfl (by simp [runAct]) (by rintro rfl; cases hends) (by simpa [runAct] using hbusy) (by simp [runAct, hsc0])
          (by simpa [runAct] using hdet) (by simpa [runAct] using hinit)
      | sampleRes =>
        exact go _ rfl (by simp [runAct]) (by rintro rfl; cases hends) (by simpa [runAct] using hbusy) (by simp [runAct, hsc0])
          (by simpa [runAct] using hdet) (by simpa [runAct] using hinit)
      | sampleDiscard =>
        exact go _ rfl (by simp [runAct]) (by rintro rfl; cases hends) (by simpa [runAct] using hbusy) (by simp [runAct, hsc0])
          (by simpa [runAct] using hdet) (by simpa [runAct] using hinit)
      | resFromSr =>
        exact go _ rfl (by simp [runAct]) (by rintro rfl; cases hends) (by simpa [runAct] using hbusy) (by simp [runAct, hsc0])
          (by simpa [runAct] using hdet) (by simpa [runAct] using hinit)
      | bufFromSr =>
        exact go _ rfl (by simp [runAct]) (by rintro rfl; cases hends) (by simpa [runAct] using hbusy) (by simp [runAct, hsc0])
          (by simpa [runAct] using hdet) (by simpa [runAct] using hinit)
      | resFromId =>
        exact go _ rfl (by simp [runAct]) (by rintro rfl; cases hends) (by simpa [runAct] using hbusy) (by simp [runAct, hsc0])
          (by simpa [runAct] using hdet) (by simpa [runAct] using hinit)
      | saveCsh =>
        exact go _ rfl (by simp [runAct]) (by rintro rfl; cases hends) (by simpa [runAct] using hbusy) (by simp [runAct, hsc0])
          (by simpa [runAct] using hdet) (by simpa [runAct] using hinit)
      | loadSc =>
        exact go _ rfl rfl (by rintro rfl; cases hends) hbusy (fun _ => hload.symm) (by simpa [runAct] using hdet)
          (by simpa [runAct] using hinit)
      | setPending =>
        have hr := hset rfl
        exact go _ rfl rfl (by rintro rfl; cases hends) hbusy (fun h => absurd hsc0 h) ⟨fun _ => hr, fun _ => rfl⟩
          (fun h => absurd h hr.2)
      | compareId =>
        have hr := hmay (.inr rfl)
        refine go _ rfl rfl (by rintro rfl; cases hends) hbusy (fun h => absurd hsc0 h) ⟨?_, fun h => absurd h.1 hr.1⟩
          (fun h => absurd h hr.2)
        simp only [runAct]
        split <;> exact fun h => by cases h
      | exitIf c ok err =>
        have hr := hmay (.inl rfl)
        have hnp : s.stat.det ≠ .pending := fun h => by simpa [hr.1] using (hdet.mp h).1
        cases hc : condHolds p c (setSeq (.run rest) s)
        · exact go (setSeq (.run rest) s) (by simp [runAct, hc]) rfl (by rintro rfl; cases hends) hbusy (fun h => absurd hsc0 h)
            ⟨fun h => absurd h hnp, fun h => absurd h.1 hr.1⟩ (fun h => absurd h hr.2)
        · exact stop (complete ok err (setSeq (.run rest) s)) (by simp [runAct, hc]) rfl rfl hsc0 hnp
      | complete ok err =>
        have hr := hmay (.inl rfl)
        have hnp : s.stat.det ≠ .pending := fun h => by simpa [hr.1] using (hdet.mp h).1
        exact stop _ rfl rfl rfl hsc0 hnp
      | completeDet =>
        have hr := hmay (.inl rfl)
        have hnp : s.stat.det ≠ .pending := fun h => by simpa [hr.1] using (hdet.mp h).1
        exact stop _ rfl rfl rfl hsc0 hnp
      | completeTimeDecode =>
        have hr := hmay (.inl rfl)
        have hnp : s.stat.det ≠ .pending := fun h => by simpa [hr.1] using (hdet.mp h).1
        refine stop _ rfl ?_ ?_ ?_ ?_ <;> simp only [runAct, timeDecodeAndComplete] <;> split <;>
          first
            | rfl
            | exact hsc0
            | exact hnp

end Sys2Proof.Machine
end

