-- ==== Sys2Proof/Laws/PerInstr.lean ====
section
/-! SUPPORT. One fact per instruction: its word carries its opcode and its three operand bytes, each in its own field
(30_encoding.md R80). -/

namespace Sys2Proof.Laws

/-- The four fields of a word made of four bytes. -/
theorem fields_commandWord (op a b c : Byte) :
    opField (commandWord op a b c) = op ∧ aField (commandWord op a b c) = a ∧ bField (commandWord op a b c) = b ∧
      cField (commandWord op a b c) = c := by
  refine ⟨?_, ?_, ?_, ?_⟩ <;> apply BitVec.eq_of_getLsbD_eq <;> intro i hi <;>
    simp only [opField, aField, bField, cField, commandWord, BitVec.getLsbD_extractLsb', BitVec.getLsbD_append, hi,
      decide_true, Bool.true_and, Nat.zero_add]
  · simp [hi]
  · simp [hi, show ¬ 8 + i < 8 by omega]
  · simp [hi, show ¬ 16 + i < 8 by omega, show ¬ 16 + i - 8 < 8 by omega, show 16 + i - 8 - 8 = i by omega]
  · simp [hi, show ¬ 24 + i < 8 by omega, show ¬ 24 + i - 8 < 8 by omega, show ¬ 24 + i - 8 - 8 < 8 by omega,
      show 24 + i - 8 - 8 - 8 = i by omega]

/-- The four fields of `encode i` are the opcode and the operands of `i`. -/
def CommandWord.Statement (i : Instr) : Prop :=
  opField (encode i) = i.opcode ∧ aField (encode i) = i.operands.1 ∧ bField (encode i) = i.operands.2.1 ∧
    cField (encode i) = i.operands.2.2

theorem CommandWord.bcdEnc (a b c : Byte) : CommandWord.Statement (.bcdEnc a b c) := fields_commandWord _ a b c
theorem CommandWord.bcdDec (a b c : Byte) : CommandWord.Statement (.bcdDec a b c) := fields_commandWord _ a b c
theorem CommandWord.timeEnc (a b c : Byte) : CommandWord.Statement (.timeEnc a b c) := fields_commandWord _ a b c
theorem CommandWord.timeDec (a b c : Byte) : CommandWord.Statement (.timeDec a b c) := fields_commandWord _ a b c
theorem CommandWord.twStart (a b c : Byte) : CommandWord.Statement (.twStart a b c) := fields_commandWord _ a b c
theorem CommandWord.twStop (a b c : Byte) : CommandWord.Statement (.twStop a b c) := fields_commandWord _ a b c
theorem CommandWord.twWrbit (a b c : Byte) : CommandWord.Statement (.twWrbit a b c) := fields_commandWord _ a b c
theorem CommandWord.twRdbit (a b c : Byte) : CommandWord.Statement (.twRdbit a b c) := fields_commandWord _ a b c
theorem CommandWord.twWrbyte (a b c : Byte) : CommandWord.Statement (.twWrbyte a b c) := fields_commandWord _ a b c
theorem CommandWord.twRdbyte (a b c : Byte) : CommandWord.Statement (.twRdbyte a b c) := fields_commandWord _ a b c
theorem CommandWord.twRdblk (a b c : Byte) : CommandWord.Statement (.twRdblk a b c) := fields_commandWord _ a b c
theorem CommandWord.twWrblk (a b c : Byte) : CommandWord.Statement (.twWrblk a b c) := fields_commandWord _ a b c
theorem CommandWord.sfDetect (a b c : Byte) : CommandWord.Statement (.sfDetect a b c) := fields_commandWord _ a b c
theorem CommandWord.sfIdent (a b c : Byte) : CommandWord.Statement (.sfIdent a b c) := fields_commandWord _ a b c
theorem CommandWord.sfRdblk (a b c : Byte) : CommandWord.Statement (.sfRdblk a b c) := fields_commandWord _ a b c
theorem CommandWord.sfWrblk (a b c : Byte) : CommandWord.Statement (.sfWrblk a b c) := fields_commandWord _ a b c
theorem CommandWord.sfSetstop (a b c : Byte) : CommandWord.Statement (.sfSetstop a b c) := fields_commandWord _ a b c
theorem CommandWord.sfRdtime (a b c : Byte) : CommandWord.Statement (.sfRdtime a b c) := fields_commandWord _ a b c
theorem CommandWord.sfSettime (a b c : Byte) : CommandWord.Statement (.sfSettime a b c) := fields_commandWord _ a b c

end Sys2Proof.Laws
end

