-- ==== Sys2Proof/Tests/Slice0.lean ====
section
/-! SUPPORT. The model's own tests. Expected values are those of spec/95_test_vectors.md and of the rules' own examples, under
the example parameters EX (92_eei_decisions.md D41). The second part shows a state for the hypotheses of every statement. -/

namespace Sys2Proof.Tests

open Sys2Proof Sys2Proof.Machine

/-! ## Well-formedness: a term that fails each check of 30_encoding.md R86 -/

theorem test_wf_twRdblk : (Instr.twRdblk 0 0 0x68).wellFormed = false ∧ (Instr.twRdblk 0 9 0x68).wellFormed = false ∧
    (Instr.twRdblk 0 1 0x68).wellFormed = true ∧ (Instr.twRdblk 0 8 0x68).wellFormed = true := by decide

theorem test_wf_twWrblk : (Instr.twWrblk 0 0 0x68).wellFormed = false ∧ (Instr.twWrblk 0 9 0x68).wellFormed = false ∧
    (Instr.twWrblk 0 8 0x68).wellFormed = true := by decide

theorem test_wf_sfRdblk : (Instr.sfRdblk 3 0 0).wellFormed = false ∧ (Instr.sfRdblk 2 0 0).wellFormed = true := by decide

theorem test_wf_sfWrblk : (Instr.sfWrblk 255 0 0).wellFormed = false ∧ (Instr.sfWrblk 2 0 0).wellFormed = true := by decide

/-! ## Decoding: words written out from 30_encoding.md R80 and R82, one for every instruction -/

theorem test_decode_bcd : decode 0x00002A01 = .ok (.bcdEnc 42 0 0) ∧ decode 0x00005902 = .ok (.bcdDec 0x59 0 0) ∧
    decode 0x00000003 = .ok (.timeEnc 0 0 0) ∧ decode 0x00000004 = .ok (.timeDec 0 0 0) := by decide

theorem test_decode_tw : decode 0x00000010 = .ok (.twStart 0 0 0) ∧ decode 0x00000011 = .ok (.twStop 0 0 0) ∧
    decode 0x00000112 = .ok (.twWrbit 1 0 0) ∧ decode 0x00000013 = .ok (.twRdbit 0 0 0) ∧
    decode 0x0000A014 = .ok (.twWrbyte 0xA0 0 0) ∧ decode 0x00000115 = .ok (.twRdbyte 1 0 0) ∧
    decode 0x50080016 = .ok (.twRdblk 0 8 0x50) ∧ decode 0x68081017 = .ok (.twWrblk 0x10 8 0x68) := by decide

theorem test_decode_sf : decode 0x00000020 = .ok (.sfDetect 0 0 0) ∧ decode 0x00000021 = .ok (.sfIdent 0 0 0) ∧
    decode 0x00000022 = .ok (.sfRdblk 0 0 0) ∧ decode 0x00000223 = .ok (.sfWrblk 2 0 0) ∧
    decode 0x00000124 = .ok (.sfSetstop 1 0 0) ∧ decode 0x00000025 = .ok (.sfRdtime 0 0 0) ∧
    decode 0x00000026 = .ok (.sfSettime 0 0 0) := by decide

/-- Bit by bit, C = 01010000, B = 00001000, A = 00000000, OP = 00010110: `tw.rdblk 0, 8, 0x50`. -/
theorem test_decode_bits : decode 0b01010000000010000000000000010110 = .ok (.twRdblk 0 8 0x50) := by decide

theorem test_decode_reserved : decode 0x00000000 = .error (.reservedOp 0x00) ∧ decode 0x00000005 = .error (.reservedOp 0x05) ∧
    decode 0x00000018 = .error (.reservedOp 0x18) ∧ decode 0x00000027 = .error (.reservedOp 0x27) ∧
    decode 0xFFFFFFFF = .error (.reservedOp 0xFF) := by decide

theorem test_decode_table : decodeTableWord 32 0x68081017 = some (.twWrblk 0x10 8 0x68) ∧ decodeTableWord 8 0x26 = some (.sfSettime 0 0 0) ∧
    decodeTableWord 32 0 = none := by decide

theorem test_assemble : assemble "tw.rdblk" [0, 8, 0x50] = some 0x50080016 ∧ assemble "tw.nack" [] = some 0x00000112 ∧
    assemble "sf.stop" [] = some 0x00000124 ∧ assemble "bcd.enc" [256] = none := by decide

/-! ## One step under EX -/

/-- EX: stop = byte 1 bit 2, lock1 = byte 0 bit 0, lock2 = byte 0 bit 1. -/
def exParams : Params :=
  { base := 0, cmdIdentify := 0x06, cmdReadBlock := 0x07, cmdWriteBlock := 0x08, rtcPort := 4, idRtc := 0x0010
    ctrl := ⟨10, 0, 0⟩, twDelayRst := 4, settleRst := 1000, gpioSclBit := 0, gpioSdaBit := 1, wrExcl := false
    statStopMask := 0x01 }

theorem test_ctrl : exParams.ctrl.stop = 10 ∧ exParams.ctrl.lock1 = 0 ∧ exParams.ctrl.lock2 = 1 := by decide

/-- The state after the next step, if there is one. -/
def after (s : State) : Option State :=
  match stepWith exParams s with
  | .next t => some t
  | .fault _ => none
  | .refused _ => none

/-- The block after reset, with one input. -/
def idle (e : Input) : State := { State.resetWith exParams with inputs := [e] }

/-- The block after reset, with a word written to CMD. -/
def cmd (w : Word) : State := idle (.hostWrite 0x00 4 w)

/-- The block inside an op, D = 1, with one input. -/
def inside (al : Byte) (rest : List Stmt) (e : Input) : State :=
  { idle e with stat := { (idle e).stat with busy := true }, al := al, dlat := 1, seq := .run rest }

/-- The block that waits for a reply, and gets it. -/
def replied (al : Byte) (rest : List Stmt) (rx : Vector Byte 9) : State :=
  { inside al rest (.transportReplies rx) with pend := true }

/-- What the host reads at an offset. -/
def reads (off : BitVec 6) (s : State) : Option Word := (after s).map (readReg off)

theorem test_reset_reads : readReg 0x04 (State.resetWith exParams) = 0 ∧ readReg 0x20 (State.resetWith exParams) = 0x00000004 ∧
    readReg 0x24 (State.resetWith exParams) = 0x000003E8 := by decide

/-- "lines released with pull-ups, WR_EXCL = 0" (A1). -/
theorem test_lines : readReg 0x28 { State.resetWith exParams with sdaEnv := some true, sclEnv := some true } = 0x0000000F := by
  decide

theorem test_bcdEnc_42 : reads 0x08 (cmd 0x00002A01) = some 0x42 ∧ reads 0x04 (cmd 0x00002A01) = some 0x006 := by decide
theorem test_bcdEnc_160 : reads 0x08 (cmd 0x0000A001) = some 0x00 ∧ reads 0x04 (cmd 0x0000A001) = some 0x302 := by decide
theorem test_bcdDec_59 : reads 0x08 (cmd 0x00005902) = some 0x3B ∧ reads 0x04 (cmd 0x00005902) = some 0x006 := by decide
theorem test_bcdDec_FF : reads 0x08 (cmd 0x0000FF02) = some 0xA5 ∧ reads 0x04 (cmd 0x0000FF02) = some 0x302 := by decide

/-- A block with TIME0, TIME1, and one with BUF0, BUF1, as the host would load them. -/
def withTime (t0 t1 : Word) (s : State) : State := { s with time := setTime1 t1 (setTime0 t0 s.time) }
def withBuf (b0 b1 : Word) (s : State) : State := { s with buf := setBuf1 b1 (setBuf0 b0 s.buf) }

theorem test_timeEnc : reads 0x10 (withTime 0x0F0D2D1E 0x07E80502 (cmd 3)) = some 0x30459315 ∧
    reads 0x14 (withTime 0x0F0D2D1E 0x07E80502 (cmd 3)) = some 0x05032401 := by decide
theorem test_timeEnc_year_1995 : reads 0x04 (withTime 0x0F0D2D1E 0x07CB0502 (cmd 3)) = some 0x302 ∧
    reads 0x10 (withTime 0x0F0D2D1E 0x07CB0502 (cmd 3)) = some 0 := by decide
theorem test_timeDec_month_0 : reads 0x18 (withBuf 0x00008001 0x01009600 (cmd 4)) = some 0x01000000 ∧
    reads 0x1C (withBuf 0x00008001 0x01009600 (cmd 4)) = some 0x07CC01FF ∧
    reads 0x04 (withBuf 0x00008001 0x01009600 (cmd 4)) = some 0x302 := by decide
theorem test_timeDec_year_2150 : reads 0x1C (withBuf 0x00008001 0x01015002 (cmd 4)) = some 0x08660100 ∧
    reads 0x04 (withBuf 0 0 (cmd 4)) = some 0x046 := by decide

/-- The outputs after the next step. -/
def outputs (s : State) : Option (Bool × Bool) := (after s).map fun t => (t.sclO, t.sdaO)

theorem test_twStart_accepted : reads 0x04 (cmd 0x00000010) = some 0x001 := by decide
theorem test_twStart_last : outputs (inside 0 (startList.drop 3 ++ [completeOk]) .clock) = some (true, false) ∧
    reads 0x04 (inside 0 (startList.drop 3 ++ [completeOk]) .clock) = some 0x006 := by decide
theorem test_twStop_first : outputs { inside 0 twStopRule .clock with sdaO := false } = some (false, false) := by decide
theorem test_twStop_last : outputs { inside 0 (stopList.drop 3 ++ [completeOk]) .clock with sdaO := false } =
    some (true, true) := by decide
theorem test_twWrbit : outputs { inside 1 (twWrbitRule.drop 1) .clock with sclO := false, sdaO := false } =
    some (false, true) := by decide
theorem test_twRdbit_low : reads 0x08 { inside 0 (twRdbitRule.drop 2) .clock with sdaEnv := some false, res := 7 } =
    some 0 := by decide
theorem test_twRdbit_high : reads 0x08 { inside 0 (twRdbitRule.drop 2) .clock with sdaEnv := some true } = some 1 := by decide

/-- `tw.wrbyte 0xA0` loads the byte, and in the second phase of its first bit sends a 1. -/
theorem test_twWrbyte_loads : (after (inside 0xA0 twWrbyteRule .clock)).map (fun t => (t.sr, t.bi, t.sclO)) =
    some (0xA0, .bit 7, false) := by decide
theorem test_twWrbyte_sends : outputs
    { inside 0xA0 [.phase .sda .srAtBi, phaseLit .scl true, completeOk] .clock with
      sr := 0xA0, bi := .bit 5, sclO := false, sdaO := false } = some (false, true) := by decide

/-- The last bit of 0x59, and the ninth bit, a NACK. -/
theorem test_twRdbyte_bit : (after
    { inside 1 (phaseLit .scl true :: .act .sampleSr :: .act (.setBi .ack) :: wrbitList .al0) .clock with
      sr := 0x58, bi := .bit 0, sdaEnv := some true }).map (·.sr) = some 0x59 := by decide
theorem test_twRdbyte_end : reads 0x08 { inside 1 (twRdbyteRule.drop 43) .clock with sr := 0x59 } = some 0x59 ∧
    outputs { inside 1 (twRdbyteRule.drop 42 |>.take 1) .clock with sclO := false, sdaO := false } = some (false, true) := by
  decide

theorem test_twRdblk_length : reads 0x04 (cmd 0x68000016) = some 0x202 ∧ reads 0x04 (cmd 0x68090016) = some 0x202 ∧
    reads 0x04 (cmd 0x68010016) = some 0x001 := by decide
theorem test_twRdblk_address : addressByte 0x68 true = 0xD1 ∧ addressByte 0xE8 false = 0xD0 := by decide
theorem test_twWrblk_length : reads 0x04 (cmd 0x68000017) = some 0x202 ∧ reads 0x04 (cmd 0x68081017) = some 0x001 := by decide
theorem test_twWrblk_byte : (after { inside 0 ((sendByteList 2).take 4) .clock with buf := #v[0, 0, 0x59, 0, 0, 0, 0, 0] }).map
    (fun t => (t.xi, t.sr, t.bi)) = some (2, 0x59, .bit 7) := by decide

theorem test_sfDetect_detected : reads 0x04 (replied 0 (detectRule.drop 1) #v[0x00, 0x10, 0x00, 0, 0, 0, 0, 0, 0]) =
      some 0x26 ∧
    reads 0x08 (replied 0 (detectRule.drop 1) #v[0x00, 0x10, 0x00, 0, 0, 0, 0, 0, 0]) = some 0x10 := by decide
theorem test_sfDetect_swapped : reads 0x04 (replied 0 (detectRule.drop 1) #v[0x10, 0x00, 0x00, 0, 0, 0, 0, 0, 0]) =
      some 0x32 ∧
    reads 0x08 (replied 0 (detectRule.drop 1) #v[0x10, 0x00, 0x00, 0, 0, 0, 0, 0, 0]) = some 0x1000 := by decide

/-- A state with another DET. -/
def withDet (d : Det) (s : State) : State := { s with stat := { s.stat with det := d } }

theorem test_sfIdent : reads 0x04 (withDet .detected (replied 0 identRule #v[0x00, 0x10, 0x01, 0, 0, 0, 0, 0, 0])) =
    some 0x000100A6 := by decide
theorem test_sfRdblk : reads 0x10 (replied 0 (sfRdblkRule 0) #v[0x03, 0, 0, 0, 0, 0, 0, 0, 0]) = some 0x03000000 := by decide
theorem test_sfRdblk_3 : reads 0x04 (cmd 0x00000322) = some 0x202 := by decide
theorem test_sfWrblk : (after (withBuf 0x30459315 0x05032401 (inside 2 (sfWrblkRule 2) .clock))).map
    (fun t => (t.req.valid, t.req.port, t.req.txlen, t.req.rxlen, t.req.tx.toList)) =
    some (true, 4, 10, 1, [0x08, 0x02, 0x30, 0x45, 0x93, 0x15, 0x05, 0x03, 0x24, 0x01]) := by decide
theorem test_sfWrblk_255 : reads 0x04 (cmd 0x0000FF23) = some 0x202 := by decide

/-- The block standing at the write of sf.setstop, with the control block read. -/
def setstopWrite (al b0 b1 : Byte) : State :=
  { inside al (setstopRule.drop 3) .clock with csh := #v[b0, b1, 0, 0, 0, 0, 0, 0] }

theorem test_sfSetstop_noop : reads 0x04 (replied 1 setstopRule #v[0x03, 0x04, 0, 0, 0, 0, 0, 0, 0]) = some 0x006 ∧
    reads 0x04 (replied 0 setstopRule #v[0x03, 0x04, 0, 0, 0, 0, 0, 0, 0]) = some 0x001 := by decide
theorem test_sfSetstop_writes : reads 0x10 (setstopWrite 1 0x03 0x00) = some 0x00040000 ∧
    reads 0x10 (setstopWrite 0 0xF3 0x04) = some 0xF3000000 ∧ reads 0x10 (setstopWrite 1 0xFC 0xFB) = some 0xFCFF0000 := by
  decide
theorem test_sfRdtime : reads 0x18 (replied 0 rdtimeRule #v[0x30, 0x45, 0x93, 0x15, 0x05, 0x00, 0x24, 0x01, 0x00]) =
      some 0x0F0D2D1E ∧
    reads 0x1C (replied 0 rdtimeRule #v[0x30, 0x45, 0x93, 0x15, 0x05, 0x00, 0x24, 0x01, 0x00]) = some 0x07E805FF ∧
    reads 0x04 (replied 0 rdtimeRule #v[0x30, 0x45, 0x93, 0x15, 0x05, 0x00, 0x24, 0x01, 0x00]) = some 0x302 := by decide
theorem test_sfRdtime_zero : reads 0x04 (replied 0 rdtimeRule #v[0, 0, 0, 0, 0, 0, 0, 0, 1]) = some 0x000100C6 := by decide

/-- Range before exclusion (60_exceptions.md R223), then exclusion, then the not-stopped abort. -/
theorem test_sfSettime_order : reads 0x04 { withTime 0x01000000 0x08300100 (inside 0 settimeRule .clock) with wrExcl := true } =
      some 0x302 ∧
    reads 0x04 { withTime 0x0F0D2D1E 0x07E80502 (inside 0 settimeRule .clock) with wrExcl := true } = some 0x402 := by decide
theorem test_sfSettime_not_stopped :
    reads 0x04 (withDet .detected (replied 0 (settimeRule.drop 7) #v[0x00, 0x10, 0x00, 0, 0, 0, 0, 0, 0])) =
      some 0x00000522 := by decide

/-- A word written while BUSY (P5), and the write-1-to-clear of STAT (A1). -/
theorem test_overrun : reads 0x04 (withDet .notDetected (inside 2 (sfRdblkRule 2) (.hostWrite 0x00 4 0x00000501))) =
    some 0x039 := by decide
theorem test_reserved : reads 0x04 (cmd 0x00000005) = some 0x102 ∧ reads 0x04 (cmd 0xFFFFFFFF) = some 0x102 := by decide
theorem test_statClear : clearStat 0xFFFFFFF5 { (idle .clock).stat with done := true, overrun := true } =
      { (idle .clock).stat with done := true, overrun := true } ∧
    clearStat 0x0000000A { (idle .clock).stat with done := true, overrun := true } = (idle .clock).stat := by decide
theorem test_cfg_reserved : reads 0x20 (idle (.hostWrite 0x20 4 0xFFFFFFFF)) = some 0x0001FFFF := by decide
theorem test_buf_packing : reads 0x10 (idle (.hostWrite 0x10 4 0x11223344)) = some 0x11223344 ∧
    (after (idle (.hostWrite 0x10 4 0x11223344))).map (fun t => (t.buf[0], t.buf[3])) = some (0x11, 0x44) := by decide

/-- The word that `withFetchWord` places is the next step's. -/
def fetched (nbits w : Nat) : Option (Stat × Word) :=
  match step (State.reset.withFetchWord nbits w) with
  | .next t => some (t.stat, t.res)
  | .fault _ => none
  | .refused _ => none

theorem test_withFetchWord : (fetched 32 0x00002A01).map (·.2) = some 0x42 ∧
    (fetched 32 4).map (·.1.unknown) = some true ∧ (fetched 32 0x68010016).map (·.1.busy) = some true ∧
    (fetched 32 0x20).map (·.1.busy) = some true := by decide

/-! ## Witnesses: the hypotheses of every statement are met somewhere -/

/-- An idle block with D = 2 and a settle of one cycle, under the machine's own parameters, and some inputs. -/
def ready (inputs : List Input) : State :=
  { State.reset with twDelay := 2, dlat := 2, settle := 1, slat := 1, inputs := inputs }

/-- The same block standing at a position of an op. -/
def standing (op a b : Byte) (q : Seq) (det : Det) (inputs : List Input) : State :=
  { ready inputs with
    stat := { (ready inputs).stat with busy := q.running, det := det }, opl := op, al := a, bl := b, seq := q }

theorem standing_inv (op a b : Byte) (q : Seq) (det : Det) (inputs : List Input)
    (hq : q.running = true → q.todo ≠ [] ∧ ∃ rule ∈ rulesOf op a b, q.todo <:+ rule) (hs : q.atSettle = false)
    (hd : det = .pending ↔ Stmt.act .compareId ∈ q.todo ∧ Stmt.act .setPending ∉ q.todo)
    (hi : Stmt.act .setPending ∈ q.todo → det = .init) : (standing op a b q det inputs).Inv Config.params where
  busy_running := rfl
  position := hq
  pend_xfer := fun h => nomatch h
  valid_pend := fun h => nomatch h
  dlat_pos := (by decide : 1 ≤ (2 : BitVec 16).toNat)
  hc_lt := (by decide : (0 : BitVec 16).toNat < (2 : BitVec 16).toNat)
  hc_phase := fun h => absurd rfl h
  sc_settle := by simp [standing, ready, State.reset, State.resetWith, hs]
  det_pending := hd
  det_init := hi
  devstop_bit := (by decide : false = stoppedBit Config.params 0x00)
  port_fixed := rfl
  rst_reset := fun h => nomatch h

theorem idle_inv (det : Det) (h : det ≠ .pending) (inputs : List Input) :
    (standing 0 0 0 .idle det inputs).Inv Config.params :=
  standing_inv 0 0 0 .idle det inputs (fun h => nomatch h) rfl
    ⟨fun e => absurd e h, fun e => absurd e.1 List.not_mem_nil⟩ (fun e => absurd e List.not_mem_nil)

/-- A ready block, whatever it remembers of the device and whatever comes next. -/
theorem idle_ready (det : Det) (h : det ≠ .pending) (inputs : List Input) : (standing 0 0 0 .idle det inputs).Ready :=
  ⟨idle_inv det h inputs, rfl, rfl⟩

/-- A block at the beginning of an op's rule, where the rule does not begin with a settle and is not sf.detect's. -/
theorem begun_inv (op a b : Byte) (rule : List Stmt) (inputs : List Input) (hr : rule ∈ rulesOf op a b) (hne : rule ≠ [])
    (hs : (Seq.run rule).atSettle = false) (hc : Stmt.act .compareId ∉ rule) (hp : Stmt.act .setPending ∉ rule) :
    (standing op a b (.run rule) .init inputs).Inv Config.params :=
  standing_inv op a b (.run rule) .init inputs (fun _ => ⟨hne, rule, hr, List.suffix_rfl⟩) hs
    ⟨fun e => (nomatch e), fun e => absurd e.1 hc⟩ (fun e => absurd e hp)

/-- Hypotheses: `s.inputs = write w :: later`, `rst = 0`, `decode w = ok i`. -/
theorem witness_StepRunsDecoded : (ready [.hostWrite 0x00 4 0x00002A01]).inputs = .hostWrite 0x00 4 0x00002A01 :: [] ∧
    (ready [.hostWrite 0x00 4 0x00002A01]).rst = false ∧ decode 0x00002A01 = .ok (.bcdEnc 42 0 0) := by decide

/-- Hypotheses: not BUSY; B at 1 and 8, A at 2, and each case of DET. -/
theorem witness_SequencedOpsStart : (ready []).stat.busy = false ∧ 1 ≤ (1 : Byte).toNat ∧ (8 : Byte).toNat ≤ 8 ∧
    (2 : Byte).toNat ≤ 2 ∧ (ready []).stat.det = .init ∧ (standing 0 0 0 .idle .detected []).stat.det = .detected ∧
    (standing 0 0 0 .idle .notDetected []).stat.det = .notDetected := by decide

/-- Hypotheses: BUSY, and a word written to CMD. -/
theorem witness_BusyRejectsCommand :
    (standing 0x10 0 0 (.run twStartRule) .init [.hostWrite 0x00 4 0x00000501]).stat.busy = true ∧
    (standing 0x10 0 0 (.run twStartRule) .init [.hostWrite 0x00 4 0x00000501]).inputs = .hostWrite 0x00 4 0x00000501 :: [] ∧
    (standing 0x10 0 0 (.run twStartRule) .init [.hostWrite 0x00 4 0x00000501]).rst = false := by decide

/-- Hypotheses: not BUSY, a word with a reserved OP at each end of each reserved range. -/
theorem witness_ReservedOpCompletesWithError :
    (ready [.hostWrite 0x00 4 ((0 : Byte) ++ (0 : Byte) ++ (0 : Byte) ++ (0x05 : Byte))]).stat.busy = false ∧
    (0x00 : Byte).toNat = 0 ∧ (0x05 ≤ (0x05 : Byte).toNat ∧ (0x0F : Byte).toNat ≤ 0x0F) ∧
    (0x18 ≤ (0x18 : Byte).toNat ∧ (0x1F : Byte).toNat ≤ 0x1F) ∧ 0x27 ≤ (0x27 : Byte).toNat ∧
    0x27 ≤ (0xFF : Byte).toNat := by decide

/-- Hypotheses: not BUSY; B at 0 and 9, A at 3. -/
theorem witness_BadOperandCompletesWithError : (ready []).stat.busy = false ∧ (0 : Byte).toNat = 0 ∧ 8 < (9 : Byte).toNat ∧
    2 < (3 : Byte).toNat := by decide

/-- Hypothesis of the four BCD ops: not BUSY; each clause of time.enc and time.dec at a value of its own. -/
theorem witness_BcdEncResult : (ready []).stat.busy = false := rfl
theorem witness_BcdDecResult : (ready []).stat.busy = false := rfl
theorem witness_TimeEncResult : (withTime 0x01000000 0x07CC0100 (ready [])).time.legal = true ∧
    (withTime 0x1F173B3B 0x082F060B (ready [])).time.legal = true ∧
    (withTime 0x1F173B3B 0x0830060B (ready [])).time.legal = false ∧
    (withTime 0x1F173B3B 0x0830060B (ready [])).stat.busy = false := by decide
theorem witness_TimeDecResult : (ready []).buf = Vector.replicate 8 0x00 ∧
    (withBuf 0x30459315 0x05032401 (ready [])).buf ≠ Vector.replicate 8 0x00 ∧
    decodeValid (withBuf 0x30459315 0x05032401 (ready [])).buf = true ∧
    decodeValid (withBuf 0x5A008001 0x01019600 (ready [])).buf = false := by decide
theorem witness_CodecRoundTrips : (99 : Byte).toNat ≤ 99 ∧ validBcd 0x99 = true ∧
    timeValid (withTime 0x1F173B3B 0x082F060B (ready [])).time = true := by decide

/-- Hypotheses of the runs of tw.start, tw.stop, tw.wrbit, tw.rdbit, tw.wrbyte, tw.rdbyte, tw.rdblk and tw.wrblk: a ready block
with no input, and B at 1 and 8. -/
theorem witness_TwoWireRuns : (standing 0 0 0 .idle .init []).Ready ∧ (standing 0 0 0 .idle .init []).inputs = [] ∧
    1 ≤ (1 : Byte).toNat ∧ (8 : Byte).toNat ≤ 8 := ⟨idle_ready .init (by decide) [], rfl, by decide, by decide⟩

theorem witness_TwoWireOpCompletes : (standing 0x10 0 0 (.run twStartRule) .init []).Inv Config.params ∧
    (standing 0x10 0 0 (.run twStartRule) .init []).stat.busy = true ∧ 0x10 ≤ (0x10 : Byte).toNat ∧
    (0x17 : Byte).toNat ≤ 0x17 ∧ (standing 0x10 0 0 (.run twStartRule) .init []).inputs = [] :=
  ⟨begun_inv 0x10 0 0 _ [] (by decide) (by decide) rfl (by decide) (by decide), rfl, by decide, by decide, rfl⟩

theorem witness_HoldKeepsOutputs : ∃ s t : State, s.hc ≠ 0 ∧ s.inputs = [] ∧ step s = .next t :=
  ⟨{ standing 0x10 0 0 (.run twStartRule) .init [] with hc := 1 }, _, by decide, rfl, rfl⟩

/-- Hypotheses, each clause: a phase of 2 cycles at its beginning and in its last cycle, HC = 2, the reply of a control block's
write with SLAT = 1, and SC = 2. -/
theorem witness_CountersCountDown (rx : Vector Byte 9) :
    (∃ s, s = standing 0x10 0 0 (.run twStartRule) .init [] ∧ s.seq = .run (phaseLit .scl false :: twStartRule.tail) ∧
      s.pend = false ∧ s.rst = false ∧ s.inputs = [] ∧ s.hc = 0 ∧ 1 < s.dlat.toNat ∧
      1 < ({ s with hc := 2 } : State).hc.toNat ∧ ({ s with hc := 1 } : State).hc = 1 ∧
      ({ s with dlat := 1 } : State).dlat = 1) ∧
    (∃ s, s = { standing 0x23 0 0 (.run (sfWrblkRule 0)) .init [.transportReplies rx] with pend := true } ∧
      s.seq = .run (.xfer (.writeBlock 0 .buf) :: .act .loadSc :: .settle :: [completeOk]) ∧ s.pend = true ∧
      s.req.valid = false ∧ s.rst = false ∧ s.inputs = .transportReplies rx :: [] ∧ s.slat ≠ 0) ∧
    ∃ s, s = { standing 0x23 0 0 (.run [.settle, completeOk]) .init [] with sc := 2 } ∧
      s.seq = .run (.settle :: [completeOk]) ∧ s.pend = false ∧ s.rst = false ∧ s.inputs = [] ∧ 1 < s.sc.toNat :=
  ⟨⟨_, rfl, rfl, rfl, rfl, rfl, rfl, (by decide : 1 < (2 : BitVec 16).toNat), (by decide : 1 < (2 : BitVec 16).toNat), rfl,
      rfl⟩,
    ⟨_, rfl, rfl, rfl, rfl, rfl, rfl, (by decide : (1 : Word) ≠ 0)⟩,
    ⟨_, rfl, rfl, rfl, rfl, rfl, (by decide : 1 < (2 : Word).toNat)⟩⟩

theorem witness_FrameRequestPins : (standing 0x21 0 0 (.run identRule) .init []).seq = .run (.xfer .identify :: identRule.tail) ∧
    (standing 0x21 0 0 (.run identRule) .init []).pend = false ∧ (standing 0x21 0 0 (.run identRule) .init []).rst = false ∧
    (standing 0x21 0 0 (.run identRule) .init []).inputs = [] := by decide

/-- Hypotheses of the runs of sf.detect (each case of DET), sf.ident, sf.rdblk, sf.wrblk and sf.rdtime: a ready block whose
frame is answered, A at 0 and 2. -/
theorem witness_SerialRuns (rx : Vector Byte 9) :
    (standing 0 0 0 .idle .init (answered rx)).Ready ∧
    (standing 0 0 0 .idle .init (answered rx)).inputs = answered rx ++ [] ∧
    (standing 0 0 0 .idle .init (answered rx)).stat.det = .init ∧ (2 : Byte).toNat ≤ 2 :=
  ⟨idle_ready .init (by decide) _, by simp [standing, ready], rfl, by decide⟩
theorem witness_SfWrblkRuns (rx : Vector Byte 9) :
    (standing 0 0 0 .idle .init (answered rx ++ cycles 1)).Ready ∧
    (standing 0 0 0 .idle .init (answered rx ++ cycles 1)).inputs =
      answered rx ++ cycles (if (0 : Byte) = 0 then (standing 0 0 0 .idle .init []).settle.toNat else 0) ++ [] :=
  ⟨idle_ready .init (by decide) _, by simp [standing, ready]⟩
theorem witness_SfDetectRemembers : (standing 0 0 0 .idle .detected []).Ready ∧ (standing 0 0 0 .idle .notDetected []).Ready :=
  ⟨idle_ready .detected (by decide) [], idle_ready .notDetected (by decide) []⟩
theorem witness_SfDetectPendingStops : (standing 0 0 0 .idle .pending []).stat.busy = false ∧
    (standing 0 0 0 .idle .pending []).stat.det = .pending ∧ (standing 0 0 0 .idle .init []).Inv Config.params :=
  ⟨rfl, rfl, idle_inv .init (by decide) []⟩

/-- A control block of zeros has its stop bit 0, wherever that bit is: equal to A[0] of 0 and unequal to A[0] of 1. -/
theorem witness_SfSetstop : blockBit #v[0, 0, 0, 0, 0, 0, 0, 0] Config.params.ctrl.stop = (0 : Byte).getLsbD 0 ∧
    blockBit #v[0, 0, 0, 0, 0, 0, 0, 0] Config.params.ctrl.stop ≠ (1 : Byte).getLsbD 0 ∧
    (standing 0 0 0 .idle .init (answered (Vector.replicate 9 0))).Ready ∧
    (standing 0 0 0 .idle .init (answered (Vector.replicate 9 0) ++ answered (Vector.replicate 9 0) ++ cycles 1)).Ready ∧
    (standing 0 0 0 .idle .init (answered (Vector.replicate 9 0) ++ answered (Vector.replicate 9 0) ++ cycles 1)).inputs =
      answered (Vector.replicate 9 0) ++ answered (Vector.replicate 9 0)
        ++ cycles (standing 0 0 0 .idle .init []).settle.toNat ++ [] := by
  have h : ∀ pos : Fin 64, blockBit #v[0, 0, 0, 0, 0, 0, 0, 0] pos = false := by decide
  exact ⟨h _, by rw [h]; decide, idle_ready .init (by decide) _, idle_ready .init (by decide) _, by decide⟩

/-- The two ways sf.settime is turned away, and the two it goes through the device. -/
def timed (t0 t1 : Word) (wr : Bool) (inputs : List Input) : State :=
  { withTime t0 t1 (standing 0 0 0 .idle .init inputs) with wrExcl := wr }
theorem timed_ready (t0 t1 : Word) (wr : Bool) (inputs : List Input) : (timed t0 t1 wr inputs).Ready := by
  obtain ⟨⟨h1, h2, h3, h4, h5, h6, h7, h8, h9, h10, h11, h12, h13⟩, hb, hr⟩ := idle_ready .init (by decide) inputs
  exact ⟨⟨h1, h2, h3, h4, h5, h6, h7, h8, h9, h10, h11, h12, fun h => nomatch h⟩, hb, hr⟩
theorem witness_SfSettimeTurnedAway : (timed 0x1F173B3B 0x0830060B false []).Ready ∧
    (timed 0x1F173B3B 0x0830060B false []).time.legal = false ∧ (timed 0x01000000 0x07CC0100 true []).Ready ∧
    (timed 0x01000000 0x07CC0100 true []).time.legal = true ∧ (timed 0x01000000 0x07CC0100 true []).wrExcl = true :=
  ⟨timed_ready _ _ _ _, by decide, timed_ready _ _ _ _, by decide, rfl⟩
theorem witness_SfSettimeSucceeds : ∃ (s : State) (r1 r2 r3 r4 r5 : Vector Byte 9), s.Ready ∧ s.time.legal = true ∧
    s.wrExcl = false ∧ r3[2].getLsbD 0 = true ∧
    s.inputs = answered r1 ++ answered r2 ++ cycles s.settle.toNat ++ answered r3 ++ answered r4
      ++ cycles s.settle.toNat ++ answered r5 ++ cycles s.settle.toNat ++ [] := by
  let r : Vector Byte 9 := #v[0, 0x10, 1, 0, 0, 0, 0, 0, 1]
  exact ⟨timed 0x01000000 0x07CC0100 false (answered r ++ answered r ++ cycles 1 ++ answered r ++ answered r ++ cycles 1
    ++ answered r ++ cycles 1), r, r, r, r, r, timed_ready _ _ _ _, by decide, rfl, by decide, by decide⟩
theorem witness_SfSettimeNotStopped : ∃ (s : State) (r1 r2 r3 : Vector Byte 9), s.Ready ∧ s.time.legal = true ∧
    s.wrExcl = false ∧ r3[2].getLsbD 0 = false ∧
    s.inputs = answered r1 ++ answered r2 ++ cycles s.settle.toNat ++ answered r3 ++ [] := by
  let r : Vector Byte 9 := #v[0, 0x10, 0, 0, 0, 0, 0, 0, 0]
  exact ⟨timed 0x1F173B3B 0x082F060B false (answered r ++ answered r ++ cycles 1 ++ answered r), r, r, r,
    timed_ready _ _ _ _, by decide, rfl, by decide, by decide⟩

/-- The block at the write of sf.setstop, in its next step. -/
theorem witness_ControlBlocksSentKeepInvariant :
    (standing 0x24 1 0 (.run (setstopRule.drop 3)) .init []).Inv Config.params ∧
    (standing 0x24 1 0 (.run (setstopRule.drop 3)) .init []).req.valid = false ∧
    ∃ t, step (standing 0x24 1 0 (.run (setstopRule.drop 3)) .init []) = .next t ∧ t.req.valid = true ∧ t.opl = 0x24 ∧
      t.req.txlen = 10 ∧ t.req.tx[1] = 0 :=
  ⟨standing_inv 0x24 1 0 _ .init [] (fun _ => ⟨by decide, setstopRule, by decide, ⟨setstopRule.take 3, by decide⟩⟩) rfl
    (by decide) (by decide), rfl, _, rfl, rfl, rfl, rfl, rfl⟩

/-- The block that waits for a reply, with nothing queued. -/
theorem witness_UnansweredFrameHolds : ∃ s t : State, s.Inv Config.params ∧ s.pend = true ∧ s.inputs = [] ∧ step s = .next t := by
  refine ⟨{ standing 0x21 0 0 (.run identRule) .init [] with pend := true }, _, ?_, rfl, rfl, rfl⟩
  obtain ⟨h1, h2, h3, h4, h5, h6, h7, h8, h9, h10, h11, h12, h13⟩ :=
    begun_inv 0x21 0 0 identRule [] (by decide) (by decide) rfl (by decide) (by decide)
  exact ⟨h1, h2, fun _ => rfl, fun h => (nomatch h), h5, h6, h7, h8, h9, h10, h11, h12, fun h => nomatch h⟩

/-- The host's accesses: a read at an offset of each clause, a write at each, `rst` released, BUSY or not. -/
theorem witness_StatRegister : (ready [.hostRead 0x04 4]).inputs = .hostRead 0x04 4 :: [] ∧
    (ready [.hostWrite 0x04 4 0xA]).inputs = .hostWrite 0x04 4 0xA :: [] ∧ (ready [.hostWrite 0x04 4 0xA]).rst = false := by decide
theorem witness_RegisterReads : (ready [.hostRead 0x28 4]).inputs = .hostRead 0x28 4 :: [] ∧
    (0x28#6).toNat % 4 = 0 ∧ (0x3C#6).toNat % 4 = 0 ∧ 0x2C ≤ (0x2C#6).toNat ∧ 0x2C ≤ (0x3C#6).toNat := by decide
theorem witness_LineLevels : (ready []).sdaO = true ∧ (ready []).sclO = true ∧
    ({ ready [] with sdaO := false, sclO := false, sdaEnv := some false, sclEnv := some true } : State).sdaO = false := by decide
theorem witness_RegisterWritesReadBack : (ready [.hostWrite 0x10 4 1]).inputs = .hostWrite 0x10 4 1 :: [] ∧
    (ready [.hostWrite 0x10 4 1]).rst = false ∧ (ready [.hostWrite 0x10 4 1]).stat.busy = false ∧
    (standing 0x10 0 0 (.run twStartRule) .init [.hostWrite 0x1C 4 1]).stat.busy = true := by decide
theorem witness_IgnoredWrites : (ready [.hostWrite 0x2C 4 1]).inputs = .hostWrite 0x2C 4 1 :: [] ∧ 0x2C ≤ (0x2C#6).toNat ∧
    (0x3C#6).toNat % 4 = 0 := by decide
theorem witness_BadAccessRefused : (ready [.hostWrite 0x10 2 1]).inputs = .hostWrite 0x10 2 1 :: [] ∧ (2 ≠ 4) ∧
    (0x01#6).toNat % 4 ≠ 0 ∧ (ready [.hostRead 0x01 4]).inputs = .hostRead 0x01 4 :: [] := by decide

theorem witness_GpioLines : (ready [.gpio 3]).inputs = .gpio 3 :: [] ∧ exParams.gpioSclBit ≠ exParams.gpioSdaBit := by decide
theorem witness_OpcodeMap : (0x27 : Byte) ∉ ([0x01, 0x26] : List Byte) ∧ mnemonics.lookup "sf.settime" = some 0x26 := by decide

/-- `rst` asserted in the middle of an op, and released. -/
theorem witness_ResetAbandons (w : Word) (rx : Vector Byte 9) :
    (standing 0x10 0 0 (.run twStartRule) .init
      [.rst true, .hostWrite 0x00 4 w, .clock, .transportReplies rx, .rst false, .transportReplies rx]).inputs =
      .rst true :: .hostWrite 0x00 4 w :: .clock :: .transportReplies rx :: .rst false :: .transportReplies rx :: [] := rfl

theorem witness_StepKeepsInv : ∃ t, (standing 0x10 0 0 (.run twStartRule) .init []).Inv Config.params ∧
    step (standing 0x10 0 0 (.run twStartRule) .init []) = .next t :=
  ⟨_, begun_inv 0x10 0 0 _ [] (by decide) (by decide) rfl (by decide) (by decide), rfl⟩
theorem witness_StepNeverStops : (standing 0 0 0 .idle .init [.hostWrite 0x00 2 0]).Inv Config.params :=
  idle_inv .init (by decide) _

/-- DET changes: sf.detect's first cycle, its reply, and `rst`. -/
theorem witness_DetTransitions_init : ∃ t, (standing 0x20 0 0 (.run detectRule) .init []).Inv Config.params ∧
    step (standing 0x20 0 0 (.run detectRule) .init []) = .next t ∧ t.stat.det = .pending :=
  ⟨_, standing_inv 0x20 0 0 _ .init [] (fun _ => ⟨by decide, detectRule, by decide, List.suffix_rfl⟩) rfl
    (by decide) (by decide), rfl, rfl⟩
theorem witness_DetTransitions_reply : ∃ s t : State, s.Inv Config.params ∧ step s = .next t ∧ s.stat.det = .pending ∧
    t.stat.det ≠ .pending := by
  refine ⟨{ standing 0x20 0 0 (.run detectRule.tail) .pending [.transportReplies (Vector.replicate 9 0)] with pend := true }, _, ?_,
    rfl, rfl, ?_⟩
  · obtain ⟨h1, h2, h3, h4, h5, h6, h7, h8, h9, h10, h11, h12, h13⟩ :=
      standing_inv 0x20 0 0 (.run detectRule.tail) .pending [.transportReplies (Vector.replicate 9 0)]
        (fun _ => ⟨by decide, detectRule, by decide, (List.tail_suffix detectRule : detectRule.tail <:+ detectRule)⟩) rfl (by decide) (by decide)
    exact ⟨h1, h2, fun _ => rfl, fun h => (nomatch h), h5, h6, h7, h8, h9, h10, h11, h12, fun h => nomatch h⟩
  · show (if _ then Det.detected else Det.notDetected) ≠ .pending
    split <;> decide
theorem witness_DetTransitions_rst : ∃ t, (standing 0 0 0 .idle .detected [.rst true]).Inv Config.params ∧
    step (standing 0 0 0 .idle .detected [.rst true]) = .next t ∧ t.rst = true ∧ t.stat.det = .init :=
  ⟨_, idle_inv .detected (by decide) _, rfl, rfl, rfl⟩

/-- A step that writes RES, one that writes CSH, and one that moves a line. -/
theorem witness_OnlyNamedOpsWrite_res : ∃ t, (standing 0 0 0 .idle .init [.hostWrite 0x00 4 0x00002A01]).Inv Config.params ∧
    step (standing 0 0 0 .idle .init [.hostWrite 0x00 4 0x00002A01]) = .next t ∧ t.rst = false ∧
    t.res ≠ (standing 0 0 0 .idle .init []).res :=
  ⟨_, idle_inv .init (by decide) _, rfl, rfl, by decide⟩
theorem witness_OnlyNamedOpsWrite_csh : ∃ s t : State, s.Inv Config.params ∧ step s = .next t ∧ t.rst = false ∧
    t.csh ≠ s.csh := by
  refine ⟨{ standing 0x26 0 0 (.run (settimeRule.drop 2)) .init [.transportReplies (Vector.replicate 9 1)] with pend := true }, _,
    ?_, rfl, rfl, by decide⟩
  obtain ⟨h1, h2, h3, h4, h5, h6, h7, h8, h9, h10, h11, h12, h13⟩ :=
    standing_inv 0x26 0 0 (.run (settimeRule.drop 2)) .init [.transportReplies (Vector.replicate 9 1)]
      (fun _ => ⟨by decide, settimeRule, by decide, (List.drop_suffix 2 settimeRule : settimeRule.drop 2 <:+ settimeRule)⟩) rfl
      (by decide) (by decide)
  exact ⟨h1, h2, fun _ => rfl, fun h => (nomatch h), h5, h6, h7, h8, h9, h10, h11, h12, fun h => nomatch h⟩
theorem witness_OnlyNamedOpsWrite_line : ∃ t, (standing 0x10 0 0 (.run twStartRule) .init []).Inv Config.params ∧
    step (standing 0x10 0 0 (.run twStartRule) .init []) = .next t ∧ t.sclO ≠ (standing 0x10 0 0 (.run twStartRule) .init []).sclO :=
  ⟨_, begun_inv 0x10 0 0 _ [] (by decide) (by decide) rfl (by decide) (by decide), rfl, by decide⟩
/-- The two ops that send BUF: tw.wrblk of 8 bytes before its completion, and sf.wrblk of block 2 before its frame. -/
theorem witness_RunningOpKeepsItsInputs_buf :
    (∃ t, (standing 0x17 0 8 (.run [completeOk]) .init []).Inv Config.params ∧
      (standing 0x17 0 8 (.run [completeOk]) .init []).stat.busy = true ∧
      step (standing 0x17 0 8 (.run [completeOk]) .init []) = .next t ∧ t.rst = false) ∧
    ∃ t, (standing 0x23 2 0 (.run (sfWrblkRule 2)) .init []).Inv Config.params ∧
      (standing 0x23 2 0 (.run (sfWrblkRule 2)) .init []).stat.busy = true ∧
      step (standing 0x23 2 0 (.run (sfWrblkRule 2)) .init []) = .next t ∧ t.rst = false :=
  ⟨⟨_, standing_inv 0x17 0 8 (.run [completeOk]) .init []
      (fun _ => ⟨by decide, twWrblkRule 8, List.mem_singleton.mpr rfl, List.suffix_append _ _⟩) rfl (by decide) (by decide),
      rfl, rfl, rfl⟩,
    ⟨_, begun_inv 0x23 2 0 _ [] (by decide) (by decide) rfl (by decide) (by decide), rfl, rfl, rfl⟩⟩

theorem witness_RunningOpKeepsItsInputs : ∃ t, (standing 0x10 0 0 (.run twStartRule) .init []).Inv Config.params ∧
    (standing 0x10 0 0 (.run twStartRule) .init []).stat.busy = true ∧
    step (standing 0x10 0 0 (.run twStartRule) .init []) = .next t ∧ t.rst = false :=
  ⟨_, begun_inv 0x10 0 0 _ [] (by decide) (by decide) rfl (by decide) (by decide), rfl, rfl, rfl⟩

/-- A block with OVERRUN, DONE and IE set; and writes that clear the first two, and that raise IRQ. -/
def flagged (inputs : List Input) : State :=
  { standing 0 0 0 .idle .init inputs with
    stat := { (standing 0 0 0 .idle .init inputs).stat with done := true, overrun := true }, ie := true }
theorem flagged_inv (inputs : List Input) : (flagged inputs).Inv Config.params := by
  obtain ⟨h1, h2, h3, h4, h5, h6, h7, h8, h9, h10, h11, h12, h13⟩ := idle_inv .init (by decide) inputs
  exact ⟨h1, h2, h3, h4, h5, h6, h7, h8, h9, h10, h11, h12, fun h => nomatch h⟩
theorem witness_OverrunIsSticky_set : (standing 0x10 0 0 (.run twStartRule) .init [.hostWrite 0x00 4 1]).stat.busy = true ∧
    (standing 0x10 0 0 (.run twStartRule) .init [.hostWrite 0x00 4 1]).rst = false := by decide
theorem witness_OverrunIsSticky : ∃ t, (flagged [.hostWrite 0x04 4 0xA]).Inv Config.params ∧
    step (flagged [.hostWrite 0x04 4 0xA]) = .next t ∧ (flagged [.hostWrite 0x04 4 0xA]).stat.overrun = true ∧
    t.stat.overrun = false := ⟨_, flagged_inv _, rfl, rfl, rfl⟩
theorem witness_IrqLevel_falls : ∃ t, (flagged [.hostWrite 0x04 4 0xA]).Inv Config.params ∧
    step (flagged [.hostWrite 0x04 4 0xA]) = .next t ∧ irq (flagged [.hostWrite 0x04 4 0xA]) = true ∧ irq t = false :=
  ⟨_, flagged_inv _, rfl, rfl, rfl⟩
theorem witness_IrqLevel_rises : ∃ t, (standing 0 0 0 .idle .init [.hostWrite 0x00 4 0]).Inv Config.params ∧
    step { standing 0 0 0 .idle .init [.hostWrite 0x00 4 0] with ie := true } = .next t ∧
    irq { standing 0 0 0 .idle .init [.hostWrite 0x00 4 0] with ie := true } = false ∧ irq t = true :=
  ⟨_, idle_inv .init (by decide) _, rfl, rfl, rfl⟩

end Sys2Proof.Tests
end

section
/-! What one step can do: the outcomes of an accepted command word, of a write to a register, and of one queued step of an
agent. The invariant's proof and the statements about single steps below go through these inversions. -/

namespace Sys2Proof.Machine

open Host (Outcome)

/-! ## The statements of an op's rule -/

/-- The ops whose rules hold a statement, for the statements that write to a register the host reads, to BUF, CSH or a line,
and for the waits of the serial ops; the other statements are not told apart. -/
def Stmt.belongsTo (op : Byte) : Stmt → Bool
  | .phase _ _ => decide (0x10 ≤ op.toNat ∧ op.toNat ≤ 0x17)
  | .settle => decide (op ∈ ([0x23, 0x24, 0x26] : List Byte))
  | .xfer .identify => decide (op ∈ ([0x20, 0x21, 0x26] : List Byte))
  | .xfer (.readBlock _) => decide (op ∈ ([0x22, 0x24, 0x25, 0x26] : List Byte))
  | .xfer (.writeBlock _ pl) => decide (op ∈ ([0x24, 0x26] : List Byte) ∨ op = 0x23 ∧ pl = .buf)
  | .act .sampleRes => decide (op ∈ ([0x13, 0x14] : List Byte))
  | .act .resFromSr => decide (op = 0x15)
  | .act .bufFromSr => decide (op = 0x16)
  | .act .resFromId => decide (op ∈ ([0x20, 0x21] : List Byte))
  | .act .saveCsh => decide (op ∈ ([0x24, 0x26] : List Byte))
  | .act .setPending => decide (op = 0x20)
  | .act .compareId => decide (op = 0x20)
  | .act .completeTimeDecode => decide (op = 0x25)
  | _ => true

theorem twRdblkRule_belongs (len : Nat) : (twRdblkRule len).all (Stmt.belongsTo 0x16) = true := by
  have hloop : ((byteIndexes len).flatMap (receiveByteList len)).all (Stmt.belongsTo 0x16) = true := by
    rw [List.all_flatMap]
    exact List.all_eq_true.mpr fun _ _ => rfl
  simp only [twRdblkRule, List.all_append, hloop]
  decide

theorem twWrblkRule_belongs (len : Nat) : (twWrblkRule len).all (Stmt.belongsTo 0x17) = true := by
  have hloop : ((byteIndexes len).flatMap sendByteList).all (Stmt.belongsTo 0x17) = true := by
    rw [List.all_flatMap]
    exact List.all_eq_true.mpr fun _ _ => rfl
  simp only [twWrblkRule, List.all_append, hloop]
  decide

theorem sfWrblkRule_belongs (blk : Byte) : (sfWrblkRule blk).all (Stmt.belongsTo 0x23) = true := by
  unfold sfWrblkRule wrbList
  split <;> rfl

/-- A rule has statements, and only statements of its own op. -/
theorem rules_nonempty_belong {op a b : Byte} {rule : List Stmt} (hr : rule ∈ rulesOf op a b) :
    rule ≠ [] ∧ rule.all (Stmt.belongsTo op) = true := by
  unfold rulesOf at hr
  split at hr
  case h_7 =>
    split at hr <;> simp only [List.mem_singleton, List.not_mem_nil] at hr
    exact hr ▸ ⟨List.cons_ne_nil _ _, twRdblkRule_belongs _⟩
  case h_8 =>
    split at hr <;> simp only [List.mem_singleton, List.not_mem_nil] at hr
    exact hr ▸ ⟨List.cons_ne_nil _ _, twWrblkRule_belongs _⟩
  case h_9 =>
    simp only [List.mem_cons, List.not_mem_nil, or_false] at hr
    rcases hr with rfl | rfl | rfl <;> exact ⟨List.cons_ne_nil _ _, rfl⟩
  case h_11 =>
    split at hr <;> simp only [List.mem_singleton, List.not_mem_nil] at hr
    exact hr ▸ ⟨List.cons_ne_nil _ _, rfl⟩
  case h_12 =>
    split at hr <;> simp only [List.mem_singleton, List.not_mem_nil] at hr
    exact hr ▸ ⟨List.cons_ne_nil _ _, sfWrblkRule_belongs _⟩
  all_goals simp only [List.mem_singleton, List.not_mem_nil] at hr
  all_goals exact hr ▸ ⟨List.cons_ne_nil _ _, rfl⟩

/-- A statement of an op's rule belongs to the op. -/
theorem belongsTo_of_mem_rule {op a b : Byte} {rule : List Stmt} {x : Stmt} (hr : rule ∈ rulesOf op a b) (hx : x ∈ rule) :
    x.belongsTo op = true :=
  List.all_eq_true.mp (rules_nonempty_belong hr).2 x hx

/-- sf.detect's comparison comes after the statement that sets Pending. -/
theorem setPending_mem_of_compareId_mem {op a b : Byte} {rule : List Stmt} (hr : rule ∈ rulesOf op a b)
    (h : Stmt.act .compareId ∈ rule) : Stmt.act .setPending ∈ rule := by
  obtain rfl : op = 0x20 := by simpa [Stmt.belongsTo] using belongsTo_of_mem_rule hr h
  replace hr : rule ∈ [detectMemoRule true, detectMemoRule false, detectRule] := hr
  simp only [List.mem_cons, List.not_mem_nil, or_false] at hr
  rcases hr with rfl | rfl | rfl
  · exact absurd h (by decide)
  · exact absurd h (by decide)
  · decide

/-! ## An accepted command word -/

/-- What the acceptance of a command word leads to: a combinational op or a refused word completes at once, and only bcd.enc
and bcd.dec may have written RES; a sequenced op starts at one of its rules, sf.detect's frame only with DET = Init. -/
inductive Accepted (s : State) : State → Prop
  | completed (op a b c : Byte) (ok : Bool) (err : ErrCode) (res : Word) (buf : Block) (time : TimeFields) (unknown : Bool)
      (hres : res = s.res ∨ op ∈ ([0x01, 0x02] : List Byte)) :
      Accepted s (complete ok err
        { accept op a b c s with
          res := res, buf := buf, time := time, stat := { (accept op a b c s).stat with unknown := unknown } })
  | started (op a b c : Byte) (rule : List Stmt) (hrule : rule ∈ rulesOf op a b)
      (hdet : Stmt.act .setPending ∈ rule → s.stat.det = .init) :
      Accepted s (startSeq rule (accept op a b c s))

/-- A word that is refused completes with nothing written. -/
theorem accepted_raiseErr (s : State) (op a b c : Byte) (err : ErrCode) :
    Accepted s (raiseErr err (accept op a b c s)) :=
  .completed op a b c false err s.res s.buf s.time false (.inl rfl)

/-- An op other than sf.detect starts whatever DET is. -/
theorem accepted_start (s : State) {op a b : Byte} (c : Byte) {rule : List Stmt} (hrule : rule ∈ rulesOf op a b)
    (hop : op ≠ 0x20) : Accepted s (startSeq rule (accept op a b c s)) := by
  refine .started op a b c rule hrule fun h => absurd ?_ hop
  simpa [Stmt.belongsTo] using belongsTo_of_mem_rule hrule h

/-- While BUSY every instruction is rejected. -/
theorem exec_busy (i : Instr) (s : State) (h : s.stat.busy = true) : exec i s = .next (reject s) := by
  cases i <;> simp only [exec] <;> exact issue_busy _ _ _ _ _ _ h

/-- An instruction that the idle block takes is accepted. -/
theorem exec_accepted {i : Instr} {s t : State} (hb : s.stat.busy = false) (h : exec i s = .next t) : Accepted s t := by
  cases i with
  | bcdEnc a b c =>
    rw [exec, execBcdEnc, issue_idle _ _ _ _ _ _ hb] at h
    obtain rfl := Outcome.next.inj h
    split <;> exact .completed 0x01 a b c _ _ _ s.buf s.time false (.inr (by decide))
  | bcdDec a b c =>
    rw [exec, execBcdDec, issue_idle _ _ _ _ _ _ hb] at h
    obtain rfl := Outcome.next.inj h
    split <;> exact .completed 0x02 a b c _ _ _ s.buf s.time false (.inr (by decide))
  | timeEnc a b c =>
    rw [exec, execTimeEnc, issue_idle _ _ _ _ _ _ hb] at h
    obtain rfl := Outcome.next.inj h
    split
    · exact .completed 0x03 a b c _ _ s.res _ s.time false (.inl rfl)
    · exact accepted_raiseErr s 0x03 a b c .range
  | timeDec a b c =>
    rw [exec, execTimeDec, issue_idle _ _ _ _ _ _ hb] at h
    obtain rfl := Outcome.next.inj h
    unfold timeDecodeAndComplete
    dsimp only
    split <;> exact .completed 0x04 a b c _ _ s.res s.buf _ _ (.inl rfl)
  | twRdblk a b c =>
    rw [exec, execTwRdblk, issue_idle _ _ _ _ _ _ hb] at h
    obtain rfl := Outcome.next.inj h
    split
    next hl => exact accepted_start s c (by simpa [rulesOf] using hl) (by decide)
    next => exact accepted_raiseErr s 0x16 a b c .badOperand
  | twWrblk a b c =>
    rw [exec, execTwWrblk, issue_idle _ _ _ _ _ _ hb] at h
    obtain rfl := Outcome.next.inj h
    split
    next hl => exact accepted_start s c (by simpa [rulesOf] using hl) (by decide)
    next => exact accepted_raiseErr s 0x17 a b c .badOperand
  | sfRdblk a b c =>
    rw [exec, execSfRdblk, issue_idle _ _ _ _ _ _ hb] at h
    obtain rfl := Outcome.next.inj h
    split
    next hl => exact accepted_start s c (by simpa [rulesOf] using hl) (by decide)
    next => exact accepted_raiseErr s 0x22 a b c .badOperand
  | sfWrblk a b c =>
    rw [exec, execSfWrblk, issue_idle _ _ _ _ _ _ hb] at h
    obtain rfl := Outcome.next.inj h
    split
    next hl => exact accepted_start s c (by simpa [rulesOf] using hl) (by decide)
    next => exact accepted_raiseErr s 0x23 a b c .badOperand
  | sfDetect a b c =>
    rw [exec, execSfDetect, issue_idle _ _ _ _ _ _ hb, accept_stat_det] at h
    cases hd : s.stat.det <;> rw [hd] at h
    case pending => cases h
    case init => exact Outcome.next.inj h ▸ .started 0x20 a b c detectRule (by simp [rulesOf]) fun _ => hd
    case detected =>
      exact Outcome.next.inj h ▸
        .started 0x20 a b c (detectMemoRule true) (by simp [rulesOf]) fun hm => absurd hm (by decide)
    case notDetected =>
      exact Outcome.next.inj h ▸
        .started 0x20 a b c (detectMemoRule false) (by simp [rulesOf]) fun hm => absurd hm (by decide)
  | twStart a b c | twStop a b c | twWrbit a b c | twRdbit a b c | twWrbyte a b c | twRdbyte a b c | sfIdent a b c
  | sfSetstop a b c | sfRdtime a b c | sfSettime a b c =>
    simp only [exec] at h
    have hs := (issue_idle _ a b c s _ hb).symm.trans h
    exact Outcome.next.inj hs ▸ accepted_start s c (List.mem_singleton.mpr rfl) (by decide)

/-- A command word that is written while BUSY is rejected. -/
theorem command_busy (w : Word) (s : State) (h : s.stat.busy = true) : command w s = .next (reject s) := by
  unfold command
  split
  · exact exec_busy _ s h
  · exact issue_busy _ _ _ _ s _ h

/-- A command word that the idle block takes is accepted. -/
theorem command_accepted {w : Word} {s t : State} (hb : s.stat.busy = false) (h : command w s = .next t) : Accepted s t := by
  unfold command at h
  split at h
  · exact exec_accepted hb h
  · rw [reservedCommand, issue_idle _ _ _ _ _ _ hb] at h
    exact Outcome.next.inj h ▸ accepted_raiseErr s _ _ _ _ .reservedOp

/-! ## A write to a register -/

/-- A write to a register writes DONE and OVERRUN, BUF, TIME, CFG or SETTLE and nothing else; BUF and TIME only while no op
runs; and OVERRUN only at STAT. -/
theorem writeReg_eq (off : BitVec 6) (v : Word) (s : State) :
    ∃ (done overrun : Bool) (buf : Block) (time : TimeFields) (twDelay : BitVec 16) (ie : Bool) (settle : Word),
      writeReg off v s =
        { s with
          stat := { s.stat with done := done, overrun := overrun }
          buf := buf, time := time, twDelay := twDelay, ie := ie, settle := settle } ∧
      (s.stat.busy = true → buf = s.buf ∧ time = s.time) ∧
      (overrun = s.stat.overrun ∨ off = 0x04 ∧ overrun = (s.stat.overrun && !v.getLsbD 3)) := by
  unfold writeReg
  split
  case h_1 => exact ⟨_, _, _, _, _, _, _, rfl, fun _ => ⟨rfl, rfl⟩, .inr ⟨rfl, rfl⟩⟩
  case h_6 | h_7 | h_8 => exact ⟨_, _, _, _, _, _, _, rfl, fun _ => ⟨rfl, rfl⟩, .inl rfl⟩
  all_goals
    split
    next => exact ⟨_, _, _, _, _, _, _, rfl, fun _ => ⟨rfl, rfl⟩, .inl rfl⟩
    next hb => exact ⟨_, _, _, _, _, _, _, rfl, fun h => absurd h hb, .inl rfl⟩

/-! ## One queued step -/

/-- What performing one queued step of an agent leads to. -/
inductive Performed (p : Params) (s : State) : Input → State → Prop
  | read (off : BitVec 6) : Performed p s (.hostRead off 4) (hostRead off s)
  | ignored (off : BitVec 6) (v : Word) (hr : s.rst = true) : Performed p s (.hostWrite off 4 v) s
  | register (off : BitVec 6) (v : Word) (hr : s.rst = false) : Performed p s (.hostWrite off 4 v) (writeReg off v s)
  | rejected (w : Word) (hr : s.rst = false) (hb : s.stat.busy = true) : Performed p s (.hostWrite 0x00 4 w) (reject s)
  | accepted (w : Word) (t : State) (hr : s.rst = false) (hb : s.stat.busy = false) (ha : Accepted s t) :
      Performed p s (.hostWrite 0x00 4 w) t
  | clock : Performed p s .clock (clock p s)
  | takes : Performed p s .transportTakes (takeRequest s)
  | replies (rx : Vector Byte 9) : Performed p s (.transportReplies rx) (takeReply p rx s)
  | bus (e : Input) (sda scl : Option Bool)
      (he : perform p e s = .next (addDraws 1 { s with sdaEnv := sda, sclEnv := scl })) :
      Performed p s e (addDraws 1 { s with sdaEnv := sda, sclEnv := scl })
  | rst (level : Bool) : Performed p s (.rst level) (driveRst p level s)

theorem performed_of_hostWrite (p : Params) {off : BitVec 6} {v : Word} {s t : State} (h : hostWrite off v s = .next t) :
    Performed p s (.hostWrite off 4 v) t := by
  unfold hostWrite at h
  split at h
  next hr => exact Outcome.next.inj h ▸ .ignored off v hr
  next hr =>
    have hr : s.rst = false := by simpa using hr
    split at h
    next ho =>
      subst ho
      cases hb : s.stat.busy
      case false => exact .accepted v t hr hb (command_accepted hb h)
      case true => exact Outcome.next.inj ((command_busy v s hb).symm.trans h) ▸ .rejected v hr hb
    next => exact Outcome.next.inj h ▸ .register off v hr

theorem performed_of_perform {p : Params} {e : Input} {s t : State} (h : perform p e s = .next t) : Performed p s e t := by
  cases e with
  | hostWrite off width v =>
    simp only [perform] at h
    split at h
    next hok =>
      obtain ⟨rfl, -⟩ := (accessOk_iff off width).mp hok
      exact performed_of_hostWrite p h
    next => cases h
  | hostRead off width =>
    simp only [perform] at h
    split at h
    next hok =>
      obtain ⟨rfl, -⟩ := (accessOk_iff off width).mp hok
      exact Outcome.next.inj h ▸ .read off
    next => cases h
  | clock => exact Outcome.next.inj h ▸ .clock
  | transportTakes => exact Outcome.next.inj h ▸ .takes
  | transportReplies rx => exact Outcome.next.inj h ▸ .replies rx
  | busSda others => exact Outcome.next.inj h ▸ .bus _ others s.sclEnv rfl
  | busScl others => exact Outcome.next.inj h ▸ .bus _ s.sdaEnv others rfl
  | gpio g => exact Outcome.next.inj h ▸ .bus _ _ _ rfl
  | rst level => exact Outcome.next.inj h ▸ .rst level

/-- A step performs the oldest queued step, or a clock cycle where nothing is queued. -/
theorem step_performed {s t : State} (h : step s = .next t) :
    ∃ e later, (s.inputs = e :: later ∨ s.inputs = [] ∧ e = .clock) ∧
      Performed Config.params { s with inputs := later } e t := by
  cases hi : s.inputs with
  | nil =>
    rw [step_of_no_inputs s hi] at h
    exact ⟨.clock, s.inputs, .inr ⟨rfl, rfl⟩, Outcome.next.inj h ▸ .clock⟩
  | cons e later =>
    rw [step_of_inputs s e later hi] at h
    exact ⟨e, later, .inl rfl, performed_of_perform h⟩

end Sys2Proof.Machine
end

section
/-! The machine's invariant: it holds at reset, and every step of every agent keeps it (10_state.md R29, R40 to R47, R49). -/

namespace Sys2Proof.Machine

/-! ## The invariant, where no op moves -/

/-- What the invariant speaks of: `s` with every field it says nothing about at its reset value, and `rst` released. -/
def State.controlPart (s : State) : State :=
  { State.reset with
    stat :=
      { State.reset.stat with
        busy := s.stat.busy, det := s.stat.det, devstop := s.stat.devstop, devstat := s.stat.devstat }
    seq := s.seq, pend := s.pend, opl := s.opl, al := s.al, bl := s.bl, dlat := s.dlat, hc := s.hc, sc := s.sc
    req := s.req, rst := false }

theorem inv_controlPart (p : Params) {s : State} (hr : s.rst = false) : s.controlPart.Inv p ↔ s.Inv p :=
  ⟨fun ⟨h1, h2, h3, h4, h5, h6, h7, h8, h9, h10, h11, h12, _⟩ =>
      ⟨h1, h2, h3, h4, h5, h6, h7, h8, h9, h10, h11, h12, fun h => absurd (hr.symm.trans h) (by decide)⟩,
    fun ⟨h1, h2, h3, h4, h5, h6, h7, h8, h9, h10, h11, h12, _⟩ =>
      ⟨h1, h2, h3, h4, h5, h6, h7, h8, h9, h10, h11, h12, fun h => nomatch h⟩⟩

/-- A change of nothing that the invariant speaks of keeps it. -/
theorem State.Inv.of_controlPart {p : Params} {s t : State} (h : s.Inv p) (hs : s.rst = false) (ht : t.rst = false)
    (he : t.controlPart = s.controlPart) : t.Inv p :=
  (inv_controlPart p ht).mp (he ▸ (inv_controlPart p hs).mpr h)

theorem stoppedBit_zero (p : Params) : stoppedBit p 0x00 = false := by simp [stoppedBit]

/-- A block at its reset values meets the invariant. -/
theorem inv_resetBlock (p : Params) (s : State) : (resetBlock p s).Inv p where
  busy_running := rfl
  position := fun h => nomatch h
  pend_xfer := fun h => nomatch h
  valid_pend := fun h => nomatch h
  dlat_pos := by simp [State.resetWith, atLeastOne_toNat]
  hc_lt := by simp [State.resetWith, atLeastOne_toNat]
  hc_phase := fun h => absurd rfl h
  sc_settle := ⟨fun h => absurd rfl h, fun h => nomatch h⟩
  det_pending := ⟨fun h => (nomatch h), fun h => nomatch h.1⟩
  det_init := fun h => nomatch h
  devstop_bit := (stoppedBit_zero p).symm
  port_fixed := rfl
  rst_reset := fun _ => rfl

theorem inv_of_reset {p : Params} {s : State} (h : s = resetBlock p s) : s.Inv p := h ▸ inv_resetBlock p s

/-- What comes next does not matter to the invariant. -/
theorem State.Inv.setInputs {p : Params} {s : State} (h : s.Inv p) (later : List Input) :
    State.Inv p { s with inputs := later } := by
  rcases Bool.eq_false_or_eq_true s.rst with hr | hr
  · exact inv_of_reset (congrArg (fun u : State => { u with inputs := later }) (h.rst_reset hr))
  · exact h.of_controlPart hr hr rfl

theorem State.Inv.addDraws {p : Params} {s : State} (h : s.Inv p) (n : Nat) : (addDraws n s).Inv p := by
  rcases Bool.eq_false_or_eq_true s.rst with hr | hr
  · exact inv_of_reset (congrArg (Machine.addDraws n) (h.rst_reset hr))
  · exact h.of_controlPart hr hr rfl

theorem State.Inv.setHc {p : Params} {s : State} (h : s.Inv p) {n : BitVec 16} (hr : s.rst = false)
    (hn : n.toNat < s.dlat.toNat) (hp : n ≠ 0 → s.seq.atPhase = true) : (setHc n s).Inv p :=
  { h with hc_lt := hn, hc_phase := hp, rst_reset := fun hr' => absurd (hr.symm.trans hr') (by decide) }

/-- SC is 0 but at a settle. -/
theorem State.Inv.sc_zero {p : Params} {s : State} (h : s.Inv p) (hs : s.seq.atSettle = false) : s.sc = 0 := by
  by_contra hne
  exact absurd (hs.symm.trans (h.sc_settle.mp hne)) (by decide)

/-- HC is 0 but inside a phase. -/
theorem State.Inv.hc_zero {p : Params} {s : State} (h : s.Inv p) (hs : s.seq.atPhase = false) : s.hc = 0 := by
  by_contra hne
  exact absurd (hs.symm.trans (h.hc_phase hne)) (by decide)

/-! ## The invariant, where a running op moves -/

/-- The op whose fields are latched may go on with the statements `rest`. -/
structure State.Resumes (rest : List Stmt) (s : State) : Prop where
  nonempty : rest ≠ []
  inRule : ∃ rule ∈ rulesOf s.opl s.al s.bl, rest <:+ rule
  busy : s.stat.busy = true
  sc_settle : s.sc ≠ 0 → startsSettle rest = true
  det_pending : s.stat.det = .pending ↔ Stmt.act .compareId ∈ rest ∧ Stmt.act .setPending ∉ rest
  det_init : Stmt.act .setPending ∈ rest → s.stat.det = .init

/-- The block stands between two waits: it is not reset, awaits no reply, and is inside no phase. -/
structure State.Between (p : Params) (s : State) : Prop where
  rst : s.rst = false
  pend : s.pend = false
  valid : s.req.valid = false
  hc : s.hc = 0
  dlat_pos : 1 ≤ s.dlat.toNat
  devstop_bit : s.stat.devstop = stoppedBit p s.stat.devstat
  port_fixed : s.req.port = p.rtcPort

theorem atSettle_run (rest : List Stmt) : (Seq.run rest).atSettle = startsSettle rest := by
  cases rest with
  | nil => rfl
  | cons x rest => cases x <;> rfl

/-- At a position of SEQ the op may go on with the statements of that position. -/
theorem State.Inv.resumes {p : Params} {s : State} {rest : List Stmt} (h : s.Inv p) (hs : s.seq = .run rest) :
    s.Resumes rest := by
  obtain ⟨hne, hrule⟩ := h.position (by rw [hs]; rfl)
  have htodo : s.seq.todo = rest := by rw [hs]; rfl
  exact
    { nonempty := htodo ▸ hne
      inRule := htodo ▸ hrule
      busy := by rw [h.busy_running, hs]; rfl
      sc_settle := fun h0 => atSettle_run rest ▸ hs ▸ h.sc_settle.mp h0
      det_pending := htodo ▸ h.det_pending
      det_init := htodo ▸ h.det_init }

theorem State.Resumes.wellShaped {s : State} {rest : List Stmt} (h : s.Resumes rest) : wellShaped rest = true := by
  obtain ⟨rule, hrule, hsuf⟩ := h.inRule
  exact wellShaped_suffix hsuf (wellShaped_rules _ _ _ rule hrule).1

/-- What is left after the current statement, where that statement is a wait. -/
theorem State.Resumes.tail {s : State} {x : Stmt} {rest : List Stmt} (h : s.Resumes (x :: rest))
    (hx : ∀ a, x ≠ .act a) (hsc : s.sc = 0) : s.Resumes rest := by
  obtain ⟨rule, hrule, hsuf⟩ := h.inRule
  have hw := h.wellShaped
  simp only [Machine.wellShaped, Bool.and_eq_true, Stmt.before_iff] at hw
  obtain ⟨⟨hends, -⟩, -⟩ := hw
  have hmem : ∀ a, Stmt.act a ∈ x :: rest ↔ Stmt.act a ∈ rest := fun a => by
    simp [List.mem_cons, (hx a).symm]
  exact
    { nonempty := by
        rintro rfl
        cases x <;> simp_all [Stmt.ends]
      inRule := ⟨rule, hrule, (List.suffix_cons x rest).trans hsuf⟩
      busy := h.busy
      sc_settle := fun h0 => absurd hsc h0
      det_pending := by rw [h.det_pending, hmem, hmem]
      det_init := fun hm => h.det_init ((hmem _).mpr hm) }

theorem State.Inv.between {p : Params} {s : State} (h : s.Inv p) (hr : s.rst = false) (hp : s.pend = false)
    (hc : s.hc = 0) : s.Between p where
  rst := hr
  pend := hp
  valid := by
    cases hv : s.req.valid
    · rfl
    · exact absurd (hp.symm.trans (h.valid_pend hv)) (by decide)
  hc := hc
  dlat_pos := h.dlat_pos
  devstop_bit := h.devstop_bit
  port_fixed := h.port_fixed

/-- Performing the statements up to the next wait leads to the invariant. -/
theorem inv_drain {p : Params} {s : State} {rest : List Stmt} (h : s.Resumes rest) (hb : s.Between p) :
    (drain p rest s).Inv p := by
  obtain ⟨rule, hrule, hsuf⟩ := h.inRule
  obtain ⟨hat, htodo⟩ := drain_atPosition p rest s h.wellShaped h.nonempty h.busy h.sc_settle h.det_pending h.det_init
  exact
    { busy_running := hat.busy_running
      position := fun hrun => ⟨hat.nonempty hrun, rule, by simpa using hrule, htodo.trans hsuf⟩
      pend_xfer := by simp [hb.pend]
      valid_pend := by simp [hb.valid]
      dlat_pos := by simpa using hb.dlat_pos
      hc_lt := by rw [drain_hc, drain_dlat, hb.hc]; exact hb.dlat_pos
      hc_phase := by simp [hb.hc]
      sc_settle := hat.sc_settle
      det_pending := hat.det_pending
      det_init := hat.det_init
      devstop_bit := by simpa using hb.devstop_bit
      port_fixed := by simpa using hb.port_fixed
      rst_reset := by simp [hb.rst] }

/-- The end of a wait: the op goes on with the statements after it. -/
theorem inv_drain_tail {p : Params} {s : State} {x : Stmt} {rest : List Stmt} (h : s.Inv p) (hs : s.seq = .run (x :: rest))
    (hx : ∀ a, x ≠ .act a) (hsc : s.sc = 0) (hr : s.rst = false) (hp : s.pend = false) (hc : s.hc = 0) :
    (drain p rest s).Inv p :=
  inv_drain ((h.resumes hs).tail hx hsc) (h.between hr hp hc)

theorem inv_phaseCycle {p : Params} {s : State} {l : Line} {v : BitSource} {rest : List Stmt} (h : s.Inv p)
    (hs : s.seq = .run (.phase l v :: rest)) (hr : s.rst = false) (hp : s.pend = false) :
    (phaseCycle p l v rest s).Inv p := by
  have hphase : s.seq.atPhase = true := by rw [hs]; rfl
  have hsc : s.sc = 0 := h.sc_zero (by rw [hs]; rfl)
  have hd : 0 < s.dlat.toNat := h.dlat_pos
  have hlt := h.hc_lt
  have hline : (setLine l (bitValue v s) s).Inv p := h.of_controlPart hr (by simpa using hr) (by cases l <;> rfl)
  by_cases h0 : s.hc = 0
  · by_cases h1 : 1 < s.dlat.toNat
    · rw [phaseCycle_first p l v rest s h0 h1]
      exact hline.setHc (by simpa using hr) (by rw [setLine_dlat]; bv_omega) fun _ => by simpa using hphase
    · rw [phaseCycle_only p l v rest s h0 (by omega)]
      exact inv_drain_tail hline (by simpa using hs) (fun a => Stmt.noConfusion) (by simpa using hsc) (by simpa using hr)
        (by simpa using hp) (by simpa using h0)
  · by_cases h1 : 1 < s.hc.toNat
    · rw [phaseCycle_hold p l v rest s h1]
      exact h.setHc hr (by bv_omega) fun _ => hphase
    · rw [phaseCycle_last p l v rest s (by bv_omega)]
      exact inv_drain_tail (h.setHc (n := 0) hr hd fun _ => hphase) hs (fun a => Stmt.noConfusion) hsc hr hp rfl

theorem inv_raiseRequest {p : Params} {s : State} (f : Frame) (h : s.Inv p) (hs : s.seq.atXfer = true)
    (hr : s.rst = false) : (raiseRequest p f s).Inv p :=
  { h with
    pend_xfer := fun _ => hs
    valid_pend := fun _ => rfl
    port_fixed := rfl
    rst_reset := fun h' => absurd (hr.symm.trans h') (by decide) }

theorem inv_settleCycle {p : Params} {s : State} {rest : List Stmt} (n : Word) (h : s.Inv p)
    (hs : s.seq = .run (.settle :: rest)) (hr : s.rst = false) (hp : s.pend = false) :
    (drain p (.settle :: rest) (setSc n s)).Inv p := by
  have hc : s.hc = 0 := h.hc_zero (by rw [hs]; rfl)
  exact inv_drain { h.resumes hs with sc_settle := fun _ => rfl } { h.between hr hp hc with }

/-- The statements before the first wait of a position, in the cycle that comes to it. -/
theorem inv_drain_position {p : Params} {s : State} {rule : List Stmt} (h : s.Inv p) (hs : s.seq = .run rule)
    (hr : s.rst = false) (hp : s.pend = false) : (drain p rule s).Inv p := by
  by_cases hc : s.hc = 0
  · exact inv_drain (h.resumes hs) (h.between hr hp hc)
  · have hphase := h.hc_phase hc
    rw [hs] at hphase
    unfold Seq.atPhase at hphase
    split at hphase
    next heq =>
      obtain rfl := Seq.run.inj heq
      rw [drain_at_phase, setSeq_eq_self _ _ hs]
      exact h
    next => cases hphase

theorem inv_seqCycle {p : Params} {s : State} {rule : List Stmt} (h : s.Inv p) (hs : s.seq = .run rule)
    (hr : s.rst = false) (hp : s.pend = false) : (seqCycle p rule s).Inv p := by
  have ht := inv_drain_position h hs hr hp
  have htr : (drain p rule s).rst = false := by simpa using hr
  have htp : (drain p rule s).pend = false := by simpa using hp
  unfold seqCycle
  dsimp only
  split
  next hq => exact inv_phaseCycle ht hq htr htp
  next hq => exact inv_raiseRequest _ ht (by rw [hq]; rfl) htr
  next hq => exact inv_settleCycle _ ht hq htr htp
  next => exact ht


theorem clock_of_rst (p : Params) (s : State) (hr : s.rst = true) : clock p s = addDraws 1 s := by simp [clock, hr]

/-- A clock cycle keeps the invariant. -/
theorem inv_clock {p : Params} {s : State} (h : s.Inv p) (hr : s.rst = false) : (clock p s).Inv p := by
  cases hq : s.seq with
  | idle => exact clock_of_idle p s hq ▸ h.addDraws 1
  | run rule =>
    cases hp : s.pend with
    | true => exact clock_of_pend p s hp ▸ h.addDraws 1
    | false =>
      rw [clock_of_run p s rule hr hp hq]
      exact (inv_seqCycle h hq hr hp).addDraws 1

theorem inv_takeReply {p : Params} {s : State} (rx : Vector Byte 9) (h : s.Inv p) (hr : s.rst = false) :
    (takeReply p rx s).Inv p := by
  unfold takeReply
  split
  next => exact h
  next hwait =>
    simp only [hr, Bool.false_or, Bool.or_eq_true, Bool.not_eq_true', not_or, Bool.not_eq_false, Bool.not_eq_true] at hwait
    obtain ⟨-, hvalid⟩ := hwait
    split
    next f rest hs =>
      have hsc : s.sc = 0 := h.sc_zero (by rw [hs]; rfl)
      have hc : s.hc = 0 := h.hc_zero (by rw [hs]; rfl)
      have hstore : (storeReply p f rx s).Inv p :=
        { h with
          pend_xfer := fun h' => nomatch h'
          valid_pend := fun h' => absurd (hvalid.symm.trans h') (by decide)
          devstop_bit := rfl
          rst_reset := fun h' => absurd (hr.symm.trans h') (by decide) }
      exact inv_drain_tail hstore hs (fun a => Stmt.noConfusion) hsc hr rfl hc
    next => exact h

/-! ## The invariant, where an op begins -/

/-- A block in which no op runs stands at no position, waits for nothing, and knows whether the device is there. -/
structure State.Rests (p : Params) (s : State) : Prop where
  between : s.Between p
  idle : s.seq = .idle
  sc : s.sc = 0
  det : s.stat.det ≠ .pending

theorem State.Inv.rests {p : Params} {s : State} (h : s.Inv p) (hr : s.rst = false) (hb : s.stat.busy = false) :
    s.Rests p := by
  have hq : s.seq = .idle := by
    cases hq : s.seq with
    | idle => rfl
    | run rest => exact absurd (hb.symm.trans (h.resumes hq).busy) (by decide)
  have hp : s.pend = false := by
    cases hp : s.pend
    · rfl
    · exact absurd (h.pend_xfer hp) (by rw [hq]; decide)
  refine ⟨h.between hr hp (h.hc_zero (by rw [hq]; rfl)), hq, h.sc_zero (by rw [hq]; rfl), fun hd => ?_⟩
  obtain ⟨hm, -⟩ := h.det_pending.mp hd
  rw [hq] at hm
  cases hm

/-- Completion leads to the invariant. -/
theorem inv_complete {p : Params} {s : State} (ok : Bool) (err : ErrCode) (h : s.Rests p) : (complete ok err s).Inv p where
  busy_running := rfl
  position := fun h => nomatch h
  pend_xfer := fun h' => absurd (h.between.pend.symm.trans h') (by decide)
  valid_pend := fun h' => absurd (h.between.valid.symm.trans h') (by decide)
  dlat_pos := h.between.dlat_pos
  hc_lt := by rw [complete_hc, h.between.hc]; exact h.between.dlat_pos
  hc_phase := fun h' => absurd h.between.hc h'
  sc_settle := ⟨fun h' => absurd h.sc h', fun h' => nomatch h'⟩
  det_pending := ⟨fun h' => absurd h' h.det, fun h' => nomatch h'.1⟩
  det_init := fun h' => nomatch h'
  devstop_bit := h.between.devstop_bit
  port_fixed := h.between.port_fixed
  rst_reset := fun h' => absurd (h.between.rst.symm.trans h') (by decide)

/-- The start of an op leads to the invariant, where its rule finds DET as it should be. -/
theorem inv_startSeq {p : Params} {s : State} {rule : List Stmt} (h : s.Rests p) (hrule : rule ∈ rulesOf s.opl s.al s.bl)
    (hdet : Stmt.act .setPending ∈ rule → s.stat.det = .init) : (startSeq rule s).Inv p := by
  obtain ⟨-, hstart⟩ := wellShaped_rules _ _ _ rule hrule
  exact
    { busy_running := rfl
      position := fun _ => ⟨(rules_nonempty_belong hrule).1, rule, hrule, List.suffix_rfl⟩
      pend_xfer := fun h' => absurd (h.between.pend.symm.trans h') (by decide)
      valid_pend := fun h' => absurd (h.between.valid.symm.trans h') (by decide)
      dlat_pos := h.between.dlat_pos
      hc_lt := by rw [startSeq_hc, h.between.hc]; exact h.between.dlat_pos
      hc_phase := fun h' => absurd h.between.hc h'
      sc_settle := ⟨fun h' => absurd h.sc h', fun h' => absurd (hstart.symm.trans (atSettle_run rule ▸ h')) (by decide)⟩
      det_pending := ⟨fun h' => absurd h' h.det, fun h' => absurd (setPending_mem_of_compareId_mem hrule h'.1) h'.2⟩
      det_init := hdet
      devstop_bit := h.between.devstop_bit
      port_fixed := h.between.port_fixed
      rst_reset := fun h' => absurd (h.between.rst.symm.trans h') (by decide) }

theorem State.Rests.accepts {p : Params} {s : State} (h : s.Rests p) (op a b c : Byte) : (accept op a b c s).Rests p where
  between :=
    { h.between with dlat_pos := by rw [accept_dlat, atLeastOne_toNat]; exact Nat.le_max_right _ _ }
  idle := h.idle
  sc := h.sc
  det := h.det

/-- Acceptance of a command word keeps the invariant. -/
theorem inv_accepted {p : Params} {s t : State} (h : s.Rests p) (ha : Accepted s t) : t.Inv p := by
  cases ha with
  | completed op a b c ok err res buf time unknown hres =>
    have h' := h.accepts op a b c
    exact inv_complete ok err ⟨{ h'.between with }, h'.idle, h'.sc, h'.det⟩
  | started op a b c rule hrule hdet => exact inv_startSeq (h.accepts op a b c) hrule hdet

/-! ## Every step keeps the invariant -/

/-- While `rst` is asserted, and in the step that releases it, the block is at its reset values. -/
theorem reset_of_performed {p : Params} {e : Input} {s t : State} (hs : s = resetBlock p s) (hr : s.rst = true)
    (h : Performed p s e t) : t = resetBlock p t := by
  cases h with
  | read off => exact congrArg (fun u : State => { u with rdata := readReg off s }) hs
  | ignored => exact hs
  | register _ _ hr' | rejected _ hr' | accepted _ _ hr' => exact absurd (hr.symm.trans hr') (by decide)
  | clock => exact clock_of_rst p s hr ▸ congrArg (addDraws 1) hs
  | takes => simpa [takeRequest, hr] using hs
  | replies rx => simpa [takeReply, hr] using hs
  | bus _ sda scl _ => exact congrArg (fun u : State => addDraws 1 { u with sdaEnv := sda, sclEnv := scl }) hs
  | rst level => simp only [driveRst, hr, Bool.or_true, if_true]; rfl

/-- One queued step keeps the invariant. -/
theorem inv_performed {p : Params} {e : Input} {s t : State} (h : s.Inv p) (hp : Performed p s e t) : t.Inv p := by
  rcases Bool.eq_false_or_eq_true s.rst with hr | hr
  · exact inv_of_reset (reset_of_performed (h.rst_reset hr) hr hp)
  cases hp with
  | read off => exact h.of_controlPart hr hr rfl
  | ignored => exact h
  | register off v =>
    obtain ⟨done, overrun, buf, time, twDelay, ie, settle, heq, -⟩ := writeReg_eq off v s
    rw [heq]
    exact h.of_controlPart hr hr rfl
  | rejected => exact h.of_controlPart hr hr rfl
  | accepted w t _ hb ha => exact inv_accepted (h.rests hr hb) ha
  | clock => exact inv_clock h hr
  | takes =>
    rw [takeRequest, if_neg (by simp [hr])]
    exact { h with valid_pend := fun h' => (nomatch h'), rst_reset := fun h' => absurd (hr.symm.trans h') (by decide) }
  | replies rx => exact inv_takeReply rx h hr
  | bus _ sda scl _ => exact h.of_controlPart hr hr rfl
  | rst level =>
    cases level
    · simpa [driveRst, hr] using h
    · simpa [driveRst] using inv_resetBlock p { s with rst := true }

/-- Settles O52: by cases on the queued step; a running op's step through the shape of its rule. -/
theorem stepKeepsInv : Obligations.StepKeepsInv := by
  intro s t h hstep
  obtain ⟨e, later, -, hp⟩ := step_performed hstep
  exact inv_performed (h.setInputs later) hp

/-- Settles O51: the block at reset is at its reset values. -/
theorem resetMeetsInv : Obligations.ResetMeetsInv := inv_of_reset rfl

end Sys2Proof.Machine
end

section
/-! The register window: what a queued access does, and the statements about single registers (10_state.md R20 to R37). -/

namespace Sys2Proof.Machine

/-! ## The register window -/

/-- A queued read of an aligned register. -/
theorem step_hostRead {s : State} {off : BitVec 6} {later : List Input} (hi : s.inputs = .hostRead off 4 :: later)
    (hoff : off.toNat % 4 = 0) : step s = .next { s with rdata := readReg off s, inputs := later } := by
  rw [step_of_inputs s _ later hi]
  simp only [perform, if_pos ((accessOk_iff off 4).mpr ⟨rfl, hoff⟩)]
  have hread : readReg off { s with inputs := later } = readReg off s := by unfold readReg; split <;> rfl
  rw [hostRead, hread]

/-- A queued write of an aligned register. -/
theorem step_hostWrite {s : State} {off : BitVec 6} {v : Word} {later : List Input}
    (hi : s.inputs = .hostWrite off 4 v :: later) (hoff : off.toNat % 4 = 0) :
    step s = hostWrite off v { s with inputs := later } := by
  rw [step_of_inputs s _ later hi]
  simp only [perform, if_pos ((accessOk_iff off 4).mpr ⟨rfl, hoff⟩)]

/-- A queued write of an aligned register other than CMD, with `rst` released. -/
theorem step_writeReg {s : State} {off : BitVec 6} {v : Word} {later : List Input}
    (hi : s.inputs = .hostWrite off 4 v :: later) (hr : s.rst = false) (hoff : off.toNat % 4 = 0) (hcmd : off ≠ 0#6) :
    step s = .next (writeReg off v { s with inputs := later }) := by
  rw [step_hostWrite hi hoff, hostWrite, if_neg (by simp [hr]), if_neg hcmd]

/-- A queued write of CMD, with `rst` released. -/
theorem step_command {s : State} {w : Word} {later : List Input} (hi : s.inputs = .hostWrite 0x00 4 w :: later)
    (hr : s.rst = false) : step s = command w { s with inputs := later } := by
  rw [step_hostWrite hi (by decide), hostWrite, if_neg (by simp [hr])]
  rfl

/-- Settles O5: a write of CMD is the command, and a decodable command is `exec`. -/
theorem stepRunsDecoded : Obligations.StepRunsDecoded := by
  intro s w i later hi hr hw
  rw [step_command hi hr, command, hw]

/-- The fields of the STAT word (10_state.md R22). -/
theorem statWord_fields (t : Stat) :
    (statWord t).getLsbD 0 = t.busy ∧ (statWord t).getLsbD 1 = t.done ∧ (statWord t).getLsbD 2 = t.ok ∧
    (statWord t).getLsbD 3 = t.overrun ∧ (statWord t).extractLsb' 4 2 = detCode t.det ∧
    (statWord t).getLsbD 6 = t.unknown ∧ (statWord t).getLsbD 7 = t.devstop ∧
    (statWord t).extractLsb' 8 3 = errCode t.err ∧ (statWord t).extractLsb' 11 5 = 0 ∧
    (statWord t).extractLsb' 16 8 = t.devstat ∧ (statWord t).extractLsb' 24 8 = 0 := by
  refine ⟨?_, ?_, ?_, ?_, ?_, ?_, ?_, ?_, ?_, ?_, ?_⟩
  case refine_1 | refine_2 | refine_3 | refine_4 | refine_6 | refine_7 =>
    simp only [statWord, BitVec.getLsbD_append]
    simp
  all_goals
    simp (disch := decide) only [statWord, BitVec.extractLsb'_append_eq_of_le, BitVec.extractLsb'_append_eq_of_add_le]
    exact BitVec.extractLsb'_eq_self

/-- The fields of the CFG word (10_state.md R34). -/
theorem cfgWord_fields (s : State) :
    (cfgWord s).extractLsb' 0 16 = s.twDelay ∧ (cfgWord s).getLsbD 16 = s.ie ∧ (cfgWord s).extractLsb' 17 15 = 0 := by
  refine ⟨?_, ?_, ?_⟩
  case refine_2 =>
    simp only [cfgWord, BitVec.getLsbD_append]
    simp
  all_goals
    simp (disch := decide) only [cfgWord, BitVec.extractLsb'_append_eq_of_le, BitVec.extractLsb'_append_eq_of_add_le]
    exact BitVec.extractLsb'_eq_self

/-- The fields of the LINES word (10_state.md R36). -/
theorem linesWord_fields (s : State) :
    (linesWord s).getLsbD 0 = s.sclO ∧ (linesWord s).getLsbD 1 = s.sdaO ∧ (linesWord s).getLsbD 2 = sdaLevel s ∧
    (linesWord s).getLsbD 3 = sclLevel s ∧ (linesWord s).getLsbD 4 = s.wrExcl ∧ (linesWord s).extractLsb' 5 27 = 0 := by
  refine ⟨?_, ?_, ?_, ?_, ?_, ?_⟩
  case refine_6 =>
    simp (disch := decide) only [linesWord, BitVec.extractLsb'_append_eq_of_le]
    exact BitVec.extractLsb'_eq_self
  all_goals
    simp only [linesWord, BitVec.getLsbD_append]
    simp

/-- Settles O41: the read through the fields of the STAT word, the write by the two bits it may clear. -/
theorem statRegister : Obligations.StatRegister := by
  refine ⟨fun s later hi => ?_, fun s v later hi hr => ?_⟩
  · obtain ⟨h0, h1, h2, h3, hdet, h6, h7, herr, hres, hdev, htop⟩ := statWord_fields s.stat
    refine ⟨statWord s.stat, step_hostRead hi (by decide), h0, h1, h2, h3, ?_, h6, h7, ?_, hres, hdev, htop⟩
    · rw [hdet]
      cases s.stat.det <;> rfl
    · rw [herr]
      cases s.stat.err <;> rfl
  · have hclear : ∀ b c : Bool, (b && !c) = if c then false else b := by decide
    have hwrite (u : State) : writeReg 0x04 v u = { u with stat := clearStat v u.stat } := rfl
    rw [step_writeReg hi hr (by decide) (by decide), hwrite]
    simp only [clearStat, hclear]

/-- CMD and the reserved offsets read 0. -/
theorem readReg_reserved {off : BitVec 6} (s : State) (h : off = 0x00 ∨ off = 0x0C ∨ 0x2C ≤ off.toNat) :
    readReg off s = 0 := by
  unfold readReg
  split
  case h_10 => rfl
  all_goals simp at h

/-- Settles O42: the read of each register, through the fields of the CFG and LINES words. -/
theorem registerReads : Obligations.RegisterReads := by
  intro s off later hi hoff
  refine ⟨readReg off s, step_hostRead hi hoff, ?_, ?_, ?_, ?_, ?_, ?_, ?_, ?_, readReg_reserved s⟩
  case refine_6 => rintro rfl; exact cfgWord_fields s
  case refine_8 => rintro rfl; exact linesWord_fields s
  all_goals rintro rfl; rfl

/-- RES, LINES and the reserved offsets ignore a write. -/
theorem writeReg_ignored {off : BitVec 6} (v : Word) (s : State)
    (h : off = 0x08 ∨ off = 0x28 ∨ off = 0x0C ∨ 0x2C ≤ off.toNat) : writeReg off v s = s := by
  unfold writeReg
  split
  case h_8 => rfl
  all_goals simp at h

/-- Settles O45: no such offset is a case of the write, and under `rst` no write has an effect. -/
theorem ignoredWrites : Obligations.IgnoredWrites := by
  intro s off v later hi ho
  have hoff : off.toNat % 4 = 0 := by
    rcases ho with rfl | rfl | rfl | ⟨-, h⟩
    · decide
    · decide
    · decide
    · exact h
  have hcmd : off ≠ 0#6 := by
    rintro rfl
    simp at ho
  rcases Bool.eq_false_or_eq_true s.rst with hr | hr
  · rw [step_hostWrite hi hoff, hostWrite, if_pos hr]
  · rw [step_writeReg hi hr hoff hcmd, writeReg_ignored]
    tauto

/-! ### What a write reads back -/

/-- The four bytes of a word, put together again. -/
theorem append_bytes (v : Word) :
    v.extractLsb' 24 8 ++ v.extractLsb' 16 8 ++ v.extractLsb' 8 8 ++ v.extractLsb' 0 8 = v := by
  simp (disch := rfl) only [BitVec.extractLsb'_append_extractLsb'_eq_extractLsb']
  exact BitVec.extractLsb'_eq_self

theorem append_time1_fields (v : Word) : v.extractLsb' 16 16 ++ v.extractLsb' 8 8 ++ v.extractLsb' 0 8 = v := by
  simp (disch := rfl) only [BitVec.extractLsb'_append_extractLsb'_eq_extractLsb']
  exact BitVec.extractLsb'_eq_self

/-- CFG has its two fields and reads 0 above them (10_state.md R34). -/
theorem append_cfg_fields (v : Word) :
    (0#15 ++ BitVec.ofBool (v.getLsbD 16) ++ v.extractLsb' 0 16 : BitVec 32) = v &&& 0x0001FFFF := by
  apply BitVec.eq_of_getLsbD_eq
  intro i hi
  simp only [BitVec.getLsbD_append, BitVec.getLsbD_and]
  interval_cases i <;> simp

/-- The registers that are written only while no op runs. -/
def isBlockRegister (off : BitVec 6) : Prop := off = 0x10 ∨ off = 0x14 ∨ off = 0x18 ∨ off = 0x1C

theorem writeReg_of_busy {off : BitVec 6} (v : Word) {s : State} (ho : isBlockRegister off) (hb : s.stat.busy = true) :
    writeReg off v s = s := by
  rcases ho with rfl | rfl | rfl | rfl <;> exact if_pos hb

section
variable {s : State} (hb : s.stat.busy = false)
include hb

theorem writeReg_buf0 (v : Word) : writeReg 0x10 v s = { s with buf := setBuf0 v s.buf } := if_neg (by simp [hb])
theorem writeReg_buf1 (v : Word) : writeReg 0x14 v s = { s with buf := setBuf1 v s.buf } := if_neg (by simp [hb])
theorem writeReg_time0 (v : Word) : writeReg 0x18 v s = { s with time := setTime0 v s.time } := if_neg (by simp [hb])
theorem writeReg_time1 (v : Word) : writeReg 0x1C v s = { s with time := setTime1 v s.time } := if_neg (by simp [hb])

/-- With no op running, a write to BUF or TIME writes nothing else. -/
theorem writeReg_frame {off : BitVec 6} (v : Word) (ho : isBlockRegister off) :
    writeReg off v s = { s with buf := (writeReg off v s).buf, time := (writeReg off v s).time } := by
  rcases ho with rfl | rfl | rfl | rfl
  · rw [writeReg_buf0 hb]
  · rw [writeReg_buf1 hb]
  · rw [writeReg_time0 hb]
  · rw [writeReg_time1 hb]

/-- With no op running, a write to BUF or TIME reads back. -/
theorem readReg_writeReg_same {off : BitVec 6} (v : Word) (ho : isBlockRegister off) :
    readReg off (writeReg off v s) = v := by
  rcases ho with rfl | rfl | rfl | rfl
  · rw [writeReg_buf0 hb]; exact append_bytes v
  · rw [writeReg_buf1 hb]; exact append_bytes v
  · rw [writeReg_time0 hb]; exact append_bytes v
  · rw [writeReg_time1 hb]; exact append_time1_fields v

/-- With no op running, a write to BUF or TIME leaves what every other register reads. -/
theorem readReg_writeReg_of_ne {off o : BitVec 6} (v : Word) (ho : isBlockRegister off) (hne : o ≠ off) :
    readReg o (writeReg off v s) = readReg o s := by
  rcases ho with rfl | rfl | rfl | rfl
  all_goals
    simp only [writeReg_buf0 hb, writeReg_buf1 hb, writeReg_time0 hb, writeReg_time1 hb]
    unfold readReg
    split <;> try rfl
    exact absurd rfl hne

end

/-- Settles O44: each register's write, and its read after it. -/
theorem registerWritesReadBack : Obligations.RegisterWritesReadBack := by
  intro s off v later hi hr
  have hstep : isBlockRegister off → step s = .next (writeReg off v { s with inputs := later }) := fun ho =>
    step_writeReg hi hr (by rcases ho with rfl | rfl | rfl | rfl <;> decide)
      (by rcases ho with rfl | rfl | rfl | rfl <;> decide)
  refine ⟨fun ho hb => ?_, fun ho hb => ?_, ?_, ?_⟩
  · exact (hstep ho).trans (congrArg _ (writeReg_of_busy v ho hb))
  · let u : State := { s with inputs := later }
    have hread (o : BitVec 6) : readReg o u = readReg o s := by unfold readReg; split <;> rfl
    exact ⟨_, hstep ho, readReg_writeReg_same (s := u) hb v ho,
      fun o hne => (readReg_writeReg_of_ne (s := u) hb v ho hne).trans (hread o), writeReg_frame (s := u) hb v ho⟩
  · rintro rfl
    exact ⟨_, step_writeReg hi hr (by decide) (by decide), append_cfg_fields v, rfl⟩
  · rintro rfl
    exact step_writeReg hi hr (by decide) (by decide)

/-- Settles O49: each value is the one `State.resetWith` gives. -/
theorem resetValues : Obligations.ResetValues :=
  ⟨rfl, rfl, rfl, rfl, rfl, rfl, rfl, rfl, rfl, rfl, rfl, rfl, rfl, atLeastOne_toNat _, rfl, rfl, rfl, rfl, rfl, rfl, rfl, rfl,
    rfl, rfl⟩

end Sys2Proof.Machine
end

section
/-! What a running op's step may write, as the updates its own statements make; and what a step leaves of DET, RES, CSH, the
lines, the latches, BUF, TIME and OVERRUN. -/

namespace Sys2Proof.Machine

/-! ## What the statements of a running op write -/

/-- One elementary update that a statement of the op `op` makes. -/
inductive OpMove (p : Params) (op : Byte) (s : State) : State → Prop
  | act (a : Act) (h : (Stmt.act a).belongsTo op = true) : OpMove p op s (runAct p a s)
  | line (l : Line) (v : Bool) (h : 0x10 ≤ op.toNat ∧ op.toNat ≤ 0x17) : OpMove p op s (setLine l v s)
  | request (f : Frame) (h : (Stmt.xfer f).belongsTo op = true) : OpMove p op s (raiseRequest p f s)
  | reply (f : Frame) (rx : Vector Byte 9) (h : (Stmt.xfer f).belongsTo op = true) : OpMove p op s (storeReply p f rx s)
  | seq (q : Seq) : OpMove p op s (setSeq q s)
  | hc (n : BitVec 16) : OpMove p op s (setHc n s)
  | sc (n : Word) : OpMove p op s (setSc n s)
  | draws (n : Nat) : OpMove p op s (addDraws n s)

/-- What the op `op` can do to the block. -/
abbrev OpMoves (p : Params) (op : Byte) : State → State → Prop := Relation.ReflTransGen (OpMove p op)

/-- What every elementary update keeps, the op keeps. -/
theorem OpMoves.keeps {α : Type} {p : Params} {op : Byte} {s t : State} (f : State → α)
    (hf : ∀ u v, OpMove p op u v → f v = f u) (h : OpMoves p op s t) : f t = f s := by
  induction h with
  | refl => rfl
  | tail _ hstep ih => rw [hf _ _ hstep, ih]

theorem drain_moves (p : Params) {op : Byte} {rest : List Stmt} (s : State) (h : ∀ x ∈ rest, x.belongsTo op = true) :
    OpMoves p op s (drain p rest s) := by
  induction rest generalizing s with
  | nil => exact .single (.seq _)
  | cons x rest ih =>
    have hrest : ∀ y ∈ rest, y.belongsTo op = true := fun y hy => h y (List.mem_cons_of_mem x hy)
    cases x with
    | phase l v => exact .single (.seq _)
    | xfer f => exact .single (.seq _)
    | settle =>
      rw [drain_at_settle]
      split
      · exact ih s hrest
      · exact .single (.seq _)
    | act a =>
      have hact : OpMoves p op s (runAct p a (setSeq (.run rest) s)) :=
        .tail (.single (.seq _)) (.act a (h _ List.mem_cons_self))
      simp only [drain]
      split
      · exact hact
      · exact hact.trans (ih _ hrest)

/-- Draining leaves SEQ at one of the statements, or idle. -/
theorem drain_todo_suffix (p : Params) (rest : List Stmt) (s : State) : (drain p rest s).seq.todo <:+ rest := by
  induction rest generalizing s with
  | nil => exact List.suffix_rfl
  | cons x rest ih =>
    cases x with
    | phase l v => exact List.suffix_rfl
    | xfer f => exact List.suffix_rfl
    | settle =>
      rw [drain_at_settle]
      split
      · exact (ih s).trans (List.suffix_cons _ _)
      · exact List.suffix_rfl
    | act a =>
      simp only [drain]
      split
      next hq => rw [hq]; exact List.nil_suffix
      next => exact (ih _).trans (List.suffix_cons _ _)

theorem phaseCycle_moves (p : Params) {op : Byte} {l : Line} {v : BitSource} {rest : List Stmt} (s : State)
    (h : ∀ x ∈ Stmt.phase l v :: rest, x.belongsTo op = true) : OpMoves p op s (phaseCycle p l v rest s) := by
  have hline : 0x10 ≤ op.toNat ∧ op.toNat ≤ 0x17 := of_decide_eq_true (h _ List.mem_cons_self)
  have hbegin : OpMoves p op s (if s.hc = 0 then setHc s.dlat (setLine l (bitValue v s) s) else s) := by
    split
    · exact .tail (.single (.line l _ hline)) (.hc _)
    · exact .refl
  have hcount : ∀ t, OpMoves p op s t →
      OpMoves p op s (if 1 < t.hc.toNat then setHc (t.hc - 1) t else drain p rest (setHc 0 t)) := by
    intro t ht
    split
    · exact ht.tail (.hc _)
    · exact (ht.tail (.hc 0)).trans (drain_moves p _ fun x hx => h x (List.mem_cons_of_mem _ hx))
  exact hcount _ hbegin

theorem seqCycle_moves (p : Params) {op : Byte} {rule : List Stmt} (s : State) (h : ∀ x ∈ rule, x.belongsTo op = true) :
    OpMoves p op s (seqCycle p rule s) := by
  have hdrain := drain_moves p s h
  have htodo : ∀ x ∈ (drain p rule s).seq.todo, x.belongsTo op = true :=
    fun x hx => h x ((drain_todo_suffix p rule s).mem hx)
  simp only [seqCycle]
  split
  next hq => rw [hq] at htodo; exact hdrain.trans (phaseCycle_moves p _ htodo)
  next hq => rw [hq] at htodo; exact hdrain.tail (.request _ (htodo _ List.mem_cons_self))
  next hq => rw [hq] at htodo; exact (hdrain.tail (.sc _)).trans (drain_moves p _ htodo)
  next => exact hdrain

/-- The statements at a position of SEQ belong to the latched op. -/
theorem State.Inv.belongsTo {p : Params} {s : State} {rest : List Stmt} (h : s.Inv p) (hs : s.seq = .run rest) :
    ∀ x ∈ rest, x.belongsTo s.opl = true := by
  obtain ⟨rule, hrule, hsuf⟩ := (h.resumes hs).inRule
  exact fun x hx => belongsTo_of_mem_rule hrule (hsuf.mem hx)

theorem clock_moves {p : Params} {s : State} (h : s.Inv p) : OpMoves p s.opl s (clock p s) := by
  refine Relation.ReflTransGen.tail ?_ (.draws 1)
  split
  · exact .refl
  · split
    · exact .refl
    next hq => exact seqCycle_moves p s (h.belongsTo hq)

theorem takeReply_moves {p : Params} {s : State} (rx : Vector Byte 9) (h : s.Inv p) :
    OpMoves p s.opl s (takeReply p rx s) := by
  unfold takeReply
  split
  · exact .refl
  · split
    next f rest hq =>
      have hx := h.belongsTo hq
      exact .head (.reply f rx (hx _ List.mem_cons_self)) (drain_moves p _ fun x hm => hx x (List.mem_cons_of_mem _ hm))
    next => exact .refl

@[simp] theorem timeDecodeAndComplete_stat_det (s : State) : (timeDecodeAndComplete s).stat.det = s.stat.det := by
  unfold timeDecodeAndComplete raiseErr; split <;> rfl

/-! ### The frame of an elementary update -/

/-- What acceptance latches (10_state.md R42). -/
def State.latches (s : State) : Byte × Byte × Byte × Byte × BitVec 16 × Word := (s.opl, s.al, s.bl, s.cl, s.dlat, s.slat)

theorem latches_eq_iff (s t : State) : t.latches = s.latches ↔
    t.opl = s.opl ∧ t.al = s.al ∧ t.bl = s.bl ∧ t.cl = s.cl ∧ t.dlat = s.dlat ∧ t.slat = s.slat := by
  simp [State.latches]

theorem OpMove.latches {p : Params} {op : Byte} {s t : State} (h : OpMove p op s t) : t.latches = s.latches := by
  cases h <;> simp [State.latches]

theorem OpMove.overrun {p : Params} {op : Byte} {s t : State} (h : OpMove p op s t) :
    t.stat.overrun = s.stat.overrun := by
  cases h <;> simp

theorem OpMove.rst {p : Params} {op : Byte} {s t : State} (h : OpMove p op s t) : t.rst = s.rst := by
  cases h <;> simp

theorem OpMove.lines {p : Params} {op : Byte} {s t : State} (h : OpMove p op s t)
    (hop : ¬ (0x10 ≤ op.toNat ∧ op.toNat ≤ 0x17)) : (t.sclO, t.sdaO) = (s.sclO, s.sdaO) := by
  cases h with
  | line l v hl => exact absurd hl hop
  | _ => simp

theorem OpMove.res {p : Params} {op : Byte} {s t : State} (h : OpMove p op s t)
    (hop : op ∉ ([0x01, 0x02, 0x13, 0x14, 0x15, 0x20, 0x21] : List Byte)) : t.res = s.res := by
  cases h with
  | act a ha =>
    cases a
    case exitIf => simp only [runAct]; split <;> simp
    all_goals simp_all [Stmt.belongsTo, runAct]
  | _ => simp

theorem OpMove.csh {p : Params} {op : Byte} {s t : State} (h : OpMove p op s t)
    (hop : op ∉ ([0x24, 0x26] : List Byte)) : t.csh = s.csh := by
  cases h with
  | act a ha =>
    cases a
    case exitIf => simp only [runAct]; split <;> simp
    all_goals simp_all [Stmt.belongsTo, runAct]
  | _ => simp

theorem OpMove.det {p : Params} {op : Byte} {s t : State} (h : OpMove p op s t) (hop : op ≠ 0x20) :
    t.stat.det = s.stat.det := by
  cases h with
  | act a ha =>
    cases a
    case exitIf => simp only [runAct]; split <;> simp
    all_goals simp_all [Stmt.belongsTo, runAct]
  | _ => simp

theorem OpMove.time {p : Params} {op : Byte} {s t : State} (h : OpMove p op s t) (hop : op ≠ 0x25) : t.time = s.time := by
  cases h with
  | act a ha =>
    cases a
    case exitIf => simp only [runAct]; split <;> simp
    all_goals simp_all [Stmt.belongsTo, runAct]
  | _ => simp

theorem OpMove.buf {p : Params} {op : Byte} {s t : State} (h : OpMove p op s t) (hop : op = 0x17 ∨ op = 0x23) :
    t.buf = s.buf := by
  cases h with
  | act a ha =>
    cases a
    case exitIf => simp only [runAct]; split <;> simp
    all_goals simp_all [Stmt.belongsTo, runAct]
  | request f hf =>
    cases f with
    | identify => rfl
    | readBlock blk => rfl
    | writeBlock blk pl =>
      rcases hop with rfl | rfl
      · simp [Stmt.belongsTo] at hf
      · obtain rfl : pl = .buf := by simpa [Stmt.belongsTo] using hf
        rfl
  | reply f rx hf =>
    cases f with
    | identify => rfl
    | readBlock blk => rcases hop with rfl | rfl <;> simp [Stmt.belongsTo] at hf
    | writeBlock blk pl => rfl
  | _ => simp

/-! ## What one step leaves of an op's registers -/

/-- A clock cycle, or a reply of the transport, with `rst` released. -/
inductive Runs (p : Params) (s : State) : State → Prop
  | clock (hr : s.rst = false) : Runs p s (clock p s)
  | reply (rx : Vector Byte 9) (hr : s.rst = false) : Runs p s (takeReply p rx s)

/-- A step that is no op's: the latches, RES, CSH, the lines and DET stay, and BUF and TIME while an op runs. -/
structure KeepsOp (s t : State) : Prop where
  latches : t.latches = s.latches
  res : t.res = s.res
  csh : t.csh = s.csh
  lines : t.sclO = s.sclO ∧ t.sdaO = s.sdaO
  det : t.stat.det = s.stat.det
  buf_time : s.stat.busy = true → t.buf = s.buf ∧ t.time = s.time

theorem KeepsOp.refl (s : State) : KeepsOp s s := ⟨rfl, rfl, rfl, ⟨rfl, rfl⟩, rfl, fun _ => ⟨rfl, rfl⟩⟩

/-- Any two states of a block that is held at reset. -/
theorem keepsOp_of_reset {p : Params} {s t : State} (hs : s = resetBlock p s) (ht : t = resetBlock p t) : KeepsOp s t := by
  rw [hs, ht]
  exact ⟨rfl, rfl, rfl, ⟨rfl, rfl⟩, rfl, fun _ => ⟨rfl, rfl⟩⟩

/-- A step asserts `rst`, or is no op's, or accepts a command, or is a running op's. -/
theorem performed_cases {p : Params} {e : Input} {s t : State} (h : s.Inv p) (hp : Performed p s e t) :
    (t.rst = true ∧ t.stat.det = .init) ∨ KeepsOp s t ∨ (s.stat.busy = false ∧ Accepted s t) ∨ Runs p s t := by
  rcases Bool.eq_false_or_eq_true s.rst with hr | hr
  · have hs := h.rst_reset hr
    exact .inr (.inl (keepsOp_of_reset hs (reset_of_performed hs hr hp)))
  cases hp with
  | read off => exact .inr (.inl ⟨rfl, rfl, rfl, ⟨rfl, rfl⟩, rfl, fun _ => ⟨rfl, rfl⟩⟩)
  | ignored => exact .inr (.inl (.refl s))
  | register off v =>
    obtain ⟨done, overrun, buf, time, twDelay, ie, settle, heq, hbusy, -⟩ := writeReg_eq off v s
    rw [heq]
    exact .inr (.inl ⟨rfl, rfl, rfl, ⟨rfl, rfl⟩, rfl, hbusy⟩)
  | rejected => exact .inr (.inl ⟨rfl, rfl, rfl, ⟨rfl, rfl⟩, rfl, fun _ => ⟨rfl, rfl⟩⟩)
  | accepted w t _ hb ha => exact .inr (.inr (.inl ⟨hb, ha⟩))
  | clock => exact .inr (.inr (.inr (.clock hr)))
  | takes =>
    rw [takeRequest, if_neg (by simp [hr])]
    exact .inr (.inl ⟨rfl, rfl, rfl, ⟨rfl, rfl⟩, rfl, fun _ => ⟨rfl, rfl⟩⟩)
  | replies rx => exact .inr (.inr (.inr (.reply rx hr)))
  | bus => exact .inr (.inl ⟨rfl, rfl, rfl, ⟨rfl, rfl⟩, rfl, fun _ => ⟨rfl, rfl⟩⟩)
  | rst level =>
    cases level
    · rw [driveRst, if_neg (by simp [hr])]
      exact .inr (.inl (.refl s))
    · exact .inl ⟨rfl, rfl⟩

theorem Runs.moves {p : Params} {s t : State} (h : s.Inv p) (hrun : Runs p s t) : OpMoves p s.opl s t := by
  cases hrun with
  | clock => exact clock_moves h
  | reply rx => exact takeReply_moves rx h

theorem Runs.latches {p : Params} {s t : State} (h : s.Inv p) (hrun : Runs p s t) : t.latches = s.latches :=
  (hrun.moves h).keeps State.latches fun _ _ => OpMove.latches

theorem Runs.opl {p : Params} {s t : State} (h : s.Inv p) (hrun : Runs p s t) : t.opl = s.opl :=
  congrArg Prod.fst (hrun.latches h)

theorem Runs.rst {p : Params} {s t : State} (h : s.Inv p) (hrun : Runs p s t) : t.rst = false := by
  rw [(hrun.moves h).keeps State.rst fun _ _ => OpMove.rst]
  cases hrun <;> assumption

theorem Runs.res {p : Params} {s t : State} (h : s.Inv p) (hrun : Runs p s t)
    (hop : s.opl ∉ ([0x01, 0x02, 0x13, 0x14, 0x15, 0x20, 0x21] : List Byte)) : t.res = s.res :=
  (hrun.moves h).keeps State.res fun _ _ hm => hm.res hop

theorem Runs.csh {p : Params} {s t : State} (h : s.Inv p) (hrun : Runs p s t)
    (hop : s.opl ∉ ([0x24, 0x26] : List Byte)) : t.csh = s.csh :=
  (hrun.moves h).keeps State.csh fun _ _ hm => hm.csh hop

theorem Runs.lines {p : Params} {s t : State} (h : s.Inv p) (hrun : Runs p s t)
    (hop : ¬ (0x10 ≤ s.opl.toNat ∧ s.opl.toNat ≤ 0x17)) : t.sclO = s.sclO ∧ t.sdaO = s.sdaO :=
  Prod.mk.inj ((hrun.moves h).keeps (fun u => (u.sclO, u.sdaO)) fun _ _ hm => hm.lines hop)

theorem Runs.buf {p : Params} {s t : State} (h : s.Inv p) (hrun : Runs p s t) (hop : s.opl = 0x17 ∨ s.opl = 0x23) :
    t.buf = s.buf :=
  (hrun.moves h).keeps State.buf fun _ _ hm => hm.buf hop

theorem Runs.overrun {p : Params} {s t : State} (h : s.Inv p) (hrun : Runs p s t) : t.stat.overrun = s.stat.overrun :=
  (hrun.moves h).keeps (fun u => u.stat.overrun) fun _ _ => OpMove.overrun

/-! ### DET and TIME, whose ops have frames and no other wait -/

/-- sf.detect and sf.rdtime have no phase and no settle: what their step does to STAT and TIME is the draining of the statements
they may go on with, if it is anything at all. -/
theorem Runs.drains {p : Params} {s t : State} (h : s.Inv p) (hop : s.opl = 0x20 ∨ s.opl = 0x25) (hrun : Runs p s t) :
    (t.stat = s.stat ∧ t.time = s.time) ∨
    ∃ rest u, u.Resumes rest ∧ (u.opl = s.opl ∧ u.stat.det = s.stat.det ∧ u.time = s.time) ∧
      t.stat = (drain p rest u).stat ∧ t.time = (drain p rest u).time := by
  cases hrun with
  | clock hr =>
    cases hq : s.seq with
    | idle => rw [clock_of_idle p s hq]; exact .inl ⟨rfl, rfl⟩
    | run rule =>
      cases hpend : s.pend with
      | true => rw [clock_of_pend p s hpend]; exact .inl ⟨rfl, rfl⟩
      | false =>
        rw [clock_of_run p s rule hr hpend hq]
        have htodo : ∀ x ∈ (drain p rule s).seq.todo, x.belongsTo s.opl = true :=
          fun x hx => h.belongsTo hq x ((drain_todo_suffix p rule s).mem hx)
        refine .inr ⟨rule, s, h.resumes hq, ⟨rfl, rfl, rfl⟩, ?_⟩
        simp only [seqCycle, addDraws_stat, addDraws_time]
        split
        next hd =>
          have hphase := List.forall_mem_cons.mp (hd ▸ htodo)
          rcases hop with hop | hop <;> simp [Stmt.belongsTo, hop] at hphase
        next => exact ⟨rfl, rfl⟩
        next hd =>
          have hsettle := List.forall_mem_cons.mp (hd ▸ htodo)
          rcases hop with hop | hop <;> simp [Stmt.belongsTo, hop] at hsettle
        next => exact ⟨rfl, rfl⟩
  | reply rx hr =>
    unfold takeReply
    split
    next => exact .inl ⟨rfl, rfl⟩
    next =>
      split
      next f rest hq =>
        have hsc : s.sc = 0 := h.sc_zero (by rw [hq]; rfl)
        exact .inr ⟨rest, storeReply p f rx s, { (h.resumes hq).tail (fun a => Stmt.noConfusion) hsc with },
          ⟨rfl, rfl, rfl⟩, rfl, rfl⟩
      next => exact .inl ⟨rfl, rfl⟩

/-- The transitions of DET inside sf.detect (10_state.md R27). -/
def DetStep (d d' : Det) : Prop :=
  d' = d ∨ (d = .init ∧ d' = .pending) ∨ (d = .pending ∧ (d' = .detected ∨ d' = .notDetected))

theorem drain_det (p : Params) {u : State} {rest : List Stmt} (h : u.Resumes rest) (hop : u.opl = 0x20) :
    DetStep u.stat.det (drain p rest u).stat.det := by
  obtain ⟨rule, hrule, hsuf⟩ := h.inRule
  have hne := h.nonempty
  have hmemo : ∀ ok, rest <:+ detectMemoRule ok → DetStep u.stat.det (drain p rest u).stat.det := by
    intro ok hsuf
    rcases List.suffix_cons_iff.mp hsuf with rfl | hnil
    · exact .inl rfl
    · exact absurd (List.suffix_nil.mp hnil) hne
  have hcompare : ∀ q : State, (drain p [.act .compareId, .act .completeDet] q).stat.det = .detected ∨
      (drain p [.act .compareId, .act .completeDet] q).stat.det = .notDetected := by
    intro q
    by_cases hid : replyId q = p.idRtc
    · exact .inl (if_pos hid)
    · exact .inr (if_neg hid)
  rw [hop] at hrule
  replace hrule : rule ∈ [detectMemoRule true, detectMemoRule false, detectRule] := hrule
  simp only [List.mem_cons, List.not_mem_nil, or_false] at hrule
  rcases hrule with rfl | rfl | rfl
  · exact hmemo true hsuf
  · exact hmemo false hsuf
  · simp only [detectRule, List.suffix_cons_iff, List.suffix_nil] at hsuf
    rcases hsuf with rfl | rfl | rfl | rfl | rfl | rfl
    · exact .inr (.inl ⟨h.det_init (by decide), rfl⟩)
    · exact .inl rfl
    · exact .inr (.inr ⟨h.det_pending.mpr (by decide), hcompare _⟩)
    · exact .inr (.inr ⟨h.det_pending.mpr (by decide), hcompare _⟩)
    · exact .inl rfl
    · exact absurd rfl hne

/-- A running op changes DET only as sf.detect does. -/
theorem Runs.det {p : Params} {s t : State} (h : s.Inv p) (hrun : Runs p s t) :
    t.stat.det = s.stat.det ∨ s.opl = 0x20 ∧ DetStep s.stat.det t.stat.det := by
  by_cases hop : s.opl = 0x20
  · rcases hrun.drains h (.inl hop) with ⟨hstat, -⟩ | ⟨rest, u, hu, ⟨hopl, hdet, -⟩, hstat, -⟩
    · exact .inl (congrArg Stat.det hstat)
    · rw [hstat, ← hdet]
      exact .inr ⟨hop, drain_det p hu (hopl.trans hop)⟩
  · exact .inl ((hrun.moves h).keeps (fun u => u.stat.det) fun _ _ hm => hm.det hop)

/-- A statement that writes TIME completes the op. -/
theorem runAct_time (p : Params) (a : Act) (s : State) :
    (runAct p a s).time = s.time ∨ (runAct p a s).seq = .idle ∧ (runAct p a s).stat.busy = false := by
  cases a
  case completeTimeDecode =>
    simp only [runAct, timeDecodeAndComplete]
    split <;> exact .inr ⟨rfl, rfl⟩
  case exitIf => simp only [runAct]; split <;> exact .inl rfl
  case sampleSr => exact .inl (setSrBit_time _ _)
  all_goals exact .inl rfl

theorem drain_time (p : Params) (rest : List Stmt) (s : State) :
    (drain p rest s).time = s.time ∨ (drain p rest s).stat.busy = false := by
  induction rest generalizing s with
  | nil => exact .inl rfl
  | cons x rest ih =>
    cases x with
    | phase l v => exact .inl rfl
    | xfer f => exact .inl rfl
    | settle =>
      rw [drain_at_settle]
      split
      · exact ih s
      · exact .inl rfl
    | act a =>
      have hact := runAct_time p a (setSeq (.run rest) s)
      simp only [drain]
      split
      next => exact hact.imp id And.right
      next hq =>
        rcases hact with htime | ⟨hidle, -⟩
        · exact (ih _).imp (·.trans htime) id
        · rw [hidle] at hq; cases hq

/-- A running op changes TIME only as sf.rdtime's completion does. -/
theorem Runs.time {p : Params} {s t : State} (h : s.Inv p) (hrun : Runs p s t) :
    t.time = s.time ∨ s.opl = 0x25 ∧ t.stat.busy = false := by
  by_cases hop : s.opl = 0x25
  · rcases hrun.drains h (.inr hop) with ⟨-, htime⟩ | ⟨rest, u, -, ⟨-, -, htime⟩, hstat', htime'⟩
    · exact .inl htime
    · rw [htime', hstat', ← htime]
      exact (drain_time p rest u).imp id fun hbusy => ⟨hop, hbusy⟩
  · exact .inl ((hrun.moves h).keeps State.time fun _ _ hm => hm.time hop)

/-! ### The statements about single steps -/

/-- Acceptance leaves DET, CSH and the lines, and RES but for bcd.enc and bcd.dec. -/
theorem Accepted.keeps {s t : State} (h : Accepted s t) :
    t.stat.det = s.stat.det ∧ t.stat.overrun = s.stat.overrun ∧ t.csh = s.csh ∧ (t.sclO = s.sclO ∧ t.sdaO = s.sdaO) ∧
      (t.res = s.res ∨ t.opl ∈ ([0x01, 0x02] : List Byte)) := by
  cases h with
  | completed op a b c ok err res buf time unknown hres => exact ⟨rfl, rfl, rfl, ⟨rfl, rfl⟩, hres⟩
  | started => exact ⟨rfl, rfl, rfl, ⟨rfl, rfl⟩, .inl rfl⟩

/-- Settles O54: only a running op and reset change DET, and of the ops only sf.detect. -/
theorem detTransitions : Obligations.DetTransitions := by
  intro s t hinv hstep hne
  obtain ⟨e, later, -, hp⟩ := step_performed hstep
  have h := hinv.setInputs later
  rcases performed_cases h hp with hrst | hkeep | ⟨-, hacc⟩ | hrun
  · exact .inl hrst
  · exact absurd hkeep.det hne
  · obtain ⟨hdet, -⟩ := hacc.keeps
    exact absurd hdet hne
  · rcases hrun.det h with hdet | ⟨hop, hdet | hmove⟩
    · exact absurd hdet hne
    · exact absurd hdet hne
    · exact .inr ⟨hrun.rst h, (hrun.opl h).trans hop, hmove⟩

/-- Settles O55: a running op's step is made of the updates of its own statements, and acceptance writes only RES. -/
theorem onlyNamedOpsWrite : Obligations.OnlyNamedOpsWrite := by
  intro s t hinv hstep hr
  obtain ⟨e, later, -, hp⟩ := step_performed hstep
  have h := hinv.setInputs later
  rcases performed_cases h hp with ⟨hrst, -⟩ | hkeep | ⟨-, hacc⟩ | hrun
  · exact absurd (hr.symm.trans hrst) (by decide)
  · exact ⟨fun hne => absurd hkeep.res hne, fun hne => absurd hkeep.csh hne,
      fun hne => absurd hkeep.lines (not_and_or.mpr hne)⟩
  · obtain ⟨-, -, hcsh, hlines, hres⟩ := hacc.keeps
    refine ⟨fun hne => ?_, fun hne => absurd hcsh hne, fun hne => absurd hlines (not_and_or.mpr hne)⟩
    rcases hres with hres | hop
    · exact absurd hres hne
    · exact List.mem_append_left [0x13, 0x14, 0x15, 0x20, 0x21] hop
  · rw [hrun.opl h]
    have hres := hrun.res h
    have hcsh := hrun.csh h
    have hlines := hrun.lines h
    refine ⟨fun hne => ?_, fun hne => ?_, fun hne => ?_⟩
    · by_contra hop
      exact hne (hres hop)
    · by_contra hop
      exact hne (hcsh hop)
    · by_contra hop
      exact not_and_or.mpr hne (hlines hop)

/-- Settles O56: no other agent reaches the latches, BUF and TIME while BUSY, and the op's own statements keep them. -/
theorem runningOpKeepsItsInputs : Obligations.RunningOpKeepsItsInputs := by
  intro s t hinv hb hstep hr
  obtain ⟨e, later, -, hp⟩ := step_performed hstep
  have h := hinv.setInputs later
  rcases performed_cases h hp with ⟨hrst, -⟩ | hkeep | ⟨hidle, -⟩ | hrun
  · exact absurd (hr.symm.trans hrst) (by decide)
  · obtain ⟨hopl, hal, hbl, hcl, hdlat, hslat⟩ := (latches_eq_iff _ _).mp hkeep.latches
    obtain ⟨hbuf, htime⟩ := hkeep.buf_time hb
    exact ⟨hopl, hal, hbl, hcl, hdlat, hslat, fun _ => hbuf, .inl htime⟩
  · exact absurd (hb.symm.trans hidle) (by decide)
  · obtain ⟨hopl, hal, hbl, hcl, hdlat, hslat⟩ := (latches_eq_iff _ _).mp (hrun.latches h)
    have hbuf := hrun.buf h
    have htime := hrun.time h
    exact ⟨hopl, hal, hbl, hcl, hdlat, hslat, hbuf, htime⟩

/-- A step that clears OVERRUN asserts `rst` or is a write to STAT. -/
theorem performed_overrun {p : Params} {e : Input} {s t : State} (h : s.Inv p) (hp : Performed p s e t)
    (hset : s.stat.overrun = true) (hclear : t.stat.overrun = false) :
    t.rst = true ∨ ∃ v, e = .hostWrite 0x04 4 v ∧ v.getLsbD 3 = true := by
  have hchange : t.stat.overrun ≠ s.stat.overrun := by rw [hset, hclear]; decide
  rcases Bool.eq_false_or_eq_true s.rst with hr | hr
  · rw [h.rst_reset hr] at hset
    cases hset
  cases hp with
  | read | ignored | bus => exact absurd rfl hchange
  | register off v =>
    obtain ⟨done, overrun, buf, time, twDelay, ie, settle, heq, -, hov⟩ := writeReg_eq off v s
    rw [heq] at hclear hchange
    rcases hov with hov | ⟨rfl, hov⟩
    · exact absurd hov hchange
    · refine .inr ⟨v, rfl, ?_⟩
      rw [hset, Bool.true_and] at hov
      simpa using hov.symm.trans hclear
  | rejected => cases hclear
  | accepted w t _ hb ha =>
    obtain ⟨-, hov, -⟩ := ha.keeps
    exact absurd hov hchange
  | clock => exact absurd ((Runs.clock hr).overrun h) hchange
  | takes =>
    rw [takeRequest, if_neg (by simp [hr])] at hchange
    exact absurd rfl hchange
  | replies rx => exact absurd ((Runs.reply rx hr).overrun h) hchange
  | rst level =>
    cases level
    · rw [driveRst, if_neg (by simp [hr])] at hchange
      exact absurd rfl hchange
    · exact .inl rfl

/-- Settles O57: a rejected command sets OVERRUN, a write to STAT may clear it, and no other step writes it but reset. -/
theorem overrunIsSticky : Obligations.OverrunIsSticky := by
  refine ⟨fun s w later hi hr hb => ?_, fun s v later hi hr hv => ?_, fun s t hinv hstep hset hclear => ?_⟩
  · exact ⟨_, (step_command hi hr).trans (command_busy w _ hb), rfl⟩
  · refine ⟨_, step_writeReg hi hr (by decide) (by decide), ?_⟩
    show (s.stat.overrun && !v.getLsbD 3) = false
    rw [hv, Bool.not_true, Bool.and_false]
  · obtain ⟨e, later, he, hp⟩ := step_performed hstep
    refine (performed_overrun (hinv.setInputs later) hp hset hclear).imp id ?_
    rintro ⟨v, rfl, hv⟩
    rcases he with he | ⟨-, he⟩
    · exact ⟨v, later, he, hv⟩
    · cases he

end Sys2Proof.Machine
end

section
/-! The access rule of the register window, and the window's place among the addresses (20_memory.md R60, R61, R65). -/

namespace Sys2Proof.Machine

/-! ## Refused accesses -/

/-- Settles O46: the queued access is the step, and it does not pass the access check (20_memory.md R65). -/
theorem badAccessRefused : Obligations.BadAccessRefused := by
  intro s off width v later hbad
  have hcheck : ¬ accessOk off width = true := by
    rw [accessOk_iff, not_and_or]
    exact hbad
  refine ⟨fun hi => ?_, fun hi => ?_⟩
  · rw [step_of_inputs s _ later hi, perform, if_neg hcheck]
  · rw [step_of_inputs s _ later hi, perform, if_neg hcheck]

/-! ## The window's addresses -/

/-- The address of a register is BASE, counted in windows of 64 bytes, plus the offset (20_memory.md R60). -/
theorem windowAddress_toNat (p : Params) (off : BitVec 6) :
    (windowAddress p off).toNat = p.base.toNat * 64 + off.toNat := by
  rw [windowAddress, BitVec.toNat_append, ← Nat.shiftLeft_add_eq_or_of_lt off.isLt, Nat.shiftLeft_eq]

/-- An address selects an offset just where it is the address of the register at that offset. -/
theorem windowOffset_eq_some_iff (p : Params) (address : Word) (off : BitVec 6) :
    windowOffset p address = some off ↔ address = windowAddress p off := by
  have hsplit : address = address.extractLsb' 6 26 ++ address.extractLsb' 0 6 := by
    rw [BitVec.extractLsb'_append_extractLsb'_eq_extractLsb' (start₁ := 0) (start₂ := 6) rfl]
    exact BitVec.extractLsb'_eq_self.symm
  constructor
  · intro h
    rw [windowOffset, Option.ite_none_right_eq_some, Option.some_inj] at h
    obtain ⟨hbase, hoff⟩ := h
    rw [windowAddress, hsplit, hbase, hoff]
  · rintro rfl
    have hbase : (windowAddress p off).extractLsb' 6 26 = p.base := by
      rw [windowAddress, BitVec.extractLsb'_append_eq_left]
    have hoff : (windowAddress p off).extractLsb' 0 6 = off := by
      rw [windowAddress, BitVec.extractLsb'_append_eq_right]
    rw [windowOffset, if_pos hbase, hoff]

/-- Settles O47: both halves compare numbers, and the address of the register is BASE * 64 + off as a number. -/
theorem windowAddresses : Obligations.WindowAddresses := by
  intro p address off
  have haddr := windowAddress_toNat p off
  refine ⟨?_, ?_⟩
  · rw [windowOffset_eq_some_iff, ← BitVec.toNat_inj, haddr]
  · apply BitVec.eq_of_toNat_eq
    have hbase := p.base.isLt
    have hoff := off.isLt
    have hwindow : (64 : Word).toNat = 64 := rfl
    rw [haddr, BitVec.toNat_add, BitVec.toNat_mul, BitVec.toNat_setWidth, BitVec.toNat_setWidth, hwindow]
    omega

end Sys2Proof.Machine
end

section
/-! The decoder, the encoder and the assembler: each against the opcode map (30_encoding.md R80 to R88). -/

namespace Sys2Proof

open Sys2Proof.Laws

/-! ## Words and their fields -/

/-- The opcodes of the map (30_encoding.md R82). -/
def opcodes : List Byte := mnemonics.map Prod.snd

/-- Putting the four fields of a word together gives the word. -/
theorem commandWord_fields (w : Word) : commandWord (opField w) (aField w) (bField w) (cField w) = w :=
  Machine.append_bytes w

theorem decode_commandWord (op a b c : Byte) : decode (commandWord op a b c) = decodeFields op a b c := by
  obtain ⟨hop, ha, hb, hc⟩ := fields_commandWord op a b c
  rw [decode, hop, ha, hb, hc]

/-! ## The decoder -/

/-- The fields decode to the one instruction that has them. -/
theorem decodeFields_eq_ok_iff (op a b c : Byte) (i : Instr) :
    decodeFields op a b c = .ok i ↔ i.opcode = op ∧ i.operands = (a, b, c) := by
  constructor
  · intro h
    unfold decodeFields at h
    split at h
    case h_20 => cases h
    all_goals exact Except.ok.inj h ▸ ⟨rfl, rfl⟩
  · rintro ⟨rfl, hops⟩
    cases i <;> cases hops <;> rfl

/-- The fields are rejected just where the opcode is not in the map. -/
theorem decodeFields_eq_error_iff (op a b c : Byte) (e : DecodeError) :
    decodeFields op a b c = .error e ↔ op ∉ opcodes ∧ e = .reservedOp op := by
  unfold decodeFields
  split
  case h_20 =>
    have hop : op ∉ opcodes := by
      simp only [opcodes, mnemonics, List.map_cons, List.map_nil, List.mem_cons, List.not_mem_nil, or_false]
      tauto
    rw [Except.error.injEq, eq_comm, and_iff_right hop]
  all_goals exact ⟨nofun, fun h => absurd (by decide) h.1⟩

/-- The opcodes that are not in the map are the reserved ranges of 30_encoding.md R85. -/
theorem not_mem_opcodes_iff (op : Byte) :
    op ∉ opcodes ↔ op.toNat = 0 ∨ (0x05 ≤ op.toNat ∧ op.toNat ≤ 0x0F) ∨ (0x18 ≤ op.toNat ∧ op.toNat ≤ 0x1F) ∨
      0x27 ≤ op.toNat := by
  simp only [opcodes, mnemonics, List.map_cons, List.map_nil, List.mem_cons, List.not_mem_nil, or_false]
  bv_omega

theorem decode_encode (i : Instr) : decode (encode i) = .ok i := by
  rw [encode, decode_commandWord, decodeFields_eq_ok_iff]
  exact ⟨rfl, rfl⟩

theorem encode_of_decode {w : Word} {i : Instr} (h : decode w = .ok i) : encode i = w := by
  obtain ⟨hop, hops⟩ := (decodeFields_eq_ok_iff _ _ _ _ i).mp h
  rw [encode, hop, hops]
  exact commandWord_fields w

/-- A word is rejected just where its OP is reserved. -/
theorem decode_eq_error_iff (w : Word) (e : DecodeError) :
    decode w = .error e ↔ opField w ∉ opcodes ∧ e = .reservedOp (opField w) :=
  decodeFields_eq_error_iff ..

theorem opField_toNat (w : Word) : (opField w).toNat = w.toNat % 256 := by
  rw [opField, BitVec.extractLsb'_toNat, Nat.shiftRight_zero]

/-- Settles O1: the fields name the instruction, a word is its fields, and an OP outside the map is in a reserved range. -/
theorem decodeEncodeAgree : Obligations.DecodeEncodeAgree := by
  refine ⟨decode_encode, fun w i => encode_of_decode, fun w => ?_⟩
  rw [← opField_toNat, ← not_mem_opcodes_iff]
  constructor
  · rintro ⟨e, he⟩
    exact ((decode_eq_error_iff w e).mp he).1
  · intro hop
    exact ⟨_, (decode_eq_error_iff w _).mpr ⟨hop, rfl⟩⟩

/-- Settles O2: each row is the round trip of its instruction, and no other opcode is in the map. -/
theorem opcodeMap : Obligations.OpcodeMap :=
  ⟨fun a b c => decode_encode (.bcdEnc a b c), fun a b c => decode_encode (.bcdDec a b c),
   fun a b c => decode_encode (.timeEnc a b c), fun a b c => decode_encode (.timeDec a b c),
   fun a b c => decode_encode (.twStart a b c), fun a b c => decode_encode (.twStop a b c),
   fun a b c => decode_encode (.twWrbit a b c), fun a b c => decode_encode (.twRdbit a b c),
   fun a b c => decode_encode (.twWrbyte a b c), fun a b c => decode_encode (.twRdbyte a b c),
   fun a b c => decode_encode (.twRdblk a b c), fun a b c => decode_encode (.twWrblk a b c),
   fun a b c => decode_encode (.sfDetect a b c), fun a b c => decode_encode (.sfIdent a b c),
   fun a b c => decode_encode (.sfRdblk a b c), fun a b c => decode_encode (.sfWrblk a b c),
   fun a b c => decode_encode (.sfSetstop a b c), fun a b c => decode_encode (.sfRdtime a b c),
   fun a b c => decode_encode (.sfSettime a b c),
   fun op a b c hop => (decode_commandWord op a b c).trans ((decodeFields_eq_error_iff op a b c _).mpr ⟨hop, rfl⟩)⟩

/-- Settles O4: the words are the encodings of their instructions. -/
theorem specWordsDecode : Obligations.SpecWordsDecode :=
  ⟨decode_encode (.bcdEnc 42 0 0), decode_encode (.bcdDec 0x59 0 0), decode_encode (.timeEnc 0 0 0),
   decode_encode (.twStart 0 0 0), decode_encode (.twRdblk 0 8 0x50), decode_encode (.twWrblk 0x10 8 0x68),
   decode_encode (.sfDetect 0 0 0), decode_encode (.sfWrblk 2 0 0), decode_encode (.sfSetstop 1 0 0)⟩

/-! ## The assembler -/

/-- A mnemonic of the map stands for itself: it is no pseudo-instruction, and it has an opcode. -/
theorem lookup_of_mem_mnemonics {m : String} (h : m ∈ mnemonics.map Prod.fst) :
    pseudoInstructions.lookup m = none ∧ ∃ op, mnemonics.lookup m = some op := by
  have hall : ∀ m ∈ mnemonics.map Prod.fst,
      pseudoInstructions.lookup m = none ∧ (mnemonics.lookup m).isSome = true := by decide
  exact (hall m h).imp_right Option.isSome_iff_exists.mp

section
variable {m : String} {op : Byte} (hp : pseudoInstructions.lookup m = none) (hm : mnemonics.lookup m = some op)
include hp hm

/-- The word of a core mnemonic's line. -/
theorem assemble_eq (operands : List Nat) :
    assemble m operands =
      if operands.length ≤ 3 ∧ operands.all (· ≤ 255) then
        some (commandWord op (BitVec.ofNat 8 (operands.getD 0 0)) (BitVec.ofNat 8 (operands.getD 1 0))
          (BitVec.ofNat 8 (operands.getD 2 0)))
      else none := by
  rw [assemble, hp]
  simp only [assembleCore, hm]

theorem assemble_bytes (a b c : Byte) :
    assemble m [a.toNat, b.toNat, c.toNat] = some (commandWord op a b c) := by
  have hbyte (x : Byte) : x.toNat ≤ 255 := Nat.le_of_lt_succ x.isLt
  rw [assemble_eq hp hm, if_pos (by simp [hbyte])]
  simp

/-- An omitted operand is 0 (30_encoding.md R87). -/
theorem assemble_omitted (a b : Byte) :
    assemble m [] = assemble m [0, 0, 0] ∧ assemble m [a.toNat] = assemble m [a.toNat, 0, 0] ∧
      assemble m [a.toNat, b.toNat] = assemble m [a.toNat, b.toNat, 0] := by
  simp [assemble_eq hp hm]

/-- A fourth operand, or one above 255, has no word (30_encoding.md R87). -/
theorem assemble_bad_operands {operands : List Nat} (h : 3 < operands.length ∨ ∃ n ∈ operands, 255 < n) :
    assemble m operands = none := by
  rw [assemble_eq hp hm, if_neg]
  rintro ⟨hlen, hall⟩
  rcases h with h | ⟨n, hn, h⟩
  · omega
  · have hle : n ≤ 255 := by simpa using List.all_eq_true.mp hall n hn
    omega

end

/-- Settles O3: each mnemonic's line by its row of the opcode map, each pseudo-instruction's by evaluation. -/
theorem assemblerWords : Obligations.AssemblerWords := by
  refine ⟨?_, ?_, ?_, ?_, ?_, ?_, ?_, ?_, ?_, ?_, ?_, ?_, ?_, ?_, ?_, ?_, ?_, ?_, ?_, fun m hm => ?_, by decide⟩
  case refine_20 =>
    obtain ⟨hp, op, hop⟩ := lookup_of_mem_mnemonics hm
    exact ⟨assemble_omitted hp hop, fun _ => assemble_bad_operands hp hop⟩
  all_goals exact assemble_bytes rfl rfl

end Sys2Proof
end

section
/-! What an accepted command word leads to: the start of a sequenced op, and the refusals of a reserved opcode and of a failed
operand check (30_encoding.md R83, R85, R86). -/

namespace Sys2Proof.Machine

/-! ## The accepted state, in the spec's terms -/

/-- The start of a sequenced op (30_encoding.md R83, 10_state.md R42). -/
theorem startSeq_accept (op a b c : Byte) (rule : List Stmt) (s : State) :
    startSeq rule (accept op a b c s) =
      { latched op a b c s with
        stat := { s.stat with busy := true, done := false, ok := false, err := .none, unknown := false }
        seq := .run rule } := rfl

/-- A refused word (30_encoding.md R85, R86). -/
theorem raiseErr_accept (op a b c : Byte) (err : ErrCode) (s : State) :
    raiseErr err (accept op a b c s) =
      { latched op a b c s with stat := completedStat s false err, seq := .idle } := rfl

/-! ## The idle block takes an instruction -/

section
variable (a b c : Byte) {s : State} (hb : s.stat.busy = false)
include hb

/-- An op without a check starts at its rule. -/
theorem issue_startSeq (op : Byte) (rule : List Stmt) :
    issue op a b c s (fun s => .next (startSeq rule s)) = .next (startSeq rule (accept op a b c s)) :=
  issue_idle _ _ _ _ _ _ hb

/-- An op with a check starts at its rule if the check holds, and else raises ERR_BAD_OPERAND (30_encoding.md R86). -/
theorem exec_twRdblk_idle : exec (.twRdblk a b c) s = .next
    (if lengthOk b then startSeq (twRdblkRule b.toNat) (accept 0x16 a b c s)
      else raiseErr .badOperand (accept 0x16 a b c s)) := by
  rw [exec, execTwRdblk, issue_idle _ _ _ _ _ _ hb]
  rfl

theorem exec_twWrblk_idle : exec (.twWrblk a b c) s = .next
    (if lengthOk b then startSeq (twWrblkRule b.toNat) (accept 0x17 a b c s)
      else raiseErr .badOperand (accept 0x17 a b c s)) := by
  rw [exec, execTwWrblk, issue_idle _ _ _ _ _ _ hb]
  rfl

theorem exec_sfRdblk_idle : exec (.sfRdblk a b c) s = .next
    (if blockOk a then startSeq (sfRdblkRule a) (accept 0x22 a b c s)
      else raiseErr .badOperand (accept 0x22 a b c s)) := by
  rw [exec, execSfRdblk, issue_idle _ _ _ _ _ _ hb]
  rfl

theorem exec_sfWrblk_idle : exec (.sfWrblk a b c) s = .next
    (if blockOk a then startSeq (sfWrblkRule a) (accept 0x23 a b c s)
      else raiseErr .badOperand (accept 0x23 a b c s)) := by
  rw [exec, execSfWrblk, issue_idle _ _ _ _ _ _ hb]
  rfl

end

/-- Settles O6: an op whose check holds starts at its rule, sf.detect at the case of DET. -/
theorem sequencedOpsStart : Obligations.SequencedOpsStart := by
  intro a b c s hb
  have hlen : 1 ≤ b.toNat → b.toNat ≤ 8 → lengthOk b = true := fun h1 h8 => (lengthOk_iff b).mpr ⟨h1, h8⟩
  have hblk : a.toNat ≤ 2 → blockOk a = true := (blockOk_iff a).mpr
  simp only [← startSeq_accept]
  refine ⟨?_, ?_, ?_, ?_, ?_, ?_, fun h1 h8 => ?_, fun h1 h8 => ?_, fun hd => ?_, fun hd => ?_, fun hd => ?_, ?_,
    fun h => ?_, fun h => ?_, ?_, ?_, ?_⟩
  case refine_7 => rw [exec_twRdblk_idle a b c hb, if_pos (hlen h1 h8)]
  case refine_8 => rw [exec_twWrblk_idle a b c hb, if_pos (hlen h1 h8)]
  case refine_9 | refine_10 | refine_11 => rw [exec, execSfDetect, issue_idle _ _ _ _ _ _ hb, accept_stat_det, hd]
  case refine_13 => rw [exec_sfRdblk_idle a b c hb, if_pos (hblk h)]
  case refine_14 => rw [exec_sfWrblk_idle a b c hb, if_pos (hblk h)]
  all_goals exact issue_startSeq a b c hb _ _

/-- Settles O9: an op whose check fails raises ERR_BAD_OPERAND. -/
theorem badOperandCompletesWithError : Obligations.BadOperandCompletesWithError := by
  intro a b c s hb
  have hlen : b.toNat = 0 ∨ 8 < b.toNat → ¬ lengthOk b = true := by
    rw [lengthOk_iff]
    omega
  have hblk : 2 < a.toNat → ¬ blockOk a = true := by
    rw [blockOk_iff]
    omega
  simp only [← raiseErr_accept]
  refine ⟨fun h => ?_, fun h => ?_, fun h => ?_, fun h => ?_⟩
  · rw [exec_twRdblk_idle a b c hb, if_neg (hlen h)]
  · rw [exec_twWrblk_idle a b c hb, if_neg (hlen h)]
  · rw [exec_sfRdblk_idle a b c hb, if_neg (hblk h)]
  · rw [exec_sfWrblk_idle a b c hb, if_neg (hblk h)]

/-! ## A reserved opcode -/

/-- The command of a word whose opcode is not in the map. -/
theorem command_reserved {op : Byte} (a b c : Byte) (s : State) (hop : op ∉ opcodes) :
    command (commandWord op a b c) s = reservedCommand op a b c s := by
  obtain ⟨hopf, ha, hb, hc⟩ := Laws.fields_commandWord op a b c
  have herr : decode (commandWord op a b c) = .error (.reservedOp op) := by
    rw [decode_commandWord, decodeFields_eq_error_iff]
    exact ⟨hop, rfl⟩
  rw [command, herr]
  simp only [hopf, ha, hb, hc]

/-- Settles O8: the word is no instruction, and the refusal is an acceptance that raises ERR_RESERVED_OP. -/
theorem reservedOpCompletesWithError : Obligations.ReservedOpCompletesWithError := by
  intro op a b c s later hi hr hb hop
  rw [step_command hi hr]
  exact (command_reserved a b c _ ((not_mem_opcodes_iff op).mpr hop)).trans
    (issue_idle op a b c { s with inputs := later } _ hb)

end Sys2Proof.Machine
end

section
/-! The request pins of the three frames (30_encoding.md R95, 42_serial.md R180, R181, R183). -/

namespace Sys2Proof.Machine

/-! ## The bytes on the pins -/

theorem putTx_getElem (tx : List Byte) (old : Vector Byte 10) (i : Fin 10) :
    (putTx tx old)[i] = tx.getD i old[i] := by
  simp [putTx]

/-- The pins beyond the bytes put there keep their values. -/
theorem putTx_getElem_of_le {tx : List Byte} (old : Vector Byte 10) {i : Fin 10} (h : tx.length ≤ i.val) :
    (putTx tx old)[i] = old[i] := by
  rw [putTx_getElem, List.getD_eq_default _ _ h]

/-- The first pins are the bytes put there. -/
theorem take_putTx {tx : List Byte} (old : Vector Byte 10) (h : tx.length ≤ 10) :
    (putTx tx old).toList.take tx.length = tx := by
  apply List.ext_getElem
  · simpa using h
  · intro k hk htx
    have hget := putTx_getElem tx old ⟨k, by omega⟩
    rw [List.getD_eq_getElem _ _ htx] at hget
    simpa using hget

/-- The frame has as many bytes as its length pin says (30_encoding.md R95). -/
theorem frameTx_length (p : Params) (f : Frame) (s : State) : (frameTx p f s).length = (frameTxlen f).val := by
  cases f with
  | identify => rfl
  | readBlock blk => rfl
  | writeBlock blk pl => simp [frameTx, frameTxlen]

/-- The first `req_txlen` pins carry the frame. -/
theorem take_raiseRequest_tx (p : Params) (f : Frame) (s : State) :
    (raiseRequest p f s).req.tx.toList.take (frameTxlen f).val = frameTx p f s := by
  rw [← frameTx_length p f s]
  exact take_putTx _ (by rw [frameTx_length]; exact Nat.le_of_lt_succ (frameTxlen f).isLt)

/-- Settles O25: the cycle is the raising of the request, whose pins are the frame's bytes and beyond them the old ones. -/
theorem frameRequestPins : Obligations.FrameRequestPins := by
  intro s f rest hs hp hr hi
  have htx := take_raiseRequest_tx Config.params f s
  refine ⟨addDraws 1 (raiseRequest Config.params f s), ?_, rfl, rfl, ?_, ?_, rfl⟩
  · rw [step_of_no_inputs s hi, clock_at_xfer Config.params s f rest hr hp hs]
  · cases f with
    | identify => exact ⟨rfl, rfl, rfl, htx⟩
    | readBlock blk => exact ⟨rfl, rfl, rfl, htx⟩
    | writeBlock blk pl =>
      rw [List.take_of_length_le (by simp [frameTxlen])] at htx
      exact ⟨rfl, rfl, rfl, htx⟩
  · intro i hi
    exact putTx_getElem_of_le _ ((frameTx_length Config.params f s).trans_le hi)

end Sys2Proof.Machine
end

section
/-! The BCD family (40_bcd.md): the byte codec and the time-block codec on numbers, the four ops that complete in the step of
their command word, and the codec's round trips. -/

namespace Sys2Proof.Machine

/-! ## The byte codec on numbers -/

theorem bcdEnc_eq_digits (n : Byte) : bcdEnc n = digits n.toNat := by
  rw [bcdEnc, digits, Nat.mul_comm]

theorem bcdDec_toNat_eq_digitsValue (b : Byte) : (bcdDec b).toNat = digitsValue b := by
  rw [bcdDec_toNat, digitsValue, Nat.mul_comm]

theorem bcdDec_eq_ofNat (b : Byte) : bcdDec b = BitVec.ofNat 8 (digitsValue b) := by
  rw [← bcdDec_toNat_eq_digitsValue, BitVec.ofNat_toNat, BitVec.setWidth_eq]

/-- The month byte counts from 1 and the month field from 0 (40_bcd.md R126); a month byte 0 wraps round to 255. -/
theorem bcdDec_sub_one (b : Byte) : bcdDec b - 1 = BitVec.ofNat 8 (digitsValue b + 255) := by
  rw [bcdDec_eq_ofNat, BitVec.ofNat_add]
  exact BitVec.sub_eq_add_neg _ _

theorem validBcd_eq_areDigits (b : Byte) : validBcd b = areDigits b := by
  rw [Bool.eq_iff_iff, validBcd_iff, areDigits, decide_eq_true_iff]

/-- The truncation of the encode formula cuts nothing off a number of two digits. -/
theorem bcdEnc_toNat_of_le {n : Byte} (h : n.toNat ≤ 99) : (bcdEnc n).toNat = n.toNat / 10 * 16 + n.toNat % 10 := by
  rw [bcdEnc_toNat]
  omega

/-- Decoding undoes encoding on the numbers that have two digits (40_bcd.md R129). -/
theorem bcdDec_bcdEnc {n : Byte} (h : n.toNat ≤ 99) : bcdDec (bcdEnc n) = n := by
  apply BitVec.eq_of_toNat_eq
  rw [bcdDec_toNat, bcdEnc_toNat_of_le h]
  omega

/-- Encoding undoes decoding on the bytes that are two digits (40_bcd.md R129). -/
theorem bcdEnc_bcdDec {b : Byte} (h : validBcd b = true) : bcdEnc (bcdDec b) = b := by
  obtain ⟨hlow, hhigh⟩ := (validBcd_iff b).mp h
  apply BitVec.eq_of_toNat_eq
  rw [bcdEnc_toNat, bcdDec_toNat]
  omega

theorem validBcd_bcdEnc {n : Byte} (h : n.toNat ≤ 99) : validBcd (bcdEnc n) = true := by
  rw [validBcd_iff, bcdEnc_toNat_of_le h]
  omega

/-! ## The ranges of the time fields -/

theorem fieldsInRange_iff (t : TimeFields) :
    fieldsInRange t = true ↔ t.sec.toNat ≤ 59 ∧ t.min.toNat ≤ 59 ∧ t.hour.toNat ≤ 23 ∧ 1 ≤ t.day.toNat ∧
      t.day.toNat ≤ 31 ∧ t.mon.toNat ≤ 11 ∧ t.wday.toNat ≤ 6 := by
  simp only [fieldsInRange, Bool.and_eq_true, decide_eq_true_iff, and_assoc]

theorem fieldsInRange_eq_inRange (t : TimeFields) : fieldsInRange t = t.inRange := by
  rw [Bool.eq_iff_iff, fieldsInRange_iff, TimeFields.inRange, decide_eq_true_iff]

theorem timeValid_iff (t : TimeFields) :
    timeValid t = true ↔ fieldsInRange t = true ∧ 1996 ≤ t.year.toNat ∧ t.year.toNat ≤ 2095 := by
  simp only [timeValid, Bool.and_eq_true, decide_eq_true_iff, and_assoc]
  rfl

theorem timeValid_eq_legal (t : TimeFields) : timeValid t = t.legal := by
  rw [Bool.eq_iff_iff, timeValid_iff, TimeFields.legal, fieldsInRange_eq_inRange, Bool.and_eq_true, decide_eq_true_iff]

/-! ## The time-block codec -/

/-- The month byte holds the month counted from 1 (40_bcd.md R125); 11 and 1 fit in a byte. -/
theorem mon_add_one_toNat {t : TimeFields} (h : t.mon.toNat ≤ 11) : (t.mon + 1).toNat = t.mon.toNat + 1 := by
  bv_omega

/-- The two year bytes hold the year within its century and the centuries since 1900 (40_bcd.md R125). -/
theorem yearInCentury_toNat (y : Nat) : (BitVec.ofNat 8 (y % 100)).toNat = y % 100 := by
  rw [BitVec.toNat_ofNat]
  omega

theorem centuries_toNat {y : Nat} (h : y ≤ 2095) : (BitVec.ofNat 8 ((y - 1900) / 100)).toNat = (y - 1900) / 100 := by
  rw [BitVec.toNat_ofNat]
  omega

/-- The marker bit stands above the digits of an hour. -/
theorem hourDigits_bcdEnc {n : Byte} (h : n.toNat ≤ 23) : hourDigits (bcdEnc n ||| Config.hourMark) = bcdEnc n := by
  apply hourDigits_of_marked
  rw [bcdEnc_toNat_of_le (by omega)]
  omega

/-- A legal time is encoded byte by byte (40_bcd.md R125): no field and no part of the year is cut off. -/
theorem timeEncode_eq_digits {t : TimeFields} (h : timeValid t = true) :
    timeEncode t =
      #v[digits t.sec.toNat, digits t.min.toNat, digits t.hour.toNat ||| 0x80, digits t.day.toNat, digits t.wday.toNat,
        digits (t.mon.toNat + 1), digits (t.year.toNat % 100), digits ((t.year.toNat - 1900) / 100)] := by
  obtain ⟨hfields, -, hmax⟩ := (timeValid_iff t).mp h
  obtain ⟨-, -, -, -, -, hmon, -⟩ := (fieldsInRange_iff t).mp hfields
  simp only [timeEncode, bcdEnc_eq_digits, mon_add_one_toNat hmon, yearInCentury_toNat, centuries_toNat hmax,
    Config.hourMark]

theorem allZero_iff (tb : Block) : allZero tb = true ↔ tb = Vector.replicate 8 0x00 := by
  simp only [allZero, List.all_eq_true, beq_iff_eq, Vector.mem_toList_iff]
  exact Vector.eq_replicate_iff.symm

/-- The fields of a block that is not all zero (40_bcd.md R126). -/
theorem decodeFieldsOf_eq_digitsValue {tb : Block} (h : allZero tb = false) :
    decodeFieldsOf tb =
      { sec := BitVec.ofNat 8 (digitsValue tb[0])
        min := BitVec.ofNat 8 (digitsValue tb[1])
        hour := BitVec.ofNat 8 (digitsValue (tb[2] &&& 0x7F))
        day := BitVec.ofNat 8 (digitsValue tb[3])
        wday := BitVec.ofNat 8 (digitsValue tb[4])
        mon := BitVec.ofNat 8 (digitsValue tb[5] + 255)
        year := BitVec.ofNat 16 (1900 + 100 * digitsValue tb[7] + digitsValue tb[6]) } := by
  rw [decodeFieldsOf, if_neg (Bool.eq_false_iff.mp h)]
  simp only [bcdDec_sub_one, bcdDec_toNat_eq_digitsValue]
  simp only [bcdDec_eq_ofNat, hourDigits]

/-- The validity flag of a block that is not all zero (40_bcd.md R126). -/
theorem decodeValid_eq_areDigits {tb : Block} (h : allZero tb = false) :
    decodeValid tb =
      (areDigits tb[0] && areDigits tb[1] && areDigits (tb[2] &&& 0x7F) && areDigits tb[3] && areDigits tb[4] &&
        areDigits tb[5] && areDigits tb[6] && areDigits tb[7] && (decodeFieldsOf tb).inRange) := by
  rw [decodeValid, h, Bool.false_or]
  simp only [validBcd_eq_areDigits, fieldsInRange_eq_inRange, hourDigits]

/-- The hour byte of an encoded time carries the marker bit, so the block is not all zero. -/
theorem allZero_timeEncode (t : TimeFields) : allZero (timeEncode t) = false := by
  rw [Bool.eq_false_iff]
  intro h
  have hhour : bcdEnc t.hour ||| Config.hourMark = 0x00 := by
    simpa [timeEncode] using congrArg (·[2]) ((allZero_iff _).mp h)
  have hmark := congrArg (BitVec.getLsbD · 7) hhour
  simp [Config.hourMark] at hmark

/-- Decoding an encoded legal time gives the same fields (40_bcd.md R129). -/
theorem decodeFieldsOf_timeEncode {t : TimeFields} (h : timeValid t = true) : decodeFieldsOf (timeEncode t) = t := by
  obtain ⟨hfields, hyearMin, hyearMax⟩ := (timeValid_iff t).mp h
  obtain ⟨hsec, hmin, hhour, -, hday, hmon, hwday⟩ := (fieldsInRange_iff t).mp hfields
  have hmon1 := mon_add_one_toNat hmon
  have hyear := yearInCentury_toNat t.year.toNat
  have hcent := centuries_toNat hyearMax
  rw [decodeFieldsOf, if_neg (Bool.eq_false_iff.mp (allZero_timeEncode t))]
  apply TimeFields.ext
  case sec | min | day | wday => exact bcdDec_bcdEnc (by omega)
  case hour =>
    change bcdDec (hourDigits (bcdEnc t.hour ||| Config.hourMark)) = t.hour
    rw [hourDigits_bcdEnc hhour, bcdDec_bcdEnc (by omega)]
  case mon =>
    change bcdDec (bcdEnc (t.mon + 1)) - 1 = t.mon
    rw [bcdDec_bcdEnc (by omega), BitVec.add_sub_cancel]
  case year =>
    change BitVec.ofNat 16 (1900 + 100 * (bcdDec (bcdEnc (BitVec.ofNat 8 ((t.year.toNat - 1900) / 100)))).toNat +
      (bcdDec (bcdEnc (BitVec.ofNat 8 (t.year.toNat % 100)))).toNat) = t.year
    rw [bcdDec_bcdEnc (by omega), bcdDec_bcdEnc (by omega), hcent, hyear]
    have hsum : 1900 + 100 * ((t.year.toNat - 1900) / 100) + t.year.toNat % 100 = t.year.toNat := by omega
    rw [hsum, BitVec.ofNat_toNat, BitVec.setWidth_eq]

/-- Every byte of an encoded legal time is two digits, and the fields are those of the time (40_bcd.md R129). -/
theorem decodeValid_timeEncode {t : TimeFields} (h : timeValid t = true) : decodeValid (timeEncode t) = true := by
  obtain ⟨hfields, -, hyearMax⟩ := (timeValid_iff t).mp h
  obtain ⟨hsec, hmin, hhour, -, hday, hmon, hwday⟩ := (fieldsInRange_iff t).mp hfields
  have hmon1 := mon_add_one_toNat hmon
  have hyear := yearInCentury_toNat t.year.toNat
  have hcent := centuries_toNat hyearMax
  rw [decodeValid, allZero_timeEncode, decodeFieldsOf_timeEncode h, hfields]
  simp only [Bool.false_or, Bool.and_true, Bool.and_eq_true, and_assoc]
  refine ⟨?_, ?_, ?_, ?_, ?_, ?_, ?_, ?_⟩
  case refine_3 =>
    change validBcd (hourDigits (bcdEnc t.hour ||| Config.hourMark)) = true
    rw [hourDigits_bcdEnc hhour, validBcd_bcdEnc (by omega)]
  all_goals exact validBcd_bcdEnc (by omega)

/-! ## The ops -/

/-- An accepted op that succeeds at once (10_state.md R41). -/
theorem complete_accept (op a b c : Byte) (ok : Bool) (err : ErrCode) (s : State) :
    complete ok err (accept op a b c s) =
      { latched op a b c s with stat := completedStat s ok err, seq := .idle } := rfl

/-- An accepted op that gives a result in RES and succeeds if `valid` holds (40_bcd.md R122, R123). -/
theorem complete_or_raise_accept_res (op a b c : Byte) (s : State) (res : Word) (valid : Prop) [Decidable valid] :
    (if valid then complete true .none { accept op a b c s with res := res }
      else raiseErr .range { accept op a b c s with res := res }) =
      { latched op a b c s with
        seq := .idle
        res := res
        stat := if valid then completedStat s true .none else completedStat s false .range } := by
  split <;> rfl

/-- An accepted op that decodes BUF at once (40_bcd.md R128). -/
theorem timeDecodeAndComplete_accept (op a b c : Byte) (s : State) :
    timeDecodeAndComplete (accept op a b c s) =
      { latched op a b c s with
        seq := .idle
        time := decodeFieldsOf s.buf
        stat := { completedStat s (decodeValid s.buf) (if decodeValid s.buf then .none else .range) with
          unknown := decodeUnknown s.buf } } := by
  rw [timeDecodeAndComplete, accept_buf]
  cases decodeValid s.buf <;> rfl

/-- Settles O10: RES takes the encode formula's value, and the byte's range decides how the op completes. -/
theorem bcdEncResult : Obligations.BcdEncResult := by
  refine ⟨fun a b c => rfl, fun a b c s hb => ?_⟩
  have hres : (bcdEnc a).setWidth 32 = BitVec.ofNat 32 ((a.toNat / 10 * 16 + a.toNat % 10) % 256) := by
    rw [← bcdEnc_toNat, BitVec.ofNat_toNat]
  rw [exec, execBcdEnc, issue_idle _ _ _ _ _ _ hb, ← hres]
  exact congrArg _ (complete_or_raise_accept_res 0x01 a b c s _ _)

/-- Settles O11: RES takes the decode formula's value, and the digits decide how the op completes. -/
theorem bcdDecResult : Obligations.BcdDecResult := by
  refine ⟨fun a b c => rfl, fun a b c s hb => ?_⟩
  have hres : (bcdDec a).setWidth 32 = BitVec.ofNat 32 (digitsValue a) := by
    rw [← bcdDec_toNat_eq_digitsValue, BitVec.ofNat_toNat]
  rw [exec, execBcdDec, issue_idle _ _ _ _ _ _ hb, ← hres, ← validBcd_eq_areDigits]
  exact congrArg _ (complete_or_raise_accept_res 0x02 a b c s _ _)

/-- Settles O12: the machine's range check is the stated one, and a legal time is encoded without a cut. -/
theorem timeEncResult : Obligations.TimeEncResult := by
  refine ⟨fun a b c => rfl, fun a b c s hb => ?_⟩
  rw [exec, execTimeEnc, issue_idle _ _ _ _ _ _ hb, accept_time, ← timeValid_eq_legal]
  refine ⟨fun h => ?_, fun h => ?_⟩
  · rw [h, ← timeEncode_eq_digits h]
    rfl
  · rw [h]
    rfl

/-- Settles O13: BUF is all zero and never set, or its bytes decode by the formula and decide how the op completes. -/
theorem timeDecResult : Obligations.TimeDecResult := by
  refine ⟨fun a b c => rfl, fun a b c s hb => ?_⟩
  rw [exec, execTimeDec, issue_idle _ _ _ _ _ _ hb, timeDecodeAndComplete_accept]
  refine ⟨fun h => ?_, fun h => ?_⟩
  · rw [h]
    rfl
  · have hknown : allZero s.buf = false := by
      rw [Bool.eq_false_iff]
      exact mt (allZero_iff s.buf).mp h
    rw [← decodeFieldsOf_eq_digitsValue hknown]
    dsimp only
    rw [← decodeValid_eq_areDigits hknown, decodeUnknown, hknown]
    refine ⟨fun hvalid => ?_, fun hvalid => ?_⟩ <;> rw [hvalid] <;> rfl

/-- Settles O14: the byte codec's two laws, and the time-block codec's byte by byte. -/
theorem codecRoundTrips : Obligations.CodecRoundTrips :=
  ⟨fun _ => bcdDec_bcdEnc, fun _ => bcdEnc_bcdDec,
   fun t h => ⟨decodeFieldsOf_timeEncode h, allZero_timeEncode t, decodeValid_timeEncode h⟩⟩

end Sys2Proof.Machine
end

section
/-! The two lines in a single step: the level of a line, its place in a platform GPIO register, and the hold of a phase
(41_twowire.md R141 to R143, R161). -/

namespace Sys2Proof.Machine

open Host (Outcome)

/-! ## Levels -/

theorem sclLevel_of_low (s : State) (h : s.sclO = false) : sclLevel s = false := by simp [sclLevel, h]

/-- Where the state says what the other agents do, a line is high just where the block and the others leave it high. -/
theorem sdaLevel_of_said {s : State} {others : Bool} (h : s.sdaEnv = some others) : sdaLevel s = (s.sdaO && others) := by
  rw [sdaLevel, h, Option.getD_some]

theorem sclLevel_of_said {s : State} {others : Bool} (h : s.sclEnv = some others) : sclLevel s = (s.sclO && others) := by
  rw [sclLevel, h, Option.getD_some]

/-- Settles O43: each level is the block's output and what the others leave of the line. -/
theorem lineLevels : Obligations.LineLevels := by
  intro s
  refine ⟨sdaLevel_of_low s, fun hothers => ?_, fun hout hothers => ?_, sclLevel_of_low s, fun hothers => ?_,
    fun hout hothers => ?_⟩
  · rw [sample, sdaLevel_of_said hothers, Bool.and_false]
  · rw [sample, sdaLevel_of_said hothers, hout, Bool.true_and]
  · rw [sclLevel_of_said hothers, Bool.and_false]
  · rw [sclLevel_of_said hothers, hout, Bool.true_and]

/-! ## The platform GPIO register -/

/-- A bit of the register the block drives: SDA_O on its bit, else SCL_O on its bit, else the bit as it was. -/
theorem getLsbD_gpioDriven (p : Params) (s : State) (g : Word) {n : Nat} (hn : n < 32) :
    (gpioDriven p s g).getLsbD n =
      if n = p.gpioSdaBit.val then s.sdaO else if n = p.gpioSclBit.val then s.sclO else g.getLsbD n := by
  rw [gpioDriven, getLsbD_setBitAt _ _ _ _ hn, getLsbD_setBitAt _ _ _ _ hn]

/-- Settles O48: the block's side by the bits it drives, the platform's by the levels the register's bits stand for. -/
theorem gpioLines : Obligations.GpioLines := by
  refine ⟨fun p s g => ⟨?_, fun hne => ?_, fun n hn hscl hsda => ?_⟩, fun s g later hi => ?_⟩
  · rw [getLsbD_gpioDriven p s g p.gpioSdaBit.isLt, if_pos rfl]
  · rw [getLsbD_gpioDriven p s g p.gpioSclBit.isLt, if_neg (Fin.val_ne_of_ne hne), if_pos rfl]
  · rw [getLsbD_gpioDriven p s g hn, if_neg hsda, if_neg hscl]
  · exact ⟨_, step_of_inputs s _ later hi, sdaLevel_of_said rfl, sclLevel_of_said rfl, rfl⟩

/-! ## Inside a hold -/

/-- SCL_O and SDA_O. -/
def State.outputs (s : State) : Bool × Bool := (s.sclO, s.sdaO)

/-- Inside a hold a cycle of a phase sets no line. -/
theorem phaseCycle_outputs (p : Params) (l : Line) (v : BitSource) (rest : List Stmt) {s : State} (h : s.hc ≠ 0) :
    (phaseCycle p l v rest s).outputs = s.outputs := by
  simp only [phaseCycle, if_neg h]
  split
  · rfl
  · simp [State.outputs]

theorem seqCycle_outputs (p : Params) (rule : List Stmt) {s : State} (h : s.hc ≠ 0) :
    (seqCycle p rule s).outputs = s.outputs := by
  have hdrain (rest : List Stmt) (t : State) : (drain p rest t).outputs = t.outputs := by simp [State.outputs]
  simp only [seqCycle]
  split
  next => rw [phaseCycle_outputs p _ _ _ (by simpa using h), hdrain]
  next => exact hdrain rule s
  next => rw [hdrain]; exact hdrain rule s
  next => exact hdrain rule s

theorem clock_outputs (p : Params) {s : State} (h : s.hc ≠ 0) : (clock p s).outputs = s.outputs := by
  unfold clock
  split
  · rfl
  · split
    · rfl
    · exact seqCycle_outputs p _ h

/-- Settles O24: a clock cycle, queued or not, that finds HC other than 0 sets no line. -/
theorem holdKeepsOutputs : Obligations.HoldKeepsOutputs := by
  intro s t hhc hi hstep
  rcases hi with hi | ⟨later, hi⟩
  · rw [step_of_no_inputs s hi] at hstep
    exact Outcome.next.inj hstep ▸ Prod.mk.inj (clock_outputs _ hhc)
  · rw [step_of_inputs s _ later hi] at hstep
    exact Outcome.next.inj hstep ▸ Prod.mk.inj (clock_outputs _ (s := { s with inputs := later }) hhc)

end Sys2Proof.Machine
end

section
/-! The two-wire ops (41_twowire.md R144 to R157): each is accepted, runs its phase list, and completes at its end. -/

namespace Sys2Proof.Machine

/-! ## From acceptance to completion -/

/-- The block in which an op has just been accepted whose statements before its `complete(1, 0)` are `xs`. -/
abbrev startedWith (op a b c : Byte) (xs : List Stmt) (s : State) : State :=
  startSeq (xs ++ [completeOk]) (accept op a b c s)

/-- `s` with what a two-wire op may write given: RES, BUF, the outputs, the engine's registers, and the draws. -/
abbrev withWrites (res : Word) (buf : Block) (scl sda : Bool) (sr : Byte) (bi : BitIndex) (xi : Fin 8) (draws : Nat)
    (s : State) : State :=
  { s with res := res, buf := buf, sclO := scl, sdaO := sda, sr := sr, bi := bi, xi := xi, draws := draws }

section
variable {s : State} (h : s.Ready) (hi : s.inputs = []) (op a b c : Byte) {xs : List Stmt}
  (hx : ∀ x ∈ xs, x.inPhaseList = true)
include h hi hx

/-- An op accepted in a ready block shows the phases of its list. -/
theorem State.Ready.shows {levels : List (Bool × Bool)}
    (hl : firstLevels Config.params (phaseLength s) xs (startedWith op a b c xs s) = levels) :
    showsPhases (startedWith op a b c xs s) (phaseLength s) levels := by
  subst hl
  exact showsPhases_of_clocks _ _ _ hi (outputs_of_rule _ _ xs _ _ (h.phasing op a b c _) rfl hx)

/-- An op accepted in a ready block completes with OK = 1 at the end of its phase list, with what the list writes written and
nothing else changed. -/
theorem State.Ready.completes (hc : 0 < phaseCount xs) {res : Word} {buf : Block} {scl sda : Bool} {sr : Byte} {bi : BitIndex}
    {xi : Fin 8}
    (he : firstEffect Config.params (phaseLength s) xs (startedWith op a b c xs s) =
      withWrites res buf scl sda sr bi xi (s.draws + (phaseCount xs * phaseLength s - 1)) (startedWith op a b c xs s)) :
    runsTo (phaseCount xs * phaseLength s) (startedWith op a b c xs s)
      (withWrites res buf scl sda sr bi xi (s.draws + phaseCount xs * phaseLength s)
        { latched op a b c s with stat := completedStat s true .none }) := by
  have hp := h.phasing op a b c (xs ++ [completeOk])
  have hdraws : s.draws + phaseCount xs * phaseLength s = s.draws + (phaseCount xs * phaseLength s - 1) + 1 := by
    have := Nat.mul_pos hc hp.pos
    omega
  have hrun := runsTo_clocks (phaseCount xs * phaseLength s) (startedWith op a b c xs s) hi
  rw [clocks_rule _ _ xs _ _ hp rfl hx hc, he, drain_completeOk] at hrun
  rw [hdraws, ← setSeq_eq_self .idle (latched op a b c s) h.idle]
  exact hrun

end

theorem one_le_phaseLength (s : State) : 1 ≤ phaseLength s := Nat.le_max_right _ _

/-! ## Conditions and bits -/

/-- Settles O15: START's phases, with no statement between them. -/
theorem twStartRuns : Obligations.TwStartRuns := by
  refine ⟨fun a b c => rfl, fun a b c s h hi => ?_⟩
  exact ⟨_, _, issue_startSeq a b c h.notBusy 0x10 twStartRule, rfl, h.shows hi 0x10 a b c (by decide) rfl,
    h.completes hi 0x10 a b c (by decide) (by decide) (firstEffect_start _ _ _ (one_le_phaseLength s)), rfl⟩

/-- Settles O16: STOP's phases, with no statement between them. -/
theorem twStopRuns : Obligations.TwStopRuns := by
  refine ⟨fun a b c => rfl, fun a b c s h hi => ?_⟩
  exact ⟨_, _, issue_startSeq a b c h.notBusy 0x11 twStopRule, rfl, h.shows hi 0x11 a b c (by decide) rfl,
    h.completes hi 0x11 a b c (by decide) (by decide) (firstEffect_stop _ _ _ (one_le_phaseLength s)), rfl⟩

/-- Settles O17: WRBIT of the latched A[0]. -/
theorem twWrbitRuns : Obligations.TwWrbitRuns := by
  refine ⟨fun a b c => rfl, fun a b c s h hi => ?_⟩
  exact ⟨_, _, issue_startSeq a b c h.notBusy 0x12 twWrbitRule, rfl, h.shows hi 0x12 a b c (by decide) rfl,
    h.completes hi 0x12 a b c (by decide) (by decide) (firstEffect_wrbit _ _ _ _ (one_le_phaseLength s)), rfl⟩

/-- `RES <- zext_32(sample())` with the data line released. -/
theorem runAct_sampleRes (p : Params) {s : State} (h : s.sdaO = true) :
    runAct p .sampleRes s = { s with res := if levelAfter s 0 then 1 else 0 } := by
  rw [runAct, bitWord_eq, sample, sdaLevel_of_released s h]
  rfl

/-- Settles O18: RDBIT, whose level is sampled in the step that ends its last phase. -/
theorem twRdbitRuns : Obligations.TwRdbitRuns := by
  intro a b c s h hi
  refine ⟨_, issue_startSeq a b c h.notBusy 0x13 twRdbitRule, rfl, h.shows hi 0x13 a b c (by decide) rfl, ?_⟩
  refine h.completes hi 0x13 a b c (xs := rdbitList .sampleRes) (by decide) (by decide) ?_
  rw [firstEffect_rdbit _ _ _ _ (one_le_phaseLength s), runAct_sampleRes _ rfl]
  rfl

/-! ## Bytes -/

theorem firstEffect_wrbyte_sampleRes (p : Params) {d : Nat} (v : ByteSource) (s : State) (hd : 1 ≤ d) :
    firstEffect p d (wrbyteList v .sampleRes) s =
      { s with
        res := if levelAfter s (27 * d - 1) then 1 else 0, sr := byteValue v s, bi := .ack, sclO := true, sdaO := true
        draws := s.draws + (27 * d - 1) } := by
  rw [firstEffect_wrbyte _ _ _ _ _ hd, runAct_sampleRes _ rfl]
  rfl

/-- Settles O19: WRBYTE of the latched A, whose acknowledge is sampled in the step that ends its last phase. -/
theorem twWrbyteRuns : Obligations.TwWrbyteRuns := by
  intro a b c s h hi
  exact ⟨_, _, issue_startSeq a b c h.notBusy 0x14 twWrbyteRule, rfl,
    h.shows hi 0x14 a b c (by decide) (firstLevels_wrbyte ..),
    h.completes hi 0x14 a b c (by decide) (by decide) (firstEffect_wrbyte_sampleRes _ _ _ (one_le_phaseLength s)), rfl⟩

/-- tw.rdbyte's statements before its completion: RDBYTE, and the byte into RES (41_twowire.md R155). -/
def rdbyteToRes : List Stmt := rdbyteList .al0 ++ [.act .resFromSr]

theorem firstEffect_rdbyteToRes (p : Params) {d : Nat} (s : State) (hd : 1 ≤ d) :
    firstEffect p d rdbyteToRes s =
      { s with
        res := (firstByteRead d s).setWidth 32, sr := firstByteRead d s, bi := .ack, sclO := true, sdaO := s.al.getLsbD 0
        draws := s.draws + (27 * d - 1) } := by
  rw [rdbyteToRes, firstEffect_append _ _ _ _ _ (by decide), firstEffect_rdbyte _ _ _ _ (by decide) hd]
  rfl

theorem firstLevels_rdbyteToRes (p : Params) (d : Nat) (s : State) :
    firstLevels p d rdbyteToRes s = waveform s.sdaO (receivedByte (s.al.getLsbD 0)) := by
  rw [rdbyteToRes, firstLevels_append _ _ _ _ _ (by decide), firstLevels_rdbyte _ _ _ _ (by decide)]
  exact List.append_nil _

/-- Settles O20: RDBYTE, whose eight levels are sampled each in the step that ends its bit's last phase. -/
theorem twRdbyteRuns : Obligations.TwRdbyteRuns := by
  intro a b c s h hi
  refine ⟨_, _, issue_startSeq a b c h.notBusy 0x15 twRdbyteRule, rfl,
    h.shows hi 0x15 a b c (xs := rdbyteToRes) (by decide) (firstLevels_rdbyteToRes ..),
    h.completes hi 0x15 a b c (by decide) (by decide) (firstEffect_rdbyteToRes _ _ (one_le_phaseLength s)),
    fun n hn => ?_, fun n hn => ?_, rfl⟩
  · have hbit := getLsbD_firstByteRead (phaseLength s) (startSeq twRdbyteRule (accept 0x15 a b c s)) n hn
    rw [BitVec.getLsbD_setWidth, decide_eq_true (by omega), Bool.true_and]
    exact hbit
  · rw [BitVec.getLsbD_setWidth, BitVec.getLsbD_of_ge _ _ hn, Bool.and_false]

/-! ## Blocks -/

/-- The beginning of both block ops: START, the address byte for a write, and the register (41_twowire.md R156, R157). -/
def blockAddressing : List Stmt :=
  startList ++ wrbyteList (.address false) .sampleDiscard ++ wrbyteList .al .sampleDiscard

theorem firstEffect_blockAddressing (p : Params) {d : Nat} (s : State) (hd : 1 ≤ d) :
    firstEffect p d blockAddressing s =
      { s with sr := s.al, bi := .ack, sclO := true, sdaO := true, draws := s.draws + (58 * d - 1) } := by
  have hdraws : s.draws + (4 * d - 1) + 27 * d + 27 * d = s.draws + (58 * d - 1) := by omega
  rw [blockAddressing, List.append_assoc, firstEffect_append _ _ _ _ _ (by decide), firstEffect_start _ _ _ hd, effectOf_append,
    effectOf_wrbyte, effectOf_wrbyte]
  simp only [runAct, byteValue, hdraws]

theorem firstLevels_blockAddressing (p : Params) {d : Nat} (s : State) (hd : 1 ≤ d) :
    firstLevels p d blockAddressing s =
      waveform s.sdaO ([.start] ++ sentByte (addressByte s.cl false) ++ sentByte s.al) := by
  rw [blockAddressing, List.append_assoc, firstLevels_append _ _ _ _ _ (by decide), firstEffect_start _ _ _ hd, levelsOf_append,
    levelsOf_wrbyte, effectOf_wrbyte, levelsOf_wrbyte]
  rfl

/-! ### tw.wrblk -/

/-- tw.wrblk's statements before its completion (41_twowire.md R157). -/
def wrblkList (len : Nat) : List Stmt := blockAddressing ++ ((byteIndexes len).flatMap sendByteList ++ stopList)

theorem twWrblkRule_eq (len : Nat) : twWrblkRule len = wrblkList len ++ [completeOk] := by
  simp only [twWrblkRule, wrblkList, blockAddressing, List.append_assoc]

theorem inPhaseList_wrblkList (len : Nat) : ∀ x ∈ wrblkList len, x.inPhaseList = true := by
  simpa only [wrblkList, blockAddressing, List.append_assoc] using inPhaseList_twWrblk len

theorem phaseCount_wrblkList {len : Nat} (h : len ≤ 8) : phaseCount (wrblkList len) = 62 + 27 * len := by
  have hbytes := phaseCount_flatMap sendByteList 27 (by decide) (byteIndexes len)
  rw [length_byteIndexes len h] at hbytes
  have haddr : phaseCount blockAddressing = 58 := by decide
  have hstop : phaseCount stopList = 4 := by decide
  rw [wrblkList, phaseCount_append, phaseCount_append, hbytes, haddr, hstop]
  omega

theorem firstEffect_wrblkList (p : Params) {d len : Nat} (s : State) (hd : 1 ≤ d) (hlen : len ≤ 8) :
    ∃ xi sr bi, firstEffect p d (wrblkList len) s =
      { s with
        sclO := true, sdaO := true, xi := xi, sr := sr, bi := bi
        draws := s.draws + (phaseCount (wrblkList len) * d - 1) } := by
  obtain ⟨xi, sr, bi, hbytes⟩ := effectOf_sendBytes p d (byteIndexes len)
    { s with sr := s.al, bi := .ack, sclO := true, sdaO := true, draws := s.draws + (58 * d - 1) } rfl rfl
  have hdraws : s.draws + (58 * d - 1) + 27 * len * d + 4 * d = s.draws + ((62 + 27 * len) * d - 1) := by
    rw [Nat.add_mul]
    omega
  refine ⟨xi, sr, bi, ?_⟩
  rw [phaseCount_wrblkList hlen, wrblkList, firstEffect_append _ _ _ _ _ (by decide), firstEffect_blockAddressing _ _ hd,
    effectOf_append, hbytes, effectOf_stop, length_byteIndexes len hlen, ← hdraws]

theorem leavesOf_append (sda : Bool) (xs ys : List WireItem) :
    leavesOf sda (xs ++ ys) = leavesOf (leavesOf sda xs) ys :=
  List.foldl_append

theorem leavesOf_sentBytes (bytes : List Byte) : leavesOf true (bytes.flatMap sentByte) = true := by
  induction bytes with
  | nil => rfl
  | cons v bytes ih => rw [List.flatMap_cons, leavesOf_append, leavesOf_sentByte, ih]

theorem firstLevels_wrblkList (p : Params) {d : Nat} (len : Nat) (s : State) (hd : 1 ≤ d) :
    firstLevels p d (wrblkList len) s = waveform s.sdaO
      ([.start] ++ sentByte (addressByte s.cl false) ++ sentByte s.al ++ (s.buf.toList.take len).flatMap sentByte
        ++ [.stop]) := by
  obtain ⟨xi, sr, bi, hbytes⟩ := effectOf_sendBytes p d (byteIndexes len)
    { s with sr := s.al, bi := .ack, sclO := true, sdaO := true, draws := s.draws + (58 * d - 1) } rfl rfl
  rw [wrblkList, firstLevels_append _ _ _ _ _ (by decide), firstLevels_blockAddressing _ _ hd,
    firstEffect_blockAddressing _ _ hd, levelsOf_append, levelsOf_sendBytes _ _ _ _ rfl, hbytes, levelsOf_stop,
    byteIndexes, map_byteIndexes]
  simp only [waveform_append, leavesOf_sentByte, leavesOf_sentBytes, waveform, List.append_nil,
    List.append_assoc]

/-- The address byte of a block op, sent for a write, as a number (30_encoding.md R96). -/
theorem addressByte_write (c : Byte) : addressByte c false = BitVec.ofNat 8 (c.toNat % 128 * 2) := addressByte_eq c false

/-- The address byte of tw.rdblk's second START, sent for a read. -/
theorem addressByte_read (c : Byte) : addressByte c true = BitVec.ofNat 8 (c.toNat % 128 * 2 + 1) := addressByte_eq c true

/-- Settles O22: START, the address, the register, the loop over BUF and STOP; the loop's turns leave BUF as it is. -/
theorem twWrblkRuns : Obligations.TwWrblkRuns := by
  refine ⟨fun a b c => rfl, fun a b c s h hi h1 h8 => ?_⟩
  have hd := one_le_phaseLength s
  have hx := inPhaseList_wrblkList b.toNat
  have hcount := phaseCount_wrblkList h8
  obtain ⟨xi, sr, bi, heffect⟩ := firstEffect_wrblkList Config.params
    (startedWith 0x17 a b c (wrblkList b.toNat) s) hd h8
  have hexec : exec (.twWrblk a b c) s = .next (startedWith 0x17 a b c (wrblkList b.toNat) s) := by
    rw [exec_twWrblk_idle a b c h.notBusy, if_pos ((lengthOk_iff b).mpr ⟨h1, h8⟩), twWrblkRule_eq]
  rw [← addressByte_write, ← hcount]
  exact ⟨_, _, hexec, rfl, h.shows hi 0x17 a b c hx (firstLevels_wrblkList _ _ _ hd),
    h.completes hi 0x17 a b c hx (by omega) heffect, rfl⟩

/-! ### tw.rdblk -/

/-- tw.rdblk's statements before its loop: the register is addressed, and the slave again for a read (41_twowire.md R156). -/
def readAddressing : List Stmt := blockAddressing ++ (startList ++ wrbyteList (.address true) .sampleDiscard)

theorem firstEffect_readAddressing (p : Params) {d : Nat} (s : State) (hd : 1 ≤ d) :
    firstEffect p d readAddressing s =
      { s with
        sr := addressByte s.cl true, bi := .ack, sclO := true, sdaO := true, draws := s.draws + (89 * d - 1) } := by
  have hdraws : s.draws + (58 * d - 1) + 4 * d + 27 * d = s.draws + (89 * d - 1) := by omega
  rw [readAddressing, firstEffect_append _ _ _ _ _ (by decide), firstEffect_blockAddressing _ _ hd, effectOf_append,
    effectOf_start, effectOf_wrbyte]
  simp only [runAct, byteValue, hdraws]

theorem firstLevels_readAddressing (p : Params) {d : Nat} (s : State) (hd : 1 ≤ d) :
    firstLevels p d readAddressing s = waveform s.sdaO
      ([.start] ++ sentByte (addressByte s.cl false) ++ sentByte s.al ++ [.start]
        ++ sentByte (addressByte s.cl true)) := by
  rw [readAddressing, firstLevels_append _ _ _ _ _ (by decide), firstLevels_blockAddressing _ _ hd,
    firstEffect_blockAddressing _ _ hd, levelsOf_append, levelsOf_start, effectOf_start, levelsOf_wrbyte, byteValue]
  simp only [waveform_append, leavesOf_sentByte, waveform, List.append_nil, List.append_assoc]
  rfl

/-- tw.rdblk's statements before its completion (41_twowire.md R156). -/
def rdblkList (len : Nat) : List Stmt := readAddressing ++ ((byteIndexes len).flatMap (receiveByteList len) ++ stopList)

theorem twRdblkRule_eq (len : Nat) : twRdblkRule len = rdblkList len ++ [completeOk] := by
  simp only [twRdblkRule, rdblkList, readAddressing, blockAddressing, List.append_assoc]

theorem inPhaseList_rdblkList (len : Nat) : ∀ x ∈ rdblkList len, x.inPhaseList = true := by
  simpa only [rdblkList, readAddressing, blockAddressing, List.append_assoc] using inPhaseList_twRdblk len

theorem phaseCount_rdblkList {len : Nat} (h : len ≤ 8) : phaseCount (rdblkList len) = 93 + 27 * len := by
  have hbytes := phaseCount_flatMap (receiveByteList len) 27 (fun _ => rfl) (byteIndexes len)
  rw [length_byteIndexes len h] at hbytes
  have haddr : phaseCount readAddressing = 89 := by decide
  have hstop : phaseCount stopList = 4 := by decide
  rw [rdblkList, phaseCount_append, phaseCount_append, hbytes, haddr, hstop]
  omega

/-- What tw.rdblk's statements leave: the bytes below `len` hold the levels read in their turns, the others are as they were. -/
theorem firstEffect_rdblkList (p : Params) {d len : Nat} (s : State) (hd : 1 ≤ d) (hlen : len ≤ 8) :
    ∃ xi sr bi buf, firstEffect p d (rdblkList len) s =
        { s with
          buf := buf, sclO := true, sdaO := true, xi := xi, sr := sr, bi := bi
          draws := s.draws + (phaseCount (rdblkList len) * d - 1) } ∧
      (∀ i : Fin 8, i.val < len → ∀ n < 8,
        buf[i].getLsbD n = levelAfter s ((89 + 27 * i.val + 3 * (8 - n)) * d - 1)) ∧
      ∀ i : Fin 8, len ≤ i.val → buf[i] = s.buf[i] := by
  obtain ⟨xi, sr, bi, sda, buf, hbytes, hout, hin⟩ := effectOf_receiveBytes p d len (byteIndexes len)
    { s with sr := addressByte s.cl true, bi := .ack, sclO := true, sdaO := true, draws := s.draws + (89 * d - 1) } rfl
    (nodup_byteIndexes len)
  refine ⟨xi, sr, bi, buf, ?_, fun i hi n hn => ?_, fun i hi => hout i ?_⟩
  · have hdraws : s.draws + (89 * d - 1) + 27 * len * d + 4 * d = s.draws + ((93 + 27 * len) * d - 1) := by
      rw [Nat.add_mul]
      omega
    rw [phaseCount_rdblkList hlen, rdblkList, firstEffect_append _ _ _ _ _ (by decide), firstEffect_readAddressing _ _ hd,
      effectOf_append, hbytes, effectOf_stop, length_byteIndexes len hlen, ← hdraws]
  · obtain ⟨k, hk, rfl⟩ := List.getElem_of_mem ((mem_byteIndexes len hlen i).mpr hi)
    have hdraws : s.draws + (89 * d - 1) + (27 * k + 3 * (8 - n)) * d =
        s.draws + ((89 + 27 * k + 3 * (8 - n)) * d - 1) := by
      rw [Nat.add_assoc 89, Nat.add_mul 89]
      omega
    refine (hin k hk n hn).trans ?_
    rw [getElem_byteIndexes, levelAfter, levelAfter, hdraws]
  · rw [mem_byteIndexes len hlen]
    omega

/-- tw.rdblk's loop leaves the data line as its items do. -/
theorem effectOf_receiveBytes_sdaO (p : Params) (d len : Nat) (is : List (Fin 8)) (s : State) :
    (effectOf p d (is.flatMap (receiveByteList len)) s).sdaO =
      leavesOf s.sdaO (is.flatMap fun i => receivedByte (decide (i.val + 1 = len))) := by
  induction is generalizing s with
  | nil => rfl
  | cons i is ih =>
    rw [List.flatMap_cons, effectOf_append, ih, effectOf_receiveByte, List.flatMap_cons, leavesOf_append,
      leavesOf_receivedByte]

theorem map_val_byteIndexes {len : Nat} (h : len ≤ 8) : (byteIndexes len).map Fin.val = List.range len := by
  apply List.ext_getElem
  · rw [List.length_map, length_byteIndexes len h, List.length_range]
  · intro k hk _
    rw [List.getElem_map, getElem_byteIndexes, List.getElem_range]

theorem firstLevels_rdblkList (p : Params) {d len : Nat} (s : State) (hd : 1 ≤ d) (hlen : len ≤ 8) :
    firstLevels p d (rdblkList len) s = waveform s.sdaO
      ([.start] ++ sentByte (addressByte s.cl false) ++ sentByte s.al ++ [.start] ++ sentByte (addressByte s.cl true)
        ++ (List.range len).flatMap (fun i => receivedByte (decide (i + 1 = len))) ++ [.stop]) := by
  rw [rdblkList, firstLevels_append _ _ _ _ _ (by decide), firstLevels_readAddressing _ _ hd,
    firstEffect_readAddressing _ _ hd, levelsOf_append, levelsOf_receiveBytes, levelsOf_stop, effectOf_receiveBytes_sdaO,
    ← map_val_byteIndexes hlen, List.flatMap_map]
  simp only [waveform_append, leavesOf_sentByte, waveform, List.append_nil, List.append_assoc]

/-- Settles O21: the addressing, the loop, whose turns read their bytes into BUF, and STOP. -/
theorem twRdblkRuns : Obligations.TwRdblkRuns := by
  intro a b c s h hi h1 h8
  have hd := one_le_phaseLength s
  have hx := inPhaseList_rdblkList b.toNat
  have hcount := phaseCount_rdblkList h8
  obtain ⟨xi, sr, bi, buf, heffect, hread, hkept⟩ := firstEffect_rdblkList Config.params
    (startedWith 0x16 a b c (rdblkList b.toNat) s) hd h8
  have hexec : exec (.twRdblk a b c) s = .next (startedWith 0x16 a b c (rdblkList b.toNat) s) := by
    rw [exec_twRdblk_idle a b c h.notBusy, if_pos ((lengthOk_iff b).mpr ⟨h1, h8⟩), twRdblkRule_eq]
  dsimp only
  rw [← addressByte_write, ← addressByte_read, ← hcount]
  exact ⟨_, _, hexec, rfl, h.shows hi 0x16 a b c hx (firstLevels_rdblkList _ _ hd h8),
    h.completes hi 0x16 a b c hx (by omega) heffect, hread, hkept, rfl⟩

end Sys2Proof.Machine
end

section
/-! A two-wire op never hangs: every position of its rule is a phase list with the completion after it, and the cycles left are
those of the phases left (41_twowire.md R147, R160). -/

namespace Sys2Proof.Machine

/-! ## The positions of a two-wire op -/

/-- The statements end in `complete(1, 0)`, and before it stands a phase list of at most `n` phases. -/
def EndsPhaseList (n : Nat) (rest : List Stmt) : Prop :=
  ∃ xs, rest = xs ++ [completeOk] ∧ (∀ x ∈ xs, x.inPhaseList = true) ∧ phaseCount xs ≤ n

theorem endsPhaseList_of_suffix {n : Nat} {rest rule : List Stmt} (h : EndsPhaseList n rule) (hsuf : rest <:+ rule)
    (hne : rest ≠ []) : EndsPhaseList n rest := by
  obtain ⟨xs, rfl, hx, hc⟩ := h
  rcases List.suffix_concat_iff.mp hsuf with rfl | ⟨ys, rfl, zs, rfl⟩
  · exact absurd rfl hne
  · refine ⟨ys, rfl, fun x hm => hx x (List.mem_append_right zs hm), ?_⟩
    rw [phaseCount_append] at hc
    omega

/-- The longest rule is that of tw.rdblk for eight bytes. -/
theorem endsPhaseList_twoWire {op a b : Byte} {rule : List Stmt} (hr : rule ∈ rulesOf op a b) (h1 : 0x10 ≤ op.toNat)
    (h2 : op.toNat ≤ 0x17) : EndsPhaseList 309 rule := by
  unfold rulesOf at hr
  split at hr
  case h_1 => exact List.mem_singleton.mp hr ▸ ⟨startList, rfl, by decide, by decide⟩
  case h_2 => exact List.mem_singleton.mp hr ▸ ⟨stopList, rfl, by decide, by decide⟩
  case h_3 => exact List.mem_singleton.mp hr ▸ ⟨wrbitList .al0, rfl, by decide, by decide⟩
  case h_4 => exact List.mem_singleton.mp hr ▸ ⟨rdbitList .sampleRes, rfl, by decide, by decide⟩
  case h_5 => exact List.mem_singleton.mp hr ▸ ⟨wrbyteList .al .sampleRes, rfl, by decide, by decide⟩
  case h_6 => exact List.mem_singleton.mp hr ▸ ⟨rdbyteToRes, rfl, by decide, by decide⟩
  case h_7 =>
    split at hr <;> simp only [List.mem_singleton, List.not_mem_nil] at hr
    next hl =>
      obtain ⟨-, h8⟩ := (lengthOk_iff b).mp hl
      refine hr ▸ ⟨rdblkList b.toNat, twRdblkRule_eq _, inPhaseList_rdblkList _, ?_⟩
      rw [phaseCount_rdblkList h8]
      omega
  case h_8 =>
    split at hr <;> simp only [List.mem_singleton, List.not_mem_nil] at hr
    next hl =>
      obtain ⟨-, h8⟩ := (lengthOk_iff b).mp hl
      refine hr ▸ ⟨wrblkList b.toNat, twWrblkRule_eq _, inPhaseList_wrblkList _, ?_⟩
      rw [phaseCount_wrblkList h8]
      omega
  case h_16 => cases hr
  all_goals exact absurd h2 (by decide)

/-- Wherever a two-wire op stands, a phase list and the completion are left. -/
theorem State.Inv.endsPhaseList {p : Params} {s : State} {rest : List Stmt} (h : s.Inv p) (hs : s.seq = .run rest)
    (h1 : 0x10 ≤ s.opl.toNat) (h2 : s.opl.toNat ≤ 0x17) : EndsPhaseList 309 rest := by
  have hres := h.resumes hs
  obtain ⟨rule, hrule, hsuf⟩ := hres.inRule
  exact endsPhaseList_of_suffix (endsPhaseList_twoWire hrule h1 h2) hsuf hres.nonempty

/-- PEND is 0 but at a frame. -/
theorem State.Inv.pend_low {p : Params} {s : State} (h : s.Inv p) (hs : s.seq.atXfer = false) : s.pend = false := by
  cases hp : s.pend
  · rfl
  · exact absurd (hs.symm.trans (h.pend_xfer hp)) (by decide)

/-- A phase list has no frame. -/
theorem atXfer_phaseList {xs : List Stmt} (hx : ∀ x ∈ xs, x.inPhaseList = true) :
    (Seq.run (xs ++ [completeOk])).atXfer = false := by
  cases xs with
  | nil => rfl
  | cons x xs =>
    cases x with
    | xfer f => exact absurd (hx _ List.mem_cons_self) Bool.false_ne_true
    | phase _ _ | act _ | settle => rfl

/-! ## The cycles that are left -/

/-- From inside a hold, the cycles HC counts lead to the statements after the phase. -/
theorem clocks_rest_of_phase (p : Params) {s : State} {l : Line} {v : BitSource} {rest : List Stmt} (hr : s.rst = false)
    (hp : s.pend = false) (hs : s.seq = .run (.phase l v :: rest)) (hd : 1 ≤ s.dlat.toNat) {k : Nat}
    (hk : s.hc.toNat = k + 1) :
    ∃ u, u.Phasing s.dlat.toNat ∧ clocks p (k + 1) s = addDraws 1 (drain p rest u) := by
  induction k generalizing s with
  | zero =>
    refine ⟨setHc 0 s, ⟨hr, hp, rfl, rfl, hd⟩, ?_⟩
    rw [clocks_succ, clocks_zero, clock_at_phase p s l v rest hr hp hs, phaseCycle_last p l v rest s (by bv_omega)]
  | succ k ih =>
    rw [clocks_succ, clock_at_phase p s l v rest hr hp hs, phaseCycle_hold p l v rest s (by omega)]
    exact ih (s := addDraws 1 (setHc (s.hc - 1) s)) hr hp hs hd
      (by rw [addDraws_hc, setHc_hc]; bv_omega)

/-- With no phase left, the next cycle completes the op. -/
theorem clock_completes (p : Params) {d : Nat} {xs : List Stmt} {s : State} (h : s.Phasing d)
    (hs : s.seq = .run (xs ++ [completeOk])) (hx : ∀ x ∈ xs, x.inPhaseList = true) (hc : phaseCount xs = 0) :
    clock p s = addDraws 1 (complete true .none (effectOf p d xs s)) := by
  have hdrain := clocks_phases p d xs [completeOk] s h hx
  rw [hc, Nat.zero_mul, clocks_zero, drain_completeOk] at hdrain
  have hidle : (drain p (xs ++ [completeOk]) s).seq = .idle := congrArg State.seq hdrain
  rw [clock_of_run p s _ h.rst h.pend hs, ← hdrain]
  simp only [seqCycle, hidle]

/-- From any position before the completion of a phase list, the op completes within the cycles of the phases left, or in the
next cycle where none is left. -/
theorem clocks_complete (p : Params) {xs : List Stmt} {s : State} (hr : s.rst = false) (hp : s.pend = false)
    (hd : s.hc.toNat < s.dlat.toNat) (hphase : s.hc ≠ 0 → s.seq.atPhase = true)
    (hs : s.seq = .run (xs ++ [completeOk])) (hx : ∀ x ∈ xs, x.inPhaseList = true) :
    ∃ n u, n ≤ max 1 (phaseCount xs * s.dlat.toNat) ∧ clocks p n s = addDraws 1 (complete true .none u) := by
  by_cases h0 : s.hc = 0
  · have h : s.Phasing s.dlat.toNat := ⟨hr, hp, h0, rfl, by omega⟩
    rcases Nat.eq_zero_or_pos (phaseCount xs) with hc | hc
    · exact ⟨1, _, Nat.le_max_left _ _, clock_completes p h hs hx hc⟩
    · exact ⟨_, _, Nat.le_max_right _ _, clocks_rule p _ xs [completeOk] s h hs hx hc⟩
  · obtain ⟨k, hk⟩ : ∃ k, s.hc.toNat = k + 1 := ⟨s.hc.toNat - 1, by bv_omega⟩
    have hat := hphase h0
    rw [hs] at hat
    cases xs with
    | nil => cases hat
    | cons x xs =>
      cases x with
      | phase l v =>
        obtain ⟨u, hu, hend⟩ := clocks_rest_of_phase p hr hp hs (by omega) hk
        refine ⟨k + 1 + phaseCount xs * s.dlat.toNat, effectOf p s.dlat.toNat xs u, ?_, ?_⟩
        · rw [phaseCount, Nat.succ_mul]
          omega
        · rw [clocks_add, hend]
          exact clocks_phases p _ xs [completeOk] u hu fun y hy => hx y (List.mem_cons_of_mem _ hy)
      | act _ | xfer _ | settle => cases hat

/-- Settles O23: the block stands in a phase list with nothing but the completion after it. -/
theorem twoWireOpCompletes : Obligations.TwoWireOpCompletes := by
  intro s h hb h1 h2 hi
  have hr : s.rst = false := by
    cases hr : s.rst
    · rfl
    · rw [h.rst_reset hr] at hb
      cases hb
  cases hq : s.seq with
  | idle => rw [h.busy_running, hq] at hb; cases hb
  | run rest =>
    obtain ⟨xs, rfl, hx, hc⟩ := h.endsPhaseList hq h1 h2
    have hp : s.pend = false := h.pend_low (by rw [hq]; exact atXfer_phaseList hx)
    obtain ⟨n, u, hn, hrun⟩ := clocks_complete Config.params hr hp h.hc_lt h.hc_phase hq hx
    have hbound : phaseCount xs * s.dlat.toNat ≤ 309 * 65535 := Nat.mul_le_mul hc (Nat.le_of_lt_succ s.dlat.isLt)
    exact ⟨n, _, by omega, hrun ▸ runsTo_clocks n s hi, rfl, rfl, rfl, rfl⟩

end Sys2Proof.Machine
end

section
/-! The control block (42_serial.md R184, R198): what rebuilding it sets and leaves, and that no op sends one with a lock bit
equal to the stop bit. -/

namespace Sys2Proof.Machine

/-! ## Rebuilding -/

/-- A bit of the rebuilt block. -/
theorem blockBit_withCtrl (p : Params) (cb : Block) (stop lock : Bool) (pos : Fin 64) :
    blockBit (withCtrl p cb stop lock) pos =
      if pos = p.ctrl.lock2 then lock else if pos = p.ctrl.lock1 then lock
      else if pos = p.ctrl.stop then stop else blockBit cb pos := by
  simp only [withCtrl, blockBit_setBlockBit]

theorem stop_ne_lock1 (c : CtrlBits) : c.stop ≠ c.lock1 := (Fin.succAbove_ne _ _).symm

theorem stop_ne_lock2 (c : CtrlBits) : c.stop ≠ c.lock2 := (Fin.succAbove_ne _ _).symm

theorem lock1_ne_lock2 (c : CtrlBits) : c.lock1 ≠ c.lock2 :=
  fun h => Fin.succAbove_ne _ _ (Fin.succAbove_right_injective h).symm

/-- Settles O32: each bit of the rebuilt block, the three positions being distinct. -/
theorem controlBlockRebuilt : Obligations.ControlBlockRebuilt := by
  intro p cb stop lock
  have h1 := stop_ne_lock1 p.ctrl
  have h2 := stop_ne_lock2 p.ctrl
  have h12 := lock1_ne_lock2 p.ctrl
  exact ⟨by simp [getStop, blockBit_withCtrl, h1, h2], by simp [blockBit_withCtrl, h12], by simp [blockBit_withCtrl],
    fun pos hs hl1 hl2 => by simp [blockBit_withCtrl, hs, hl1, hl2], h1, h2, h12⟩

/-! ## Raising a request -/

@[simp] theorem phaseCycle_req (p : Params) (l : Line) (v : BitSource) (rest : List Stmt) (s : State) :
    (phaseCycle p l v rest s).req = s.req := by
  unfold phaseCycle
  split <;> dsimp only <;> split <;> simp

/-- A cycle of a running op leaves the request pins alone, or raises the request of the frame it comes to. -/
theorem seqCycle_req_or_raises (p : Params) (rule : List Stmt) (s : State) :
    (seqCycle p rule s).req = s.req ∨
    ∃ f rest, (drain p rule s).seq = .run (.xfer f :: rest) ∧ seqCycle p rule s = raiseRequest p f (drain p rule s) := by
  simp only [seqCycle]
  split
  next => exact .inl (by simp)
  next f rest hq => exact .inr ⟨f, rest, hq, rfl⟩
  next => exact .inl (by simp)
  next => exact .inl (by simp)

/-- `t` is `u` with the request of `f` raised, a frame of the op whose fields `s` has latched. -/
structure Raises (p : Params) (s : State) (f : Frame) (u t : State) : Prop where
  eq : t = addDraws 1 (raiseRequest p f u)
  opl : u.opl = s.opl
  inRule : ∃ rule ∈ rulesOf s.opl s.al s.bl, Stmt.xfer f ∈ rule

theorem clock_raises {p : Params} {s : State} (h : s.Inv p) (hs : s.req.valid = false)
    (ht : (clock p s).req.valid = true) : ∃ f u, Raises p s f u (clock p s) := by
  have hne : (clock p s).req ≠ s.req := fun he => by rw [he, hs] at ht; cases ht
  cases hr : s.rst with
  | true => exact absurd (by rw [clock_of_rst p s hr, addDraws_req]) hne
  | false =>
    cases hp : s.pend with
    | true => exact absurd (by rw [clock_of_pend p s hp, addDraws_req]) hne
    | false =>
      cases hq : s.seq with
      | idle => exact absurd (by rw [clock_of_idle p s hq, addDraws_req]) hne
      | run rule =>
        rw [clock_of_run p s rule hr hp hq] at hne ⊢
        rcases seqCycle_req_or_raises p rule s with hreq | ⟨f, rest, hd, heq⟩
        · exact absurd hreq hne
        · obtain ⟨r, hr', hsuf⟩ := (h.resumes hq).inRule
          have htodo := drain_todo_suffix p rule s
          rw [hd] at htodo
          exact ⟨f, _, congrArg _ heq, drain_opl p rule s, r, hr', (htodo.trans hsuf).mem List.mem_cons_self⟩

theorem Accepted.req {s t : State} (h : Accepted s t) : t.req = s.req := by
  cases h <;> rfl

/-- Only a clock cycle raises a request. -/
theorem performed_raises {p : Params} {e : Input} {s t : State} (h : s.Inv p) (hp : Performed p s e t)
    (hs : s.req.valid = false) (ht : t.req.valid = true) : ∃ f u, Raises p s f u t := by
  have hne : t.req ≠ s.req := fun he => by rw [he, hs] at ht; cases ht
  cases hp with
  | read | ignored | rejected | bus => exact absurd rfl hne
  | register off v =>
    obtain ⟨done, overrun, buf, time, twDelay, ie, settle, heq, -⟩ := writeReg_eq off v s
    exact absurd (by rw [heq]) hne
  | accepted w t _ _ ha => exact absurd ha.req hne
  | clock => exact clock_raises h hs ht
  | takes =>
    unfold takeRequest at hne ht
    split at ht
    next hr => exact absurd (by rw [if_pos hr]) hne
    next => cases ht
  | replies rx =>
    have hreq : (takeReply p rx s).req = s.req := by
      unfold takeReply
      split
      · rfl
      · split
        · exact drain_req ..
        · rfl
    exact absurd hreq hne
  | rst level =>
    unfold driveRst at hne ht
    split at ht
    next => cases ht
    next hr => exact absurd (by rw [if_neg hr]) hne

/-! ## The control blocks sent -/

/-- sf.setstop and sf.settime write to block 0 nothing but a rebuilt control block. -/
theorem ctrl_of_write_block0 {op a b : Byte} {rule : List Stmt} {pl : Payload} (hr : rule ∈ rulesOf op a b)
    (hop : op = 0x24 ∨ op = 0x26) (hx : Stmt.xfer (.writeBlock 0 pl) ∈ rule) : ∃ stop, pl = .ctrl stop := by
  rcases hop with rfl | rfl <;> obtain rfl := List.mem_singleton.mp hr
  · exact ⟨.al0, by simpa [setstopRule, rdbList, wrbList, settleList, exitIf, completeOk] using hx⟩
  · have hpl : pl = .ctrl (.lit true) ∨ pl = .ctrl (.lit false) := by
      simpa [settimeRule, rdbList, wrbList, settleList, exitIf, completeOk] using hx
    exact hpl.elim (fun h => ⟨_, h⟩) fun h => ⟨_, h⟩

/-- The block that a WRITE_BLOCK frame carries after its two first bytes (30_encoding.md R95). -/
theorem blockOnPins_raiseRequest (p : Params) (blk : Byte) (pl : Payload) (s : State) :
    (Vector.ofFn fun i : Fin 8 => (raiseRequest p (.writeBlock blk pl) s).req.tx[i.val + 2]) = payloadBytes p pl s := by
  ext k hk : 1
  have hpin := putTx_getElem (frameTx p (.writeBlock blk pl) s) s.req.tx ⟨k + 2, by omega⟩
  simpa [frameTx, raiseRequest, hk] using hpin

/-- Settles O39: a step that raises such a request is a clock cycle at a write of `with_ctrl(CSH, stop, not stop)`. -/
theorem controlBlocksSentKeepInvariant : Obligations.ControlBlocksSentKeepInvariant := by
  intro s t hinv hstep hs ht hop hlen hblk
  obtain ⟨e, later, -, hp⟩ := step_performed hstep
  obtain ⟨f, u, rfl, hopl, rule, hrule, hx⟩ := performed_raises (hinv.setInputs later) hp hs ht
  rw [addDraws_opl, show (raiseRequest Config.params f u).opl = u.opl from rfl, hopl] at hop
  cases f with
  | identify => exact absurd hlen (by decide : (1 : Fin 11) ≠ 10)
  | readBlock blk => exact absurd hlen (by decide : (2 : Fin 11) ≠ 10)
  | writeBlock blk pl =>
    obtain rfl : blk = 0 := by
      have hpin := putTx_getElem (frameTx Config.params (.writeBlock blk pl) u) u.req.tx 1
      exact hpin.symm.trans hblk
    obtain ⟨stop, rfl⟩ := ctrl_of_write_block0 hrule hop hx
    have hcb := blockOnPins_raiseRequest Config.params 0 (.ctrl stop) u
    simp only [addDraws_req, hcb, payloadBytes]
    obtain ⟨hstop, hlock1, hlock2, -⟩ :=
      controlBlockRebuilt Config.params u.csh (bitValue stop u) (!bitValue stop u)
    rw [getStop] at hstop
    exact ⟨by rw [hlock1, hstop], by rw [hlock2, hstop]⟩

end Sys2Proof.Machine
end

section
/-! Serial ops that wait: DET while no op runs, and the sequencer while a reply is awaited (42_serial.md R181, R190). -/

namespace Sys2Proof.Machine

/-- Settles O28: DET is Pending only at a position of sf.detect's rule, and an idle block is at none. -/
theorem sfDetectPendingStops : Obligations.SfDetectPendingStops := by
  refine ⟨fun a b c s hb hd => ?_, fun s h hb hd => ?_⟩
  · rw [exec, execSfDetect, issue_idle _ _ _ _ _ _ hb, accept_stat_det, hd]
  · obtain ⟨hmem, -⟩ := h.det_pending.mp hd
    cases hq : s.seq with
    | idle => rw [hq] at hmem; cases hmem
    | run rest => exact absurd (hb.symm.trans (h.resumes hq).busy) (by decide)

/-- While a request is pending any number of clock cycles only draws the free levels anew. -/
theorem clocks_of_pend (p : Params) (n : Nat) {s : State} (h : s.pend = true) : clocks p n s = addDraws n s := by
  induction n with
  | zero => rfl
  | succ n ih => rw [clocks_succ_last, ih, clock_of_pend p (addDraws n s) h, addDraws_addDraws]

/-- While a reply is awaited, a step other than the reply and reset leaves PEND and SEQ. -/
theorem performed_holds {p : Params} {e : Input} {s t : State} (h : s.Inv p) (hpend : s.pend = true)
    (hp : Performed p s e t) (hreply : ∀ rx, e ≠ .transportReplies rx) (hrst : ∀ level, e ≠ .rst level) :
    t.pend = true ∧ t.seq = s.seq := by
  cases hp with
  | read | ignored | rejected | bus => exact ⟨hpend, rfl⟩
  | register off v =>
    obtain ⟨done, overrun, buf, time, twDelay, ie, settle, heq, -⟩ := writeReg_eq off v s
    rw [heq]
    exact ⟨hpend, rfl⟩
  | accepted w t hr hb _ => exact absurd ((h.rests hr hb).between.pend.symm.trans hpend) (by decide)
  | clock => rw [clock_of_pend p s hpend]; exact ⟨hpend, rfl⟩
  | takes => unfold takeRequest; split <;> exact ⟨hpend, rfl⟩
  | replies rx => exact absurd rfl (hreply rx)
  | rst level => exact absurd rfl (hrst level)

/-- Settles O40: by cases on the step, BUSY by the invariant; with nothing queued the steps are clock cycles. -/
theorem unansweredFrameHolds : Obligations.UnansweredFrameHolds := by
  refine ⟨fun s t hinv hpend hstep hreply hrst => ?_, fun s n hpend hi => ?_⟩
  · obtain ⟨e, later, he, hp⟩ := step_performed hstep
    have hhead : ∀ e', (∀ later', s.inputs ≠ e' :: later') → e' ≠ .clock → e ≠ e' := by
      rintro e' hno hclock rfl
      exact he.elim (hno later) fun h => hclock h.2
    obtain ⟨ht, hseq⟩ := performed_holds (hinv.setInputs later) hpend hp
      (fun rx => hhead _ (hreply rx) Input.noConfusion) fun level => hhead _ (hrst level) Input.noConfusion
    have hbusy : t.stat.busy = s.stat.busy := by
      rw [(stepKeepsInv s t hinv hstep).busy_running, hinv.busy_running, hseq]
    refine ⟨ht, hseq, hbusy.trans ?_⟩
    cases hq : s.seq with
    | idle => exact absurd (hinv.pend_xfer hpend) (by rw [hq]; decide)
    | run rest => exact (hinv.resumes hq).busy
  · have hrun := runsTo_clocks n s hi
    rwa [clocks_of_pend _ _ hpend] at hrun

end Sys2Proof.Machine
end

section
/-! Runs of a serial op whose frames the transport answers at once: what a frame, and the settle after one, lead to, and the
frames sent on the way (42_serial.md R180 to R185). -/

namespace Sys2Proof.Machine

open Host (Outcome)

/-! ## Runs and the frames sent in them -/

/-- `n` steps lead from one state to another, and send the frames of the list. -/
inductive Performs : Nat → State → List (List Byte) → State → Prop
  | refl (s : State) : Performs 0 s [] s
  | quiet {n : Nat} {s t u : State} {frames : List (List Byte)} (hstep : step s = .next t) (ht : t.req.valid = false)
      (h : Performs n t frames u) : Performs (n + 1) s frames u
  | raises {n : Nat} {s t u : State} {frame : List Byte} {frames : List (List Byte)} (hstep : step s = .next t)
      (hs : s.req.valid = false) (ht : t.req.valid = true) (hframe : t.req.tx.toList.take t.req.txlen = frame)
      (h : Performs n t frames u) : Performs (n + 1) s (frame :: frames) u

theorem Performs.runsTo {n : Nat} {s u : State} {frames : List (List Byte)} (h : Performs n s frames u) : runsTo n s u := by
  induction h with
  | refl s => rfl
  | quiet hstep _ _ ih => exact runsTo_step _ _ _ _ hstep ih
  | raises hstep _ _ _ _ ih => exact runsTo_step _ _ _ _ hstep ih

theorem Performs.framesSent {n : Nat} {s u : State} {frames : List (List Byte)} (h : Performs n s frames u) :
    framesSent n s = frames := by
  induction h with
  | refl s => rfl
  | quiet hstep ht _ ih => simp [Machine.framesSent, hstep, ht, ih]
  | raises hstep hs ht hframe _ ih => simp [Machine.framesSent, hstep, hs, ht, hframe, ih]

/-- Runs one after the other. -/
theorem Performs.append {m n : Nat} {s t u : State} {frames later : List (List Byte)} (h : Performs m s frames t)
    (h' : Performs n t later u) : Performs (m + n) s (frames ++ later) u := by
  induction h with
  | refl s => simpa using h'
  | quiet hstep ht _ ih => exact Nat.succ_add .. ▸ .quiet hstep ht (ih h')
  | raises hstep hs ht hframe _ ih => exact Nat.succ_add .. ▸ .raises hstep hs ht hframe (ih h')

/-! ## One queued step -/

/-- `s` with the steps `l` queued. -/
def setInputs (l : List Input) (s : State) : State := { s with inputs := l }

theorem runAct_setInputs (p : Params) (a : Act) (l : List Input) (s : State) :
    runAct p a (setInputs l s) = setInputs l (runAct p a s) := by
  cases a with
  | sampleSr =>
    simp only [runAct, setSrBit, setInputs]
    split <;> rfl
  | exitIf c ok err =>
    have hc : condHolds p c (setInputs l s) = condHolds p c s := by cases c <;> rfl
    simp only [runAct, hc]
    split <;> rfl
  | completeTimeDecode =>
    have hb : (setInputs l s).buf = s.buf := rfl
    simp only [runAct, timeDecodeAndComplete, hb]
    split <;> rfl
  | _ => rfl

/-- The draining of a statement list does not look at the queue. -/
theorem drain_setInputs (p : Params) (rest : List Stmt) (l : List Input) (s : State) :
    drain p rest (setInputs l s) = setInputs l (drain p rest s) := by
  induction rest generalizing s with
  | nil => rfl
  | cons x rest ih =>
    cases x with
    | phase _ _ | xfer _ => rfl
    | settle =>
      have hsc : (setInputs l s).sc = s.sc := rfl
      rw [drain_at_settle, drain_at_settle, ih, hsc]
      split <;> rfl
    | act a =>
      have hact : runAct p a (setSeq (.run rest) (setInputs l s)) = setInputs l (runAct p a (setSeq (.run rest) s)) :=
        runAct_setInputs p a l (setSeq (.run rest) s)
      cases hq : (runAct p a (setSeq (.run rest) s)).seq with
      | idle => rw [drain_act_idle p a rest s hq, drain_act_idle p a rest (setInputs l s) (hact ▸ hq), hact]
      | run later =>
        rw [drain_act_run p a rest later s hq, drain_act_run p a rest later (setInputs l s) (hact ▸ hq), hact, ih]

theorem step_queued (e : Input) (l : List Input) (s : State) :
    step (setInputs (e :: l) s) = perform Config.params e (setInputs l s) :=
  step_of_inputs _ e l rfl

/-! ## A frame answered at once -/

/-- The block neither is reset nor has a frame under way. -/
structure State.Free (s : State) : Prop where
  rst : s.rst = false
  pend : s.pend = false
  valid : s.req.valid = false

theorem State.Free.drain {s : State} (h : s.Free) (p : Params) (rest : List Stmt) : (drain p rest s).Free :=
  ⟨by simpa using h.rst, by simpa using h.pend, by simpa using h.valid⟩

/-- The eight bytes of a READ_BLOCK reply (30_encoding.md R95). -/
def replyBlock (rx : Vector Byte 9) : Block := #v[rx[0], rx[1], rx[2], rx[3], rx[4], rx[5], rx[6], rx[7]]

theorem stoppedBit_params (status : Byte) : stoppedBit Config.params status = status.getLsbD 0 := by
  have h : ∀ b : Byte, (b &&& 0x01 != 0) = b.getLsbD 0 := by decide
  exact h status

/-- BUF after a frame and its reply (42_serial.md R183). -/
def bufAfter (f : Frame) (rx : Vector Byte 9) (s : State) : Block :=
  match f with
  | .identify => s.buf
  | .readBlock _ => replyBlock rx
  | .writeBlock _ pl => payloadBytes Config.params pl s

/-- `s` with the request of `f` raised. -/
def raised (f : Frame) (s : State) : State := addDraws 1 (raiseRequest Config.params f s)

/-- `s` with the request of `f` raised and taken. -/
def requested (f : Frame) (s : State) : State := { raised f s with req := { (raised f s).req with valid := false } }

/-- `s` with the request of `f` raised, taken, and answered with `rx`. -/
def replied (f : Frame) (rx : Vector Byte 9) (s : State) : State :=
  { requested f s with
    stat := { s.stat with devstat := replyStatus f rx, devstop := (replyStatus f rx).getLsbD 0 }
    buf := bufAfter f rx s
    pend := false
    rspRx := rx }

theorem storeReply_requested (f : Frame) (rx : Vector Byte 9) (l : List Input) (s : State) :
    storeReply Config.params f rx (setInputs l (requested f s)) = setInputs l (replied f rx s) := by
  unfold storeReply replied
  rw [stoppedBit_params]
  cases f <;> rfl

theorem replied_setSeq (f : Frame) (rx : Vector Byte 9) (q : Seq) (s : State) :
    replied f rx (setSeq q s) = setSeq q (replied f rx s) := by
  cases f <;> rfl

theorem State.Free.replied {s : State} (h : s.Free) (f : Frame) (rx : Vector Byte 9) : (replied f rx s).Free :=
  ⟨h.rst, rfl, rfl⟩

/-- The queued cycle in which the sequencer comes to a frame raises its request. -/
theorem step_raises {s : State} {rule rest : List Stmt} {f : Frame} (l : List Input) (h : s.Free) (hs : s.seq = .run rule)
    (hf : (drain Config.params rule s).seq = .run (.xfer f :: rest)) :
    step (setInputs (.clock :: l) s) = .next (setInputs l (raised f (drain Config.params rule s))) := by
  have hclock := clock_of_run Config.params (setInputs l s) rule h.rst h.pend hs
  rw [seqCycle, drain_setInputs] at hclock
  simp only [show (setInputs l (drain Config.params rule s)).seq = _ from hf] at hclock
  rw [step_queued, perform, hclock]
  cases f <;> rfl

/-- The transport takes the request. -/
theorem step_raised (f : Frame) (l : List Input) {s : State} (hr : s.rst = false) :
    step (setInputs (.transportTakes :: l) (raised f s)) = .next (setInputs l (requested f s)) := by
  rw [step_queued, perform, takeRequest, if_neg (by simp [raised, raiseRequest, setInputs, hr])]
  rfl

/-- The awaited reply is taken, and the op goes on (42_serial.md R181). -/
theorem takeReply_awaited (p : Params) {s : State} (rx : Vector Byte 9) {rest : List Stmt} {f : Frame} (hr : s.rst = false)
    (hp : s.pend = true) (hv : s.req.valid = false) (hs : s.seq = .run (.xfer f :: rest)) :
    takeReply p rx s = drain p rest (storeReply p f rx s) := by
  rw [takeReply, if_neg (by simp [hr, hp, hv])]
  split
  next heq => cases hs.symm.trans heq; rfl
  next hno => exact absurd hs (hno _ _)

/-- The transport answers. -/
theorem step_requested {s : State} {f : Frame} {rest : List Stmt} (rx : Vector Byte 9) (l : List Input) (hr : s.rst = false)
    (hf : s.seq = .run (.xfer f :: rest)) :
    step (setInputs (.transportReplies rx :: l) (requested f s)) =
      .next (setInputs l (drain Config.params rest (replied f rx s))) := by
  have htake := takeReply_awaited Config.params (s := setInputs l (requested f s)) rx hr rfl rfl hf
  rw [step_queued, perform, htake, storeReply_requested, drain_setInputs]

/-- A block that comes to a frame in its next cycle, and whose transport answers at once. -/
theorem performs_frame {s v : State} {rule rest : List Stmt} {f : Frame} (rx : Vector Byte 9) (later : List Input)
    (h : s.Free) (hs : s.seq = .run rule) (hv : drain Config.params rule s = setSeq (.run (.xfer f :: rest)) v) :
    Performs 3 (setInputs (answered rx ++ later) s) [frameTx Config.params f v]
      (setInputs later (drain Config.params rest (replied f rx v))) := by
  have hfree : (setSeq (.run (.xfer f :: rest)) v).Free := hv ▸ h.drain Config.params rule
  have hraise := step_raises (.transportTakes :: .transportReplies rx :: later) h hs (by rw [hv]; rfl)
  have hreply := step_requested rx later hfree.rst rfl
  rw [hv] at hraise
  rw [replied_setSeq, drain_setSeq] at hreply
  refine .raises hraise h.valid rfl ?_ (.quiet (step_raised f _ hfree.rst) rfl (.quiet hreply ?_ (.refl _)))
  · exact (take_raiseRequest_tx _ f _).trans (by cases f <;> rfl)
  · exact ((State.Free.replied (s := v) ⟨hfree.rst, hfree.pend, hfree.valid⟩ f rx).drain _ rest).valid

/-- A block that stands at a frame. -/
theorem performs_next_frame {v : State} (f : Frame) (rest : List Stmt) (rx : Vector Byte 9) (later : List Input)
    (h : v.Free) :
    Performs 3 (setInputs (answered rx ++ later) (setSeq (.run (.xfer f :: rest)) v)) [frameTx Config.params f v]
      (setInputs later (drain Config.params rest (replied f rx v))) :=
  performs_frame (s := setSeq (.run (.xfer f :: rest)) v) rx later ⟨h.rst, h.pend, h.valid⟩ rfl rfl

/-! ## The settle after a frame -/

/-- `s` after its settle. -/
def settled (s : State) : State := { s with sc := 0, draws := s.draws + s.sc.toNat }

/-- One cycle of the settle, where the statements after it sample no level. -/
theorem step_settles {rest : List Stmt} {s : State} (l : List Input)
    (hrest : ∀ u, drain Config.params rest (addDraws 1 u) = addDraws 1 (drain Config.params rest u)) (h : s.Free)
    (hsc : s.sc ≠ 0) :
    step (setInputs (.clock :: l) (drain Config.params (.settle :: rest) s)) =
      .next (setInputs l (drain Config.params (.settle :: rest) (addDraws 1 (setSc (s.sc - 1) s)))) := by
  have hdraws : ∀ u, drain Config.params (.settle :: rest) (addDraws 1 u) =
      addDraws 1 (drain Config.params (.settle :: rest) u) := by
    intro u
    rw [drain_at_settle, drain_at_settle, addDraws_sc, hrest]
    split <;> rfl
  have hclock := clock_at_settle Config.params (setInputs l (setSeq (.run (.settle :: rest)) s)) rest h.rst h.pend rfl hsc
  have hdrain : drain Config.params (.settle :: rest)
      (setSc (s.sc - 1) (setInputs l (setSeq (.run (.settle :: rest)) s))) =
      setInputs l (drain Config.params (.settle :: rest) (setSc (s.sc - 1) s)) :=
    (drain_setSeq _ _ _ (setInputs l (setSc (s.sc - 1) s))).trans (drain_setInputs _ _ _ _)
  rw [step_queued, perform, hdraws, drain_at_settle, if_neg hsc]
  exact congrArg Outcome.next (hclock.trans (congrArg (addDraws 1) hdrain))

/-- The cycles SC counts lead to the statements after the settle (42_serial.md R185). -/
theorem performs_settle {rest : List Stmt} (later : List Input)
    (hrest : ∀ u, drain Config.params rest (addDraws 1 u) = addDraws 1 (drain Config.params rest u)) (n : Nat) {s : State}
    (h : s.Free) (hn : s.sc.toNat = n) :
    Performs n (setInputs (cycles n ++ later) (drain Config.params (.settle :: rest) s)) []
      (setInputs later (drain Config.params rest (settled s))) := by
  induction n generalizing s with
  | zero =>
    have hsc : s.sc = 0 := BitVec.eq_of_toNat_eq hn
    have hs : settled s = s := by
      rw [settled, hn]
      exact congrArg (fun w => { s with sc := w }) hsc.symm
    rw [drain_at_settle, if_pos hsc, hs]
    exact .refl _
  | succ n ih =>
    have hsc : s.sc ≠ 0 := fun h0 => by simp [h0] at hn
    have hs : settled s = settled (addDraws 1 (setSc (s.sc - 1) s)) := by
      have hd : s.draws + s.sc.toNat = s.draws + 1 + (s.sc - 1).toNat := by bv_omega
      rw [settled, hd]
      rfl
    have hfree : (addDraws 1 (setSc (s.sc - 1) s)).Free := ⟨h.rst, h.pend, h.valid⟩
    rw [hs]
    exact .quiet (step_settles _ hrest h hsc) (hfree.drain _ _).valid
      (ih hfree (by rw [addDraws_sc, setSc_sc]; bv_omega))

/-- `s` after the frame `f` and a settle of SLAT cycles (42_serial.md R185, R188). -/
def repliedSettled (f : Frame) (rx : Vector Byte 9) (s : State) : State := settled (setSc s.slat (replied f rx s))

theorem drain_settleList (p : Params) (rest : List Stmt) (s : State) :
    drain p (settleList ++ rest) s = drain p (.settle :: rest) (setSc s.slat s) :=
  drain_setSeq p (.run (.settle :: rest)) (.settle :: rest) (setSc s.slat s)

/-- A block that stands at a frame with a settle after it. -/
theorem performs_frame_settle {v : State} (f : Frame) (rest : List Stmt) (rx : Vector Byte 9) (later : List Input)
    (hrest : ∀ u, drain Config.params rest (addDraws 1 u) = addDraws 1 (drain Config.params rest u)) (h : v.Free) :
    Performs (3 + v.slat.toNat)
      (setInputs (answered rx ++ (cycles v.slat.toNat ++ later)) (setSeq (.run (.xfer f :: (settleList ++ rest))) v))
      [frameTx Config.params f v] (setInputs later (drain Config.params rest (repliedSettled f rx v))) := by
  have hframe := performs_next_frame f (settleList ++ rest) rx (cycles v.slat.toNat ++ later) h
  rw [drain_settleList] at hframe
  exact hframe.append
    (performs_settle later hrest v.slat.toNat (s := setSc v.slat (replied f rx v)) ⟨h.rst, rfl, rfl⟩ rfl)

end Sys2Proof.Machine
end

section
/-! The serial ops that test nothing, from acceptance to completion (42_serial.md R190 to R193, R195). -/

namespace Sys2Proof.Machine

/-- The block that a serial op leaves is idle and awaits no reply, as it was before; SC is 0 again after a settle. -/
theorem State.Ready.latched_eq {s : State} (h : s.Ready) {sc : Word} (hsc : s.sc = sc) (op a b c : Byte) :
    latched op a b c s = { latched op a b c s with seq := .idle, pend := false, sc := sc } := by
  rw [← h.idle, ← h.pend, ← hsc]
  rfl

/-- The block in which an op with the rule `rule` has just been accepted. -/
abbrev startedAt (rule : List Stmt) (op a b c : Byte) (s : State) : State := startSeq rule (accept op a b c s)

theorem State.Ready.free {s : State} (h : s.Ready) (rule : List Stmt) (op a b c : Byte) : (startedAt rule op a b c s).Free :=
  ⟨h.notReset, h.pend, h.valid⟩

theorem startedAt_eq {s : State} {l : List Input} (hi : s.inputs = l) (rule : List Stmt) (op a b c : Byte) :
    startedAt rule op a b c s = setInputs l (startedAt rule op a b c s) := by
  subst hi
  rfl

/-- An op without a check starts at its rule. -/
theorem State.Ready.starts {s : State} (h : s.Ready) {l : List Input} (hi : s.inputs = l) (rule : List Stmt)
    (op a b c : Byte) :
    issue op a b c s (fun s => .next (startSeq rule s)) = .next (setInputs l (startedAt rule op a b c s)) := by
  rw [issue_startSeq a b c h.notBusy, ← startedAt_eq hi]

/-! ## One frame -/

/-- Settles O29: one frame, after which RES takes the identifier of the reply. -/
theorem sfIdentRuns : Obligations.SfIdentRuns := by
  intro a b c s rx later h hi
  have hrun := performs_next_frame .identify [.act .resFromId, completeOk] rx later (h.free identRule 0x21 a b c)
  refine ⟨_, _, h.starts hi identRule 0x21 a b c, rfl, hrun.framesSent, hrun.runsTo, rfl, ?_⟩
  rw [h.latched_eq rfl]
  rfl

/-- Settles O30: one frame, whose reply is BUF. -/
theorem sfRdblkRuns : Obligations.SfRdblkRuns := by
  intro a b c s rx later h hi ha
  have hexec : exec (.sfRdblk a b c) s = .next (startedAt (sfRdblkRule a) 0x22 a b c s) := by
    rw [exec_sfRdblk_idle a b c h.notBusy, if_pos ((blockOk_iff a).mpr ha)]
  rw [startedAt_eq hi] at hexec
  have hrun := performs_next_frame (.readBlock a) [completeOk] rx later (h.free (sfRdblkRule a) 0x22 a b c)
  refine ⟨_, _, hexec, rfl, hrun.framesSent, hrun.runsTo, rfl, ?_⟩
  rw [h.latched_eq rfl]
  rfl

theorem timeDecodeAndComplete_eq (s : State) :
    timeDecodeAndComplete s = complete (decodeValid s.buf) (if decodeValid s.buf then .none else .range)
      { s with time := decodeFieldsOf s.buf, stat := { s.stat with unknown := decodeUnknown s.buf } } := by
  rw [timeDecodeAndComplete]
  cases decodeValid s.buf <;> rfl

/-- sf.rdtime's decode, and its completion. -/
theorem drain_completeTimeDecode (p : Params) (s : State) :
    drain p [.act .completeTimeDecode] s = complete (decodeValid s.buf) (if decodeValid s.buf then .none else .range)
      { s with time := decodeFieldsOf s.buf, stat := { s.stat with unknown := decodeUnknown s.buf } } := by
  have hact := timeDecodeAndComplete_eq (setSeq (.run []) s)
  exact (drain_act_idle p .completeTimeDecode [] s (congrArg State.seq hact)).trans hact

/-- Settles O35: one frame, whose reply is decoded in the step that takes it. -/
theorem sfRdtimeRuns : Obligations.SfRdtimeRuns := by
  intro a b c s rx later h hi tb
  have hrun := performs_next_frame (.readBlock 2) [.act .completeTimeDecode] rx later (h.free rdtimeRule 0x25 a b c)
  rw [drain_completeTimeDecode] at hrun
  refine ⟨_, _, h.starts hi rdtimeRule 0x25 a b c, rfl, hrun.framesSent, hrun.runsTo, rfl, ?_⟩
  rw [h.latched_eq rfl]
  rfl

/-- sf.detect's comparison, and its completion. -/
theorem drain_compareId (p : Params) (s : State) :
    drain p [.act .compareId, .act .completeDet] s = complete (decide (replyId s = p.idRtc)) .none
      { s with stat := { s.stat with det := if replyId s = p.idRtc then .detected else .notDetected } } := by
  have hok : ((if replyId s = p.idRtc then Det.detected else .notDetected) == .detected) = decide (replyId s = p.idRtc) := by
    split <;> simp_all
  rw [← hok]
  rfl

/-- sf.detect starts at the case of DET. -/
theorem State.Ready.detect_starts {s : State} (h : s.Ready) (a b c : Byte) {rule : List Stmt}
    (hd : s.stat.det = .init ∧ rule = detectRule ∨ s.stat.det = .detected ∧ rule = detectMemoRule true ∨
      s.stat.det = .notDetected ∧ rule = detectMemoRule false) :
    exec (.sfDetect a b c) s = .next (startedAt rule 0x20 a b c s) := by
  rw [exec, execSfDetect, issue_idle _ _ _ _ _ _ h.notBusy, accept_stat_det]
  rcases hd with ⟨hd, rfl⟩ | ⟨hd, rfl⟩ | ⟨hd, rfl⟩ <;> rw [hd]

/-- Settles O26: the first cycle sets Pending and raises the frame, and the comparison of its reply decides DET and OK. -/
theorem sfDetectIdentifies : Obligations.SfDetectIdentifies := by
  intro a b c s rx later h hi hd
  have hexec := h.detect_starts a b c (.inl ⟨hd, rfl⟩)
  rw [startedAt_eq hi] at hexec
  have hrun := performs_frame (f := .identify) (v := runAct Config.params .setPending (startedAt detectRule 0x20 a b c s))
    rx later (h.free detectRule 0x20 a b c) rfl rfl
  refine ⟨_, _, hexec, rfl, hrun.framesSent, hrun.runsTo, rfl, ?_⟩
  rw [h.latched_eq rfl]
  exact congrArg (setInputs later) (drain_compareId _ _)

/-! ## A frame and a settle -/

/-- Settles O31: one frame, for block 0 with a settle after it. -/
theorem sfWrblkRuns : Obligations.SfWrblkRuns := by
  intro a b c s rx later h ha wait hi
  have hexec : exec (.sfWrblk a b c) s = .next (startedAt (sfWrblkRule a) 0x23 a b c s) := by
    rw [exec_sfWrblk_idle a b c h.notBusy, if_pos ((blockOk_iff a).mpr ha)]
  rw [List.append_assoc] at hi
  rw [startedAt_eq hi] at hexec
  by_cases h0 : a = 0
  · subst h0
    have hrun := performs_frame_settle (.writeBlock 0 .buf) [completeOk] rx later (fun _ => rfl)
      (h.free (sfWrblkRule 0) 0x23 0 b c)
    refine ⟨_, _, hexec, rfl, hrun.framesSent, hrun.runsTo, rfl, ?_⟩
    rw [h.latched_eq h.sc]
    rfl
  · have hrule : sfWrblkRule a = [.xfer (.writeBlock a .buf), completeOk] := by rw [sfWrblkRule, wrbList, if_neg h0]; rfl
    have hwait : wait = 0 := if_neg h0
    rw [hrule, hwait] at hexec
    rw [hwait]
    have hrun := performs_next_frame (.writeBlock a .buf) [completeOk] rx later
      (h.free [.xfer (.writeBlock a .buf), completeOk] 0x23 a b c)
    refine ⟨_, _, hexec, rfl, hrun.framesSent, hrun.runsTo, rfl, ?_⟩
    rw [h.latched_eq rfl]
    rfl

end Sys2Proof.Machine
end

section
/-! sf.detect with a memoized answer, and the ops that test something on their way, sf.setstop and sf.settime (42_serial.md R190,
R194, R196). -/

namespace Sys2Proof.Machine

/-! ## Tests -/

theorem condHolds_setSeq (p : Params) (c : Cond) (q : Seq) (s : State) : condHolds p c (setSeq q s) = condHolds p c s := by
  cases c <;> rfl

/-- `if c: complete(ok, err)` where c holds: the op is over (00_scope.md R10). -/
theorem drain_exitIf_taken (p : Params) {c : Cond} {s : State} (h : condHolds p c s = true) (ok : Bool) (err : ErrCode)
    (rest : List Stmt) : drain p (exitIf c ok err :: rest) s = complete ok err s := by
  have hact : runAct p (.exitIf c ok err) (setSeq (.run rest) s) = complete ok err s :=
    if_pos ((condHolds_setSeq p c (.run rest) s).trans h)
  exact (drain_act_idle p (.exitIf c ok err) rest s (congrArg State.seq hact)).trans hact

/-- The same where c does not hold: the op goes on. -/
theorem drain_exitIf_passed (p : Params) {c : Cond} {s : State} (h : condHolds p c s = false) (ok : Bool) (err : ErrCode)
    (rest : List Stmt) : drain p (exitIf c ok err :: rest) s = drain p rest s := by
  have hact : runAct p (.exitIf c ok err) (setSeq (.run rest) s) = setSeq (.run rest) s :=
    if_neg (by simp [condHolds_setSeq, h])
  have hgo := drain_act_run p (.exitIf c ok err) rest rest s (congrArg State.seq hact)
  rw [hact, drain_setSeq] at hgo
  exact hgo

/-- `CSH <- BUF` (42_serial.md R194, R196). -/
def cshSaved (s : State) : State := { s with csh := s.buf }

theorem drain_saveCsh (p : Params) (rest : List Stmt) (s : State) :
    drain p (.act .saveCsh :: rest) s = drain p rest (cshSaved s) :=
  drain_setSeq p (.run rest) rest (cshSaved s)

/-! ## Ops that end in their first cycle -/

/-- With nothing queued, an op whose first cycle completes it. -/
theorem State.Ready.ends_at_once {s : State} (h : s.Ready) (hi : s.inputs = []) {rule : List Stmt} {op a b c : Byte} {ok : Bool}
    {err : ErrCode} (hd : drain Config.params rule (startedAt rule op a b c s) = complete ok err (startedAt rule op a b c s)) :
    runsTo 1 (startedAt rule op a b c s)
      { latched op a b c s with stat := completedStat s ok err, draws := s.draws + 1 } := by
  have hfree := h.free rule op a b c
  have hrun := runsTo_clocks 1 (startedAt rule op a b c s) hi
  rw [clocks_succ, clocks_zero, clock_of_run _ _ rule hfree.rst hfree.pend rfl, seqCycle, hd] at hrun
  rw [← setSeq_eq_self .idle (latched op a b c s) h.idle]
  exact hrun

/-- Settles O27: the rule of each memoized answer completes in the first cycle. -/
theorem sfDetectRemembers : Obligations.SfDetectRemembers := by
  intro a b c s h hi hd
  rcases hd with hd | hd <;> rw [hd]
  · exact ⟨_, h.detect_starts a b c (.inr (.inl ⟨hd, rfl⟩)), rfl, h.ends_at_once hi rfl⟩
  · exact ⟨_, h.detect_starts a b c (.inr (.inr ⟨hd, rfl⟩)), rfl, h.ends_at_once hi rfl⟩

theorem condHolds_timeInvalid (p : Params) (s : State) : condHolds p .timeInvalid s = !s.time.legal := by
  rw [condHolds, timeValid_eq_legal]

/-- Settles O36: the first cycle takes the first exit, or passes it and takes the second. -/
theorem sfSettimeTurnedAway : Obligations.SfSettimeTurnedAway := by
  intro a b c s h hi
  have hexec := issue_startSeq a b c h.notBusy 0x26 settimeRule
  refine ⟨fun hl => ⟨_, hexec, rfl, h.ends_at_once hi ?_⟩, fun hl hw => ⟨_, hexec, rfl, h.ends_at_once hi ?_⟩⟩
  · exact drain_exitIf_taken _ (by simp [condHolds_timeInvalid, hl]) _ _ _
  · exact (drain_exitIf_passed _ (by simp [condHolds_timeInvalid, hl]) _ _ _).trans
      (drain_exitIf_taken _ (by simp [condHolds, hw]) _ _ _)

/-! ## sf.setstop -/

/-- sf.setstop's statements after its read, where the block read has the wanted stop bit. -/
theorem drain_setstop_noOp (p : Params) {s : State} (h : getStop p s.buf = s.al.getLsbD 0) :
    drain p setstopRule.tail s = complete true .none (cshSaved s) :=
  (drain_saveCsh p _ s).trans (drain_exitIf_taken p (c := .stopAlready) (s := cshSaved s) (beq_iff_eq.mpr h) _ _ _)

/-- The same where it has not. -/
theorem drain_setstop_writes (p : Params) {s : State} (h : getStop p s.buf ≠ s.al.getLsbD 0) :
    drain p setstopRule.tail s =
      setSeq (.run (.xfer (.writeBlock 0 (.ctrl .al0)) :: (settleList ++ [completeOk]))) (cshSaved s) :=
  (drain_saveCsh p _ s).trans
    (drain_exitIf_passed p (c := .stopAlready) (s := cshSaved s) (beq_eq_false_iff_ne.mpr h) _ _ _)

/-- Settles O33: one frame, whose reply meets the exit after it. -/
theorem sfSetstopNoOp : Obligations.SfSetstopNoOp := by
  intro a b c s rx later h hi cb hstop
  have hrun := performs_next_frame (.readBlock 0) setstopRule.tail rx later (h.free setstopRule 0x24 a b c)
  have hend := drain_setstop_noOp _ (s := replied (.readBlock 0) rx (startedAt setstopRule 0x24 a b c s)) hstop
  rw [hend] at hrun
  refine ⟨_, _, h.starts hi setstopRule 0x24 a b c, rfl, hrun.framesSent, hrun.runsTo, rfl, ?_⟩
  rw [h.latched_eq rfl]
  rfl

/-- Settles O34: a frame whose reply does not meet the exit, and the write with its settle. -/
theorem sfSetstopWrites : Obligations.SfSetstopWrites := by
  intro a b c s r1 r2 later h hi cb written hstop
  simp only [List.append_assoc] at hi
  have hread := performs_next_frame (.readBlock 0) setstopRule.tail r1
    (answered r2 ++ (cycles s.settle.toNat ++ later)) (h.free setstopRule 0x24 a b c)
  have htest := drain_setstop_writes _ (s := replied (.readBlock 0) r1 (startedAt setstopRule 0x24 a b c s)) hstop
  rw [htest] at hread
  have hwrite := performs_frame_settle (.writeBlock 0 (.ctrl .al0)) [completeOk] r2 later (fun _ => rfl)
    (v := cshSaved (replied (.readBlock 0) r1 (startedAt setstopRule 0x24 a b c s))) ⟨h.notReset, rfl, rfl⟩
  have hrun := hread.append hwrite
  have hn : 3 + (3 + s.settle.toNat) = 6 + s.settle.toNat := by omega
  refine ⟨_, _, h.starts hi setstopRule 0x24 a b c, rfl, hn ▸ hrun.framesSent, hn ▸ hrun.runsTo, rfl, ?_⟩
  rw [h.latched_eq h.sc]
  rfl

/-! ## sf.settime -/

/-- sf.settime from its write of the time on: the time block, and the restored control block (42_serial.md R196). -/
def settimeWrite : List Stmt :=
  .xfer (.writeBlock 2 .time) :: (settleList ++ .xfer (.writeBlock 0 (.ctrl (.lit false))) :: (settleList ++ [completeOk]))

/-- sf.settime from the stopping of the device on. -/
def settimeStop : List Stmt :=
  .xfer (.writeBlock 0 (.ctrl (.lit true))) ::
    (settleList ++ .xfer .identify :: exitIf .notStopped false .notStopped :: settimeWrite)

theorem settimeRule_eq : settimeRule =
    exitIf .timeInvalid false .range :: exitIf .writeExcluded false .writeExcluded ::
      .xfer (.readBlock 0) :: .act .saveCsh :: settimeStop := rfl

/-- sf.settime with a legal time and writing allowed comes to its read. -/
theorem drain_settimeRule (p : Params) {s : State} (hl : s.time.legal = true) (hw : s.wrExcl = false) :
    drain p settimeRule s = setSeq (.run (.xfer (.readBlock 0) :: .act .saveCsh :: settimeStop)) s := by
  rw [settimeRule_eq, drain_exitIf_passed p (by simp [condHolds_timeInvalid, hl]),
    drain_exitIf_passed p (c := .writeExcluded) hw, drain_at_xfer]

/-- The block in which sf.settime has read the control block. -/
def settimeRead (a b c : Byte) (r1 : Vector Byte 9) (s : State) : State :=
  cshSaved (replied (.readBlock 0) r1 (startedAt settimeRule 0x26 a b c s))

/-- The block in which sf.settime has then stopped the device and identified it. -/
def settimeIdentified (a b c : Byte) (r1 r2 r3 : Vector Byte 9) (s : State) : State :=
  replied .identify r3 (repliedSettled (.writeBlock 0 (.ctrl (.lit true))) r2 (settimeRead a b c r1 s))

/-- sf.settime's first three frames, and the settle among them. -/
theorem performs_settime_identify (a b c : Byte) (r1 r2 r3 : Vector Byte 9) (later : List Input) {s : State} (h : s.Ready)
    (hl : s.time.legal = true) (hw : s.wrExcl = false) :
    Performs (9 + s.settle.toNat)
      (setInputs (answered r1 ++ (answered r2 ++ (cycles s.settle.toNat ++ (answered r3 ++ later))))
        (startedAt settimeRule 0x26 a b c s))
      [[Config.params.cmdReadBlock, 0],
       Config.params.cmdWriteBlock :: 0 :: (withCtrl Config.params (replyBlock r1) true false).toList,
       [Config.params.cmdIdentify]]
      (setInputs later (drain Config.params (exitIf .notStopped false .notStopped :: settimeWrite)
        (settimeIdentified a b c r1 r2 r3 s))) := by
  have hread := performs_frame r1 (answered r2 ++ (cycles s.settle.toNat ++ (answered r3 ++ later)))
    (h.free settimeRule 0x26 a b c) rfl (drain_settimeRule _ hl hw)
  rw [drain_saveCsh] at hread
  have hstop := performs_frame_settle (.writeBlock 0 (.ctrl (.lit true)))
    (.xfer .identify :: exitIf .notStopped false .notStopped :: settimeWrite) r2 (answered r3 ++ later) (fun _ => rfl)
    (v := settimeRead a b c r1 s) ⟨h.notReset, rfl, rfl⟩
  have hidentify := performs_next_frame .identify (exitIf .notStopped false .notStopped :: settimeWrite) r3 later
    (v := repliedSettled (.writeBlock 0 (.ctrl (.lit true))) r2 (settimeRead a b c r1 s)) ⟨h.notReset, rfl, rfl⟩
  have hrun := (hread.append hstop).append hidentify
  have hn : 3 + (3 + s.settle.toNat) + 3 = 9 + s.settle.toNat := by omega
  exact hn ▸ hrun

/-- Settles O38: the first three frames, and the exit after the third. -/
theorem sfSettimeNotStopped : Obligations.SfSettimeNotStopped := by
  intro a b c s r1 r2 r3 later h hl hw hi hstopped cb n
  simp only [List.append_assoc] at hi
  have hrun := performs_settime_identify a b c r1 r2 r3 later h hl hw
  have hcond : condHolds Config.params .notStopped (settimeIdentified a b c r1 r2 r3 s) = true :=
    congrArg not hstopped
  rw [drain_exitIf_taken _ hcond] at hrun
  refine ⟨_, _, h.starts hi settimeRule 0x26 a b c, rfl, hrun.framesSent, hrun.runsTo, rfl, ?_⟩
  have hdraws : s.draws + 1 + 1 + s.settle.toNat + 1 = s.draws + 3 + s.settle.toNat := by omega
  rw [h.latched_eq h.sc, ← hdraws]
  rfl

/-- Settles O37: the first three frames, the exit passed, and two writes with a settle each. -/
theorem sfSettimeSucceeds : Obligations.SfSettimeSucceeds := by
  intro a b c s r1 r2 r3 r4 r5 later h hl hw hi hstopped cb n
  simp only [List.append_assoc] at hi
  have hidentify := performs_settime_identify a b c r1 r2 r3
    (answered r4 ++ (cycles s.settle.toNat ++ (answered r5 ++ (cycles s.settle.toNat ++ later)))) h hl hw
  have hcond : condHolds Config.params .notStopped (settimeIdentified a b c r1 r2 r3 s) = false :=
    congrArg not hstopped
  rw [drain_exitIf_passed _ hcond] at hidentify
  have htime := performs_frame_settle (.writeBlock 2 .time)
    (.xfer (.writeBlock 0 (.ctrl (.lit false))) :: (settleList ++ [completeOk])) r4
    (answered r5 ++ (cycles s.settle.toNat ++ later)) (fun _ => rfl) (v := settimeIdentified a b c r1 r2 r3 s)
    ⟨h.notReset, rfl, rfl⟩
  have hrestore := performs_frame_settle (.writeBlock 0 (.ctrl (.lit false))) [completeOk] r5 later (fun _ => rfl)
    (v := repliedSettled (.writeBlock 2 .time) r4 (settimeIdentified a b c r1 r2 r3 s)) ⟨h.notReset, rfl, rfl⟩
  have hrun := (hidentify.append htime).append hrestore
  have hn : 9 + s.settle.toNat + (3 + s.settle.toNat) + (3 + s.settle.toNat) = n := by omega
  refine ⟨_, _, h.starts hi settimeRule 0x26 a b c, rfl, hn ▸ hrun.framesSent, hn ▸ hrun.runsTo, rfl, ?_⟩
  have hdraws : s.draws + 1 + 1 + s.settle.toNat + 1 + 1 + s.settle.toNat + 1 + s.settle.toNat =
      s.draws + 5 + 3 * s.settle.toNat := by omega
  rw [h.latched_eq h.sc, ← hdraws]
  rfl

end Sys2Proof.Machine
end

section
/-! The block has no traps: a command word written while BUSY only sets OVERRUN, and from a state of the invariant a step goes on
or is a malformed host access (60_exceptions.md R224, R225, 20_memory.md R65). -/

namespace Sys2Proof.Machine

/-! ## A rejected command word -/

/-- Settles O7: while BUSY the word is rejected before it is looked at. -/
theorem busyRejectsCommand : Obligations.BusyRejectsCommand := by
  intro s hb
  exact ⟨fun i => exec_busy i s hb, fun w later hi hr => (step_command hi hr).trans (command_busy w _ hb)⟩

/-! ## Steps that go on -/

/-- A command word goes on where its body does. -/
theorem issue_next (op a b c : Byte) (s : State) {body : State → Result} (h : ∀ u, ∃ t, body u = .next t) :
    ∃ t, issue op a b c s body = .next t := by
  rcases issue_cases op a b c s body with ⟨-, heq⟩ | ⟨-, heq⟩
  · exact ⟨_, heq⟩
  · exact heq ▸ h _

/-- An instruction goes on, but for sf.detect taken with DET = Pending. -/
theorem exec_next (i : Instr) {s : State} (h : s.stat.busy = false → s.stat.det ≠ .pending) : ∃ t, exec i s = .next t := by
  cases i with
  | sfDetect a b c =>
    cases hb : s.stat.busy with
    | true => exact ⟨_, exec_busy _ s hb⟩
    | false =>
      rw [exec, execSfDetect, issue_idle _ _ _ _ _ _ hb, accept_stat_det]
      cases hd : s.stat.det with
      | pending => exact absurd hd (h hb)
      | init | detected | notDetected => exact ⟨_, rfl⟩
  | _ =>
    simp only [exec]
    exact issue_next _ _ _ _ _ fun u => ⟨_, rfl⟩

theorem command_next (w : Word) {s : State} (h : s.stat.busy = false → s.stat.det ≠ .pending) :
    ∃ t, command w s = .next t := by
  unfold command
  split
  · exact exec_next _ h
  · exact issue_next _ _ _ _ _ fun u => ⟨_, rfl⟩

/-- A well-formed write goes on: under the invariant an idle block has no DET = Pending (42_serial.md R190). -/
theorem hostWrite_next {p : Params} (off : BitVec 6) (v : Word) {s : State} (h : s.Inv p) :
    ∃ t, hostWrite off v s = .next t := by
  cases hr : s.rst with
  | true => exact ⟨s, by rw [hostWrite, if_pos hr]⟩
  | false =>
    rw [hostWrite, if_neg (by simp [hr])]
    split
    · exact command_next v fun hb => (h.rests hr hb).det
    · exact ⟨_, rfl⟩

/-- A queued step goes on, or is a host access that fails the access check. -/
theorem perform_next_or_refused {p : Params} (e : Input) {s : State} (h : s.Inv p) :
    (∃ t, perform p e s = .next t) ∨
    (perform p e s = .refused .hostAccess ∧ ∃ off width, ¬ accessOk off width = true ∧
      ((∃ v, e = .hostWrite off width v) ∨ e = .hostRead off width)) := by
  cases e with
  | hostWrite off width v =>
    rw [perform]
    split
    next => exact .inl (hostWrite_next off v h)
    next hbad => exact .inr ⟨rfl, off, width, hbad, .inl ⟨v, rfl⟩⟩
  | hostRead off width =>
    rw [perform]
    split
    next => exact .inl ⟨_, rfl⟩
    next hbad => exact .inr ⟨rfl, off, width, hbad, .inr rfl⟩
  | _ => exact .inl ⟨_, rfl⟩

/-- Settles O53: a clock cycle goes on, and of the queued steps only an access that fails the access check does not. -/
theorem stepNeverStops : Obligations.StepNeverStops := by
  intro s hinv
  cases hi : s.inputs with
  | nil => exact .inl ⟨_, step_of_no_inputs s hi⟩
  | cons e later =>
    rw [step_of_inputs s e later hi]
    refine (perform_next_or_refused e (hinv.setInputs later)).imp_right ?_
    rintro ⟨hrefused, off, width, hbad, he⟩
    rw [accessOk_iff, not_and_or] at hbad
    exact ⟨hrefused, off, width, later, hbad, he.imp (fun ⟨v, hv⟩ => ⟨v, by rw [hv]⟩) fun hv => by rw [hv]⟩

end Sys2Proof.Machine
end

section
/-! The interrupt output: what one step does to DONE and IE (60_exceptions.md R226). -/

namespace Sys2Proof.Machine

/-! ## DONE in a running op's step -/

/-- Of the updates an op makes only a completion writes DONE and BUSY. -/
theorem OpMove.done_busy {p : Params} {op : Byte} {s t : State} (h : OpMove p op s t) :
    t.stat.done = s.stat.done ∧ t.stat.busy = s.stat.busy ∨ t.stat.done = true ∧ t.stat.busy = false := by
  cases h with
  | act a =>
    cases a with
    | exitIf c ok err =>
      simp only [runAct]
      split
      · exact .inr ⟨rfl, rfl⟩
      · exact .inl ⟨rfl, rfl⟩
    | completeTimeDecode =>
      simp only [runAct, timeDecodeAndComplete]
      split <;> exact .inr ⟨rfl, rfl⟩
    | complete ok err => exact .inr ⟨rfl, rfl⟩
    | completeDet => exact .inr ⟨rfl, rfl⟩
    | _ => exact .inl (by simp [runAct])
  | _ => exact .inl (by simp)

theorem OpMove.ie {p : Params} {op : Byte} {s t : State} (h : OpMove p op s t) : t.ie = s.ie := by
  cases h <;> simp

theorem Runs.ie {p : Params} {s t : State} (h : s.Inv p) (hrun : Runs p s t) : t.ie = s.ie :=
  (hrun.moves h).keeps State.ie fun _ _ => OpMove.ie

theorem OpMoves.done {p : Params} {op : Byte} {s t : State} (h : OpMoves p op s t) :
    t.stat.done = s.stat.done ∨ t.stat.done = true ∧ t.stat.busy = false := by
  induction h with
  | refl => exact .inl rfl
  | tail _ hmove ih =>
    rcases hmove.done_busy with ⟨hdone, hbusy⟩ | hcomplete
    · rwa [hdone, hbusy]
    · exact .inr hcomplete

/-- A reply that no op waits for is ignored. -/
theorem takeReply_of_idle (p : Params) (rx : Vector Byte 9) {s : State} (hs : s.seq = .idle) : takeReply p rx s = s := by
  simp only [takeReply, hs, ite_self]

/-- Where no op runs a clock cycle and a reply leave STAT. -/
theorem Runs.stat_of_idle {p : Params} {s t : State} (hrun : Runs p s t) (hs : s.seq = .idle) : t.stat = s.stat := by
  cases hrun with
  | clock => rw [clock_of_idle p s hs, addDraws_stat]
  | reply rx => rw [takeReply_of_idle p rx hs]

/-- A clock cycle and a reply write DONE only by completing the op that runs. -/
theorem Runs.done {p : Params} {s t : State} (h : s.Inv p) (hrun : Runs p s t) :
    t.stat.done = s.stat.done ∨ s.stat.busy = true ∧ t.stat.done = true ∧ t.stat.busy = false := by
  cases hq : s.seq with
  | idle => exact .inl (congrArg Stat.done (hrun.stat_of_idle hq))
  | run rest => exact (hrun.moves h).done.imp_right fun hdone => ⟨(h.resumes hq).busy, hdone⟩

/-! ## IRQ in one step -/

/-- What one queued step does to IRQ. -/
inductive IrqStep (s : State) : Input → State → Prop
  | kept {e : Input} {t : State} (hirq : irq t = irq s) : IrqStep s e t
  | reset {e : Input} {t : State} (hr : t.rst = true) (hirq : irq t = false) : IrqStep s e t
  | statWrite (v : Word) {t : State} (hirq : irq t = (irq s && !v.getLsbD 1)) : IrqStep s (.hostWrite 0x04 4 v) t
  | cfgWrite (v : Word) {t : State} (hirq : irq t = (s.stat.done && v.getLsbD 16)) : IrqStep s (.hostWrite 0x20 4 v) t
  | command (w : Word) {t : State} (hb : s.stat.busy = false) (hdone : t.stat.done = true → t.stat.busy = false) :
      IrqStep s (.hostWrite 0x00 4 w) t
  | completion {e : Input} {t : State} (hb : s.stat.busy = true) (hdone : t.stat.done = true) (ht : t.stat.busy = false)
      (hie : t.ie = s.ie) : IrqStep s e t

/-- A write to a register reaches IRQ at STAT and at CFG. -/
theorem irqStep_writeReg (off : BitVec 6) (v : Word) (s : State) : IrqStep s (.hostWrite off 4 v) (writeReg off v s) := by
  unfold writeReg
  split
  case h_1 => exact .statWrite v (Bool.and_right_comm ..)
  case h_6 => exact .cfgWrite v rfl
  case h_7 | h_8 => exact .kept rfl
  all_goals split <;> exact .kept rfl

/-- An op that has completed in the step of its acceptance is not BUSY. -/
theorem Accepted.not_busy_of_done {s t : State} (h : Accepted s t) (hdone : t.stat.done = true) : t.stat.busy = false := by
  cases h with
  | completed => rfl
  | started => cases hdone

theorem irq_of_reset {p : Params} {s : State} (h : s = resetBlock p s) : irq s = false := by
  rw [h]
  rfl

theorem Runs.irqStep {p : Params} {s t : State} (h : s.Inv p) (hrun : Runs p s t) (e : Input) : IrqStep s e t := by
  rcases hrun.done h with hdone | ⟨hb, hdone, ht⟩
  · exact .kept (by rw [irq, irq, hdone, hrun.ie h])
  · exact .completion hb hdone ht (hrun.ie h)

theorem performed_irqStep {p : Params} {e : Input} {s t : State} (h : s.Inv p) (hp : Performed p s e t) : IrqStep s e t := by
  rcases Bool.eq_false_or_eq_true s.rst with hr | hr
  · have hs := h.rst_reset hr
    exact .kept ((irq_of_reset (reset_of_performed hs hr hp)).trans (irq_of_reset hs).symm)
  cases hp with
  | read | ignored | rejected | bus => exact .kept rfl
  | register off v => exact irqStep_writeReg off v s
  | accepted w t _ hb ha => exact .command w hb ha.not_busy_of_done
  | clock => exact (Runs.clock hr).irqStep h _
  | takes => exact .kept (by unfold takeRequest; split <;> rfl)
  | replies rx => exact (Runs.reply rx hr).irqStep h _
  | rst level =>
    cases level
    · exact .kept (by rw [driveRst, if_neg (by simp [hr])])
    · exact .reset rfl rfl

/-- A step that raises IRQ completes an op or sets IE. -/
theorem IrqStep.rises {e : Input} {s t : State} (h : IrqStep s e t) (hs : irq s = false) (ht : irq t = true) :
    (t.stat.done = true ∧ t.stat.busy = false ∧ (s.stat.busy = true ∨ ∃ w, e = .hostWrite 0x00 4 w)) ∨
    ∃ v, e = .hostWrite 0x20 4 v ∧ v.getLsbD 16 = true := by
  obtain ⟨hdone, -⟩ := Bool.and_eq_true_iff.mp ht
  cases h with
  | kept hirq => exact absurd (hs.symm.trans (hirq.symm.trans ht)) (by decide)
  | reset _ hirq => exact absurd (hirq.symm.trans ht) (by decide)
  | statWrite v hirq =>
    rw [hs, Bool.false_and] at hirq
    exact absurd (hirq.symm.trans ht) (by decide)
  | cfgWrite v hirq => exact .inr ⟨v, rfl, (Bool.and_eq_true_iff.mp (hirq.symm.trans ht)).2⟩
  | command w _ hbusy => exact .inl ⟨hdone, hbusy hdone, .inr ⟨w, rfl⟩⟩
  | completion hb _ hbusy => exact .inl ⟨hdone, hbusy, .inl hb⟩

/-- A step that lowers IRQ asserts `rst`, clears DONE, accepts a command or clears IE. -/
theorem IrqStep.falls {e : Input} {s t : State} (h : IrqStep s e t) (hs : irq s = true) (ht : irq t = false) :
    t.rst = true ∨ (∃ v, e = .hostWrite 0x04 4 v ∧ v.getLsbD 1 = true) ∨
    (∃ w, e = .hostWrite 0x00 4 w ∧ s.stat.busy = false) ∨ ∃ v, e = .hostWrite 0x20 4 v ∧ v.getLsbD 16 = false := by
  obtain ⟨hdone, hie⟩ := Bool.and_eq_true_iff.mp hs
  cases h with
  | kept hirq => exact absurd (ht.symm.trans (hirq.trans hs)) (by decide)
  | reset hr => exact .inl hr
  | statWrite v hirq =>
    rw [ht, hs, Bool.true_and] at hirq
    exact .inr (.inl ⟨v, rfl, Bool.not_eq_eq_eq_not.mp hirq.symm⟩)
  | cfgWrite v hirq =>
    rw [ht, hdone, Bool.true_and] at hirq
    exact .inr (.inr (.inr ⟨v, rfl, hirq.symm⟩))
  | command w hb => exact .inr (.inr (.inl ⟨w, rfl, hb⟩))
  | completion _ hdone' _ hie' =>
    rw [irq, hdone', hie', hie] at ht
    cases ht

/-- Settles O58: a step raises and lowers IRQ as its queued step does. -/
theorem irqLevel : Obligations.IrqLevel := by
  intro s t hinv hstep
  obtain ⟨e, later, he, hp⟩ := step_performed hstep
  have hirq := performed_irqStep (hinv.setInputs later) hp
  have hqueued : ∀ {off v}, e = .hostWrite off 4 v → s.inputs = .hostWrite off 4 v :: later := by
    rintro off v rfl
    exact he.resolve_right fun h => nomatch h.2
  refine ⟨rfl, fun hs ht => ?_, fun hs ht => ?_⟩
  · rcases hirq.rises hs ht with ⟨hdone, hbusy, hb | ⟨w, hw⟩⟩ | ⟨v, hv, hset⟩
    · exact .inl ⟨hdone, hbusy, .inl hb⟩
    · exact .inl ⟨hdone, hbusy, .inr ⟨w, later, hqueued hw⟩⟩
    · exact .inr ⟨v, later, hqueued hv, hset⟩
  · rcases hirq.falls hs ht with hr | ⟨v, hv, hclear⟩ | ⟨w, hw, hb⟩ | ⟨v, hv, hclear⟩
    · exact .inl hr
    · exact .inr (.inl ⟨v, later, hqueued hv, hclear⟩)
    · exact .inr (.inr (.inl ⟨w, later, hqueued hw, hb⟩))
    · exact .inr (.inr (.inr ⟨v, later, hqueued hv, hclear⟩))

end Sys2Proof.Machine
end

section
/-! The down-counters HC and SC (60_exceptions.md R228, 41_twowire.md R142, 42_serial.md R185). -/

namespace Sys2Proof.Machine

open Host (Outcome)

/-- With nothing queued, a step at a phase is a cycle of it. -/
theorem step_at_phase {s : State} {l : Line} {v : BitSource} {rest : List Stmt} (hs : s.seq = .run (.phase l v :: rest))
    (hp : s.pend = false) (hr : s.rst = false) (hi : s.inputs = []) :
    step s = .next (addDraws 1 (phaseCycle Config.params l v rest s)) := by
  rw [step_of_no_inputs s hi, clock_at_phase _ s l v rest hr hp hs]

/-- The last cycle of a phase leaves HC at 0. -/
theorem phaseCycle_last_hc (p : Params) (l : Line) (v : BitSource) (rest : List Stmt) {s : State}
    (h : s.hc = 1 ∨ s.hc = 0 ∧ s.dlat = 1) : (phaseCycle p l v rest s).hc = 0 := by
  rcases h with h1 | ⟨h0, hd⟩
  · rw [phaseCycle_last p l v rest s h1, drain_hc, setHc_hc]
  · rw [phaseCycle_only p l v rest s h0 (by rw [hd]; decide), drain_hc, setLine_hc, h0]

/-- `settle()` begins by loading SC from SLAT (42_serial.md R185). -/
theorem drain_settleList_waits (p : Params) (rest : List Stmt) {s : State} (h : s.slat ≠ 0) :
    drain p (settleList ++ rest) s = setSeq (.run (.settle :: rest)) (setSc s.slat s) :=
  (drain_settleList p rest s).trans (if_neg h)

/-- A cycle of a settle that is not its last. -/
theorem clock_in_settle (p : Params) {s : State} {rest : List Stmt} (hr : s.rst = false) (hp : s.pend = false)
    (hs : s.seq = .run (.settle :: rest)) (hsc : 1 < s.sc.toNat) : clock p s = addDraws 1 (setSc (s.sc - 1) s) := by
  have hnow : s.sc ≠ 0 := fun h0 => by simp [h0] at hsc
  have hnext : s.sc - 1 ≠ 0 := by bv_omega
  rw [clock_at_settle p s rest hr hp hs hnow, drain_at_settle, setSc_sc, if_neg hnext, setSeq_eq_self _ (setSc (s.sc - 1) s) hs]

/-- Settles O59: a cycle of a phase by its kind, the reply by the draining of `settle()`, a settle's cycle by SC. -/
theorem countersCountDown : Obligations.CountersCountDown := by
  refine ⟨fun s l v rest hs hp hr hi => ⟨fun h0 hd => ?_, fun hhc => ?_, fun hlast => ?_⟩,
    fun s f rest rx later hs hp hv hr hi hslat => ?_, fun s rest hs hp hr hi hsc => ?_⟩
  · rw [step_at_phase hs hp hr hi, phaseCycle_first _ l v rest s h0 hd]
    cases l <;> rfl
  · rw [step_at_phase hs hp hr hi, phaseCycle_hold _ l v rest s hhc]
    rfl
  · exact ⟨_, step_at_phase hs hp hr hi, phaseCycle_last_hc _ l v rest hlast⟩
  · have htake := takeReply_awaited Config.params (s := { s with inputs := later }) rx hr hp hv hs
    have hload := drain_settleList_waits Config.params rest
      (s := storeReply Config.params f rx { s with inputs := later }) hslat
    exact ⟨_, (step_of_inputs s _ later hi).trans (congrArg Outcome.next (htake.trans hload)), rfl, rfl⟩
  · rw [step_of_no_inputs s hi, clock_in_settle _ hr hp hs hsc]
    rfl

end Sys2Proof.Machine
end

section
/-! Reset: the platform's step on `rst`, the steps while it is asserted, and a reply that comes after its release
(70_reset_and_hazards.md R250, R251). -/

namespace Sys2Proof.Machine

open Host (Outcome)

/-- The block at its reset values, with `rst` at the given level; the other inputs stay (70_reset_and_hazards.md R250). -/
def State.atReset (level : Bool) (s : State) : State := resetBlock Config.params { s with rst := level }

/-- Asserting `rst`, or driving it while it is asserted, resets the block. -/
theorem step_rst {s : State} {level : Bool} {later : List Input} (hi : s.inputs = .rst level :: later)
    (h : level = true ∨ s.rst = true) : step s = .next (setInputs later (s.atReset level)) := by
  rw [step_of_inputs s _ later hi, perform, driveRst, if_pos (by simpa using h)]
  rfl

/-- While `rst` is asserted a write has no effect. -/
theorem step_hostWrite_of_rst {s : State} {off : BitVec 6} {v : Word} {later : List Input}
    (hi : s.inputs = .hostWrite off 4 v :: later) (hoff : off.toNat % 4 = 0) (hr : s.rst = true) :
    step s = .next (setInputs later s) := by
  rw [step_hostWrite hi hoff, hostWrite, if_pos hr]
  rfl

/-- While `rst` is asserted a clock cycle only draws the free levels anew. -/
theorem step_clock_of_rst {s : State} {later : List Input} (hi : s.inputs = .clock :: later) (hr : s.rst = true) :
    step s = .next (setInputs later (addDraws 1 s)) := by
  have hclock := clock_of_rst Config.params (setInputs later s) hr
  exact (step_of_inputs s _ later hi).trans (congrArg Outcome.next hclock)

/-- A reply that comes to an idle block is ignored. -/
theorem step_reply_of_idle {s : State} {rx : Vector Byte 9} {later : List Input}
    (hi : s.inputs = .transportReplies rx :: later) (hs : s.seq = .idle) : step s = .next (setInputs later s) := by
  have hreply := takeReply_of_idle Config.params rx (s := setInputs later s) hs
  exact (step_of_inputs s _ later hi).trans (congrArg Outcome.next hreply)

/-- While `rst` is asserted a command, a clock cycle and a reply leave an idle block as it is, but for the draw of the cycle. -/
theorem runsTo_of_rst {s : State} {w : Word} {rx : Vector Byte 9} {later : List Input}
    (hi : s.inputs = .hostWrite 0x00 4 w :: .clock :: .transportReplies rx :: later) (hr : s.rst = true)
    (hs : s.seq = .idle) : runsTo 3 s (setInputs later (addDraws 1 s)) := by
  have hwrite := step_hostWrite_of_rst hi (by decide) hr
  have hclock := step_clock_of_rst (s := setInputs (.clock :: .transportReplies rx :: later) s) rfl hr
  have hreply := step_reply_of_idle (s := setInputs (.transportReplies rx :: later) (addDraws 1 s)) rfl hs
  exact runsTo_step 2 _ _ _ hwrite (runsTo_step 1 _ _ _ hclock (runsTo_step 0 _ _ _ hreply rfl))

/-- The release of `rst` puts the block at its reset values again, where a late reply is ignored (R251). -/
theorem runsTo_released {s : State} {rx : Vector Byte 9} {later : List Input}
    (hi : s.inputs = .rst false :: .transportReplies rx :: later) (hr : s.rst = true) :
    runsTo 2 s (setInputs later (s.atReset false)) := by
  have hrelease := step_rst hi (.inr hr)
  have hreply := step_reply_of_idle (s := setInputs (.transportReplies rx :: later) (s.atReset false)) rfl rfl
  exact runsTo_step 1 _ _ _ hrelease (runsTo_step 0 _ _ _ hreply rfl)

/-- Settles O50: at the reset values no op runs that a command, a clock cycle or a reply could move. -/
theorem resetAbandons : Obligations.ResetAbandons := by
  intro s w rx later
  refine ⟨fun hi => step_rst hi (.inl rfl), fun hi => ?_⟩
  have hheld := runsTo_step 3 _ _ _ (step_rst hi (.inl rfl)) (runsTo_of_rst rfl rfl rfl)
  exact ⟨hheld, runsTo_add 4 2 _ _ _ hheld (runsTo_released rfl rfl)⟩

end Sys2Proof.Machine
end
